-- ==== Sys2Proof/Word.lean ====
section
/-! DEFINITION. The word types of the host port (spec R61, R64): a 32-bit word, an 8-bit byte. -/

namespace Sys2Proof

/-- A 32-bit word: a CSR, an operand register, the data of a transaction (R23, R24, R61). -/
abbrev Word := BitVec 32

/-- One byte lane of a 32-bit word, where a platform maps the port onto a byte-addressed bus (R64). -/
abbrev Byte := BitVec 8

end Sys2Proof
end

