-- ==== Sys2Proof/Syntax.lean ====
section
/-! DEFINITION. The fourteen commands of the block (spec R92, spec/opcode_table.json), whole, with the operand words of
R94 to R99 as records of their fields. Fields that are counts or sizes are naturals; WellFormed.lean holds their ranges. -/

namespace Sys2Proof

/-- UCICFG, the UCI configuration word (R96). -/
structure UciCfg where
  /-- number of HARQ-ACK bits -/
  oAck : Nat
  /-- number of CSI-part-1 bits -/
  oCsi1 : Nat
  /-- a scheduling-request bit is present -/
  sr : Bool
deriving DecidableEq, Repr

/-- PUCCHRES, the PUCCH resource word (R97). -/
structure PucchRes where
  /-- PUCCH format -/
  fmt : Nat
  /-- symbol count -/
  nsym : Nat
  /-- PRB count -/
  nprb : Nat
  /-- modulation order, bits per symbol -/
  qm : Nat
  /-- spreading factor of format 4 -/
  sf : Nat
deriving DecidableEq, Repr

/-- PUSCHCFG1 to PUSCHCFG4, the PUSCH configuration words (R98). -/
structure PuschCfg where
  /-- resource elements available to UCI, over all symbols -/
  mSum : Nat
  /-- resource elements available to UCI from symbol l0 onward -/
  mL0Sum : Nat
  /-- sum of the UL-SCH code-block sizes, 0 for no UL-SCH -/
  kSum : Nat
  /-- HARQ-ACK beta offset times 8 -/
  betaAckX8 : Nat
  /-- CSI-part-1 beta offset times 8 -/
  betaCsi1X8 : Nat
  /-- scaling factor alpha times 20 -/
  alphaX20 : Nat
  /-- target code rate times 1024 -/
  rX1024 : Nat
  /-- modulation order -/
  qm : Nat
  /-- number of layers -/
  nLayers : Nat
  /-- a CSI part 2 is present -/
  csi2 : Bool
deriving DecidableEq, Repr

/-- The commands (R92), one constructor per row of spec/opcode_table.json. -/
inductive Instr where
  /-- INIT (R238): the two thresholds, as 32-bit words read signed (R94) -/
  | init (thr1 thrb : Word)
  /-- FREE (R239) -/
  | free
  /-- SETCARRIER (R240): numerology index and bandwidth in PRB (R95) -/
  | setCarrier (mu nprb : Nat)
  /-- ENC_PUCCH (R246) -/
  | encPucch (cfg : UciCfg) (res : PucchRes)
  /-- DEC_PUCCH (R247) -/
  | decPucch (cfg : UciCfg) (res : PucchRes)
  /-- ENC_PUSCH_ACK (R248) -/
  | encPuschAck (cfg : UciCfg) (pcfg : PuschCfg)
  /-- DEC_PUSCH_ACK (R249) -/
  | decPuschAck (cfg : UciCfg) (pcfg : PuschCfg)
  /-- ENC_PUSCH_CSI1 (R250) -/
  | encPuschCsi1 (cfg : UciCfg) (pcfg : PuschCfg)
  /-- DEC_PUSCH_CSI1 (R251) -/
  | decPuschCsi1 (cfg : UciCfg) (pcfg : PuschCfg)
  /-- Q_TOTAL (R131) -/
  | qTotal (cfg : UciCfg)
  /-- Q_CRCLEN (R132): the payload length of AVAL (R99) -/
  | qCrcLen (a : Nat)
  /-- Q_PUCCH_E (R133) -/
  | qPucchE (res : PucchRes)
  /-- Q_PUSCH_ACK_E (R134) -/
  | qPuschAckE (cfg : UciCfg) (pcfg : PuschCfg)
  /-- Q_PUSCH_CSI1_E (R135) -/
  | qPuschCsi1E (cfg : UciCfg) (pcfg : PuschCfg)
deriving DecidableEq, Repr

end Sys2Proof
end

