-- ==== Sys2Proof/Config.lean ====
section
/-! DEFINITION. The configuration record the spec's R7 gives the model (the tables, the engines, the capacities: parameters
of the step, not state, R16), and the uninterpreted constants: the value a host reads from an unspecified element (R33) and
the Polar engine, which has no reference instance (R211; Machine/Engine.lean makes a lawful engine of its constants). The
default record stands in Machine/Tables.lean. -/

namespace Sys2Proof

/-- The two orders in which a PUCCH payload is concatenated (R7, R242). -/
inductive PackOrder where
  | ackCsi1Sr
  | ackSrCsi1
deriving DecidableEq, Repr

/-- A Polar code as the engine's Construct reports it (R211). The code's insides (frozen set, interleaver) are the engine's:
Construct is a function of (K, E) alone (P-POL3), so an engine function that is handed these three numbers can find them. -/
structure PolarCode where
  /-- information bits, CRC included -/
  K : Nat
  /-- coded bits after rate matching -/
  E : Nat
  /-- mother-code length -/
  N : Nat
deriving DecidableEq, Repr

/-- The CRC engine's two functions (R153): the generator polynomial as a 32-bit word, its degree, and the bits. -/
structure CrcEngine where
  attach : Word → Nat → List Bool → List Bool
  check : Word → Nat → List Bool → Bool

/-- The Polar engine's six functions (R211). Soft values are signed integers. -/
structure PolarEngine where
  construct : Nat → Nat → Option PolarCode
  allocate : PolarCode → List Bool → List Bool
  encode : PolarCode → List Bool → List Bool
  rateMatch : PolarCode → List Bool → List Bool
  derate : PolarCode → List Int → List Int
  decode : PolarCode → List Int → List Bool

/-- The configuration record (R7). -/
structure Config where
  /-- largest payload length any carrier may support -/
  aMax : Nat
  /-- largest coded length any carrier may support -/
  eMax : Nat
  /-- capacity of the scratch buffers `allocated` and `d` -/
  nMax : Nat
  /-- width of one LLR -/
  llrW : Nat
  /-- width of one element of `d` -/
  softW : Nat
  /-- the 1-bit statistic is the average rather than the sum -/
  oneBitAvg : Bool
  packOrder : PackOrder
  /-- the 1-bit code sequence, SEQ1(bit, k) (R166) -/
  seq1 : Bool → Nat → Bool
  /-- the 2-bit codebook, G2[i][j] (R168) -/
  g2 : Nat → Nat → Bool
  /-- the basis table, RM_BASIS[i][n] (R170) -/
  rmBasis : Nat → Nat → Bool
  /-- the CRC-6 generator: bit i is the coefficient of D^i (R152) -/
  poly6 : Word
  /-- the CRC-11 generator (R152) -/
  poly11 : Word
  crc : CrcEngine
  polar : PolarEngine
  /-- the PUCCH length table (R123) -/
  pucchE : PucchRes → Option Nat
  /-- the PUSCH length formulas and the allocation bound (R127) -/
  puschAckE : PuschCfg → Nat → Int
  puschCsi1E : PuschCfg → Nat → Nat → Int
  puschAlloc : PuschCfg → Int
  /-- capacities of a carrier: from (mu, nprb), none or (capA, capE) (R241) -/
  carrierCap : Nat → Nat → Option (Nat × Nat)

/-- The n-th arbitrary value a host read of an unspecified element may return (R33). Log 3. -/
opaque Config.freeElement : Nat → Word

/-- The functions from which the Polar engine of the machine is made, without a body: nothing is known of them (R211, log 9).
The base-2 logarithm of the mother-code length the engine reports for (K, E), none where it serves no such pair. -/
opaque Config.freePolarLogN : Nat → Nat → Option Nat

/-- Element k of Allocate(code, bits) (R211). -/
opaque Config.freePolarAllocate : PolarCode → List Bool → Nat → Bool

/-- Element k of Encode(code, bits) (R211). -/
opaque Config.freePolarEncode : PolarCode → List Bool → Nat → Bool

/-- Element k of RateMatch(code, bits) (R211). -/
opaque Config.freePolarRateMatch : PolarCode → List Bool → Nat → Bool

/-- Element k of Derate(code, llr), as a word whose low SOFT_W bits are the soft value (R211). -/
opaque Config.freePolarDerate : PolarCode → List Int → Nat → Word

/-- Element k of Decode(code, soft) (R211). -/
opaque Config.freePolarDecode : PolarCode → List Int → Nat → Bool

end Sys2Proof
end

