-- ==== Sys2Proof/WellFormed.lean ====
section
/-! DEFINITION. Which instruction terms a frame can carry: every field fits its slice of the operand word (spec R94 to
R99). An illegal VALUE of a field that fits (fmt = 5, qm = 3) is well formed: it decodes, and the command fails (R101 (e)). -/

namespace Sys2Proof

/-- The fields of UCICFG fit their slices (R96). -/
abbrev UciCfg.WellFormed (cfg : UciCfg) : Prop :=
  cfg.oAck < 2 ^ 11 ∧ cfg.oCsi1 < 2 ^ 11

/-- The fields of PUCCHRES fit their slices (R97). -/
abbrev PucchRes.WellFormed (res : PucchRes) : Prop :=
  res.fmt < 2 ^ 3 ∧ res.nsym < 2 ^ 4 ∧ res.nprb < 2 ^ 5 ∧ res.qm < 2 ^ 2 ∧ res.sf < 2 ^ 3

/-- The fields of PUSCHCFG1 to PUSCHCFG4 fit their slices (R98). -/
abbrev PuschCfg.WellFormed (p : PuschCfg) : Prop :=
  p.mSum < 2 ^ 16 ∧ p.mL0Sum < 2 ^ 16 ∧ p.kSum < 2 ^ 24 ∧ p.betaAckX8 < 2 ^ 10 ∧ p.betaCsi1X8 < 2 ^ 10 ∧
  p.alphaX20 < 2 ^ 5 ∧ p.rX1024 < 2 ^ 11 ∧ p.qm < 2 ^ 4 ∧ p.nLayers < 2 ^ 3

/-- The fields of the carrier word fit their slices (R95). -/
abbrev carrierWellFormed (mu nprb : Nat) : Prop := mu < 2 ^ 3 ∧ nprb < 2 ^ 9

/-- A payload length of Q_CRCLEN fits AVAL (R99). -/
abbrev avalWellFormed (a : Nat) : Prop := a < 2 ^ 32

/-- Every operand field of the instruction fits its slice of the frame. -/
def Instr.wellFormed : Instr → Bool
  | .init _ _ => true
  | .free => true
  | .setCarrier mu nprb => decide (carrierWellFormed mu nprb)
  | .encPucch cfg res => decide (cfg.WellFormed ∧ res.WellFormed)
  | .decPucch cfg res => decide (cfg.WellFormed ∧ res.WellFormed)
  | .encPuschAck cfg p => decide (cfg.WellFormed ∧ p.WellFormed)
  | .decPuschAck cfg p => decide (cfg.WellFormed ∧ p.WellFormed)
  | .encPuschCsi1 cfg p => decide (cfg.WellFormed ∧ p.WellFormed)
  | .decPuschCsi1 cfg p => decide (cfg.WellFormed ∧ p.WellFormed)
  | .qTotal cfg => decide cfg.WellFormed
  | .qCrcLen a => decide (avalWellFormed a)
  | .qPucchE res => decide res.WellFormed
  | .qPuschAckE cfg p => decide (cfg.WellFormed ∧ p.WellFormed)
  | .qPuschCsi1E cfg p => decide (cfg.WellFormed ∧ p.WellFormed)

/-- The instruction is one a frame can carry. -/
abbrev Instr.WellFormed (i : Instr) : Prop := i.wellFormed = true

end Sys2Proof
end

