-- ==== Sys2Proof/Decode.lean ====
section
/-! DEFINITION. Command frames (spec R90, R91), the frame decoder (R100, R101), total and rejecting by name, and after it
the encoder written from the same field tables (R94 to R99). -/

namespace Sys2Proof

/-- The eight operand registers ARG0 to ARG7 (R24). -/
structure Args where
  a0 : Word
  a1 : Word
  a2 : Word
  a3 : Word
  a4 : Word
  a5 : Word
  a6 : Word
  a7 : Word
deriving DecidableEq, Repr

/-- All eight operand registers zero. -/
def Args.zero : Args := ⟨0, 0, 0, 0, 0, 0, 0, 0⟩

/-- A command frame: the header and ARG0 to ARG7 as they stand at the write of CMD (R90). -/
structure Frame where
  h : Word
  arg : Args
deriving DecidableEq, Repr

/-- Why a frame is ILLEGAL (R101 (a)). Each raises IllegalCommand (R281). -/
inductive DecodeError where
  /-- h[31:4] is not zero -/
  | reservedHeaderBits
  /-- opcode 0 or 15 -/
  | reservedOpcode
  /-- a reserved bit is set in the operand word ARG k -/
  | reservedOperandBits (k : Nat)
deriving DecidableEq, Repr

/-- The contiguous field of `len` bits whose least significant bit is bit `lo`: w[lo+len-1 : lo] (R9). -/
def slice (w : Word) (lo len : Nat) : Nat := w.toNat / 2 ^ lo % 2 ^ len

/-- One-bit field (R96 `sr`, R98 `csi2`). -/
def sliceBit (w : Word) (lo : Nat) : Bool := slice w lo 1 == 1

/-- The fields of UCICFG (R96). -/
def uciCfgOf (w : Word) : UciCfg :=
  { oAck := slice w 0 11, oCsi1 := slice w 11 11, sr := sliceBit w 22 }

/-- The fields of PUCCHRES (R97). -/
def pucchResOf (w : Word) : PucchRes :=
  { fmt := slice w 0 3, nsym := slice w 3 4, nprb := slice w 7 5, qm := slice w 12 2, sf := slice w 14 3 }

/-- The fields of PUSCHCFG1 to PUSCHCFG4 (R98). -/
def puschCfgOf (w1 w2 w3 w4 : Word) : PuschCfg :=
  { mSum := slice w1 0 16, mL0Sum := slice w1 16 16
    kSum := slice w2 0 24
    betaAckX8 := slice w3 0 10, betaCsi1X8 := slice w3 10 10, alphaX20 := slice w3 20 5
    rX1024 := slice w4 0 11, qm := slice w4 11 4, nLayers := slice w4 15 3, csi2 := sliceBit w4 18 }

/-- Format C: ARG0 is CARRIERW, bits 31:12 reserved (R93, R95). -/
def decodeC (arg : Args) : Except DecodeError Instr :=
  if slice arg.a0 12 20 ≠ 0 then .error (.reservedOperandBits 0)
  else .ok (.setCarrier (slice arg.a0 0 3) (slice arg.a0 3 9))

/-- Format P: ARG0 is UCICFG, bits 31:23 reserved, ARG1 is PUCCHRES, bits 31:17 reserved (R93, R96, R97). -/
def decodeP (mk : UciCfg → PucchRes → Instr) (arg : Args) : Except DecodeError Instr :=
  if slice arg.a0 23 9 ≠ 0 then .error (.reservedOperandBits 0)
  else if slice arg.a1 17 15 ≠ 0 then .error (.reservedOperandBits 1)
  else .ok (mk (uciCfgOf arg.a0) (pucchResOf arg.a1))

/-- Format S: ARG0 is UCICFG, ARG1 to ARG4 are PUSCHCFG1 to PUSCHCFG4 with their reserved bits (R93, R96, R98). -/
def decodeS (mk : UciCfg → PuschCfg → Instr) (arg : Args) : Except DecodeError Instr :=
  if slice arg.a0 23 9 ≠ 0 then .error (.reservedOperandBits 0)
  else if slice arg.a2 24 8 ≠ 0 then .error (.reservedOperandBits 2)
  else if slice arg.a3 25 7 ≠ 0 then .error (.reservedOperandBits 3)
  else if slice arg.a4 19 13 ≠ 0 then .error (.reservedOperandBits 4)
  else .ok (mk (uciCfgOf arg.a0) (puschCfgOf arg.a1 arg.a2 arg.a3 arg.a4))

/-- Format U: ARG0 is UCICFG (R93, R96). -/
def decodeU (arg : Args) : Except DecodeError Instr :=
  if slice arg.a0 23 9 ≠ 0 then .error (.reservedOperandBits 0) else .ok (.qTotal (uciCfgOf arg.a0))

/-- Format R: ARG1 is PUCCHRES, ARG0 is ignored (R93, R97). -/
def decodeR (arg : Args) : Except DecodeError Instr :=
  if slice arg.a1 17 15 ≠ 0 then .error (.reservedOperandBits 1) else .ok (.qPucchE (pucchResOf arg.a1))

/-- The frame decoder: a total function of the nine words and of nothing else (R100). -/
def decode (f : Frame) : Except DecodeError Instr :=
  if slice f.h 4 28 ≠ 0 then .error .reservedHeaderBits
  else match slice f.h 0 4 with
    | 1 => .ok (.init f.arg.a0 f.arg.a1)
    | 2 => .ok .free
    | 3 => decodeC f.arg
    | 4 => decodeP .encPucch f.arg
    | 5 => decodeP .decPucch f.arg
    | 6 => decodeS .encPuschAck f.arg
    | 7 => decodeS .decPuschAck f.arg
    | 8 => decodeS .encPuschCsi1 f.arg
    | 9 => decodeS .decPuschCsi1 f.arg
    | 10 => decodeU f.arg
    | 11 => .ok (.qCrcLen f.arg.a0.toNat)
    | 12 => decodeR f.arg
    | 13 => decodeS .qPuschAckE f.arg
    | 14 => decodeS .qPuschCsi1E f.arg
    | _ => .error .reservedOpcode

/-! The encoder. -/

/-- UCICFG from its fields (R96). -/
def uciCfgWord (cfg : UciCfg) : Word :=
  BitVec.ofNat 32 (cfg.oAck + 2 ^ 11 * cfg.oCsi1 + 2 ^ 22 * cfg.sr.toNat)

/-- PUCCHRES from its fields (R97). -/
def pucchResWord (res : PucchRes) : Word :=
  BitVec.ofNat 32 (res.fmt + 2 ^ 3 * res.nsym + 2 ^ 7 * res.nprb + 2 ^ 12 * res.qm + 2 ^ 14 * res.sf)

/-- PUSCHCFG1 from its fields (R98). -/
def puschCfg1Word (p : PuschCfg) : Word := BitVec.ofNat 32 (p.mSum + 2 ^ 16 * p.mL0Sum)

/-- PUSCHCFG2 from its field (R98). -/
def puschCfg2Word (p : PuschCfg) : Word := BitVec.ofNat 32 p.kSum

/-- PUSCHCFG3 from its fields (R98). -/
def puschCfg3Word (p : PuschCfg) : Word :=
  BitVec.ofNat 32 (p.betaAckX8 + 2 ^ 10 * p.betaCsi1X8 + 2 ^ 20 * p.alphaX20)

/-- PUSCHCFG4 from its fields (R98). -/
def puschCfg4Word (p : PuschCfg) : Word :=
  BitVec.ofNat 32 (p.rX1024 + 2 ^ 11 * p.qm + 2 ^ 15 * p.nLayers + 2 ^ 18 * p.csi2.toNat)

/-- CARRIERW from its fields (R95). -/
def carrierWord (mu nprb : Nat) : Word := BitVec.ofNat 32 (mu + 2 ^ 3 * nprb)

/-- The opcode h[3:0] of an instruction (R92). -/
def opcode : Instr → Nat
  | .init _ _ => 1
  | .free => 2
  | .setCarrier _ _ => 3
  | .encPucch _ _ => 4
  | .decPucch _ _ => 5
  | .encPuschAck _ _ => 6
  | .decPuschAck _ _ => 7
  | .encPuschCsi1 _ _ => 8
  | .decPuschCsi1 _ _ => 9
  | .qTotal _ => 10
  | .qCrcLen _ => 11
  | .qPucchE _ => 12
  | .qPuschAckE _ _ => 13
  | .qPuschCsi1E _ _ => 14

/-- The operand words of format P, the other ARG words zero (R93). -/
def argsP (cfg : UciCfg) (res : PucchRes) : Args := { Args.zero with a0 := uciCfgWord cfg, a1 := pucchResWord res }

/-- The operand words of format S, the other ARG words zero (R93). -/
def argsS (cfg : UciCfg) (p : PuschCfg) : Args :=
  { Args.zero with
    a0 := uciCfgWord cfg, a1 := puschCfg1Word p, a2 := puschCfg2Word p, a3 := puschCfg3Word p, a4 := puschCfg4Word p }

/-- The operand words of an instruction, ARG words outside its format zero (R93). -/
def encodeArgs : Instr → Args
  | .init thr1 thrb => { Args.zero with a0 := thr1, a1 := thrb }
  | .free => Args.zero
  | .setCarrier mu nprb => { Args.zero with a0 := carrierWord mu nprb }
  | .encPucch cfg res => argsP cfg res
  | .decPucch cfg res => argsP cfg res
  | .encPuschAck cfg p => argsS cfg p
  | .decPuschAck cfg p => argsS cfg p
  | .encPuschCsi1 cfg p => argsS cfg p
  | .decPuschCsi1 cfg p => argsS cfg p
  | .qTotal cfg => { Args.zero with a0 := uciCfgWord cfg }
  | .qCrcLen a => { Args.zero with a0 := BitVec.ofNat 32 a }
  | .qPucchE res => { Args.zero with a1 := pucchResWord res }
  | .qPuschAckE cfg p => argsS cfg p
  | .qPuschCsi1E cfg p => argsS cfg p

/-- The operand register ARG k of a frame; the indices above 7 name none. -/
def Args.get (a : Args) (k : Nat) : Word :=
  match k with
  | 0 => a.a0
  | 1 => a.a1
  | 2 => a.a2
  | 3 => a.a3
  | 4 => a.a4
  | 5 => a.a5
  | 6 => a.a6
  | 7 => a.a7
  | _ => 0

/-- Which ARG words are operands of the command, by its format; the others are ignored (R90, R93). -/
def operandIndices : Instr → List Nat
  | .init _ _ => [0, 1]
  | .free => []
  | .setCarrier _ _ => [0]
  | .encPucch _ _ => [0, 1]
  | .decPucch _ _ => [0, 1]
  | .encPuschAck _ _ => [0, 1, 2, 3, 4]
  | .decPuschAck _ _ => [0, 1, 2, 3, 4]
  | .encPuschCsi1 _ _ => [0, 1, 2, 3, 4]
  | .decPuschCsi1 _ _ => [0, 1, 2, 3, 4]
  | .qTotal _ => [0]
  | .qCrcLen _ => [0]
  | .qPucchE _ => [1]
  | .qPuschAckE _ _ => [0, 1, 2, 3, 4]
  | .qPuschCsi1E _ _ => [0, 1, 2, 3, 4]

/-- The frame of an instruction: the header is the opcode, bits 31:4 zero (R91). -/
def encode (i : Instr) : Frame := { h := BitVec.ofNat 32 (opcode i), arg := encodeArgs i }

/-! Frames as numbers, as spec/opcode_table.json numbers their bits: bit 0 is the least significant bit of the header, a
later word's bits count on from it. -/

/-- The frame whose bits are `w`, every bit at or above `nbits` zero. -/
def Frame.ofNat (nbits w : Nat) : Frame :=
  let v := w % 2 ^ nbits
  { h := BitVec.ofNat 32 v
    arg :=
      { a0 := BitVec.ofNat 32 (v / 2 ^ 32), a1 := BitVec.ofNat 32 (v / 2 ^ 64), a2 := BitVec.ofNat 32 (v / 2 ^ 96)
        a3 := BitVec.ofNat 32 (v / 2 ^ 128), a4 := BitVec.ofNat 32 (v / 2 ^ 160), a5 := BitVec.ofNat 32 (v / 2 ^ 192)
        a6 := BitVec.ofNat 32 (v / 2 ^ 224), a7 := BitVec.ofNat 32 (v / 2 ^ 256) } }

/-- The instruction the decoder reads from an instruction whose bits are `w`. -/
def decodeTableWord (nbits w : Nat) : Option Instr :=
  match decode (Frame.ofNat nbits w) with
  | .ok i => some i
  | .error _ => none

end Sys2Proof
end

