-- ==== Sys2Proof/Machine/State.lean ====
section
/-! DEFINITION. The state of one UCI-CORE instance (spec R21), whole, as plain data, with the reset state (R40, R310), and
beside it the model's own three fields: what HOST has still to do, what it has been given, and how many arbitrary values
have been drawn. -/

namespace Sys2Proof.Machine

/-- The lifecycle register (R22). -/
inductive Life where
  /-- no session exists -/
  | uninit
  /-- created by INIT, no carrier set -/
  | noCarrier
  /-- a carrier is set, codec commands are accepted -/
  | ready
deriving DecidableEq, Repr

/-- The five response registers RESP0 to RESP4 (R28, R29). -/
structure Resp where
  r0 : Word
  r1 : Word
  r2 : Word
  r3 : Word
  r4 : Word
deriving DecidableEq, Repr

/-- A buffer space: the elements that hold a value, each with its index, in the canonical form of strictly rising
indices. An index that is not listed is UNSPECIFIED (R33; log 10, DESIGN CHOICE). -/
abbrev Buf (α : Type) := List (Nat × α)

/-- The nine buffer spaces (R30). A bit is a Bool, a soft value a signed integer in its width's range (R37). -/
structure Memory where
  valAck : Buf Bool
  valCsi1 : Buf Bool
  /-- element 0 is the SR bit, element 1 the valid flag -/
  valMisc : Buf Bool
  cod : Buf Bool
  llr : Buf Int
  bitSequence : Buf Bool
  c : Buf Bool
  allocated : Buf Bool
  d : Buf Int
deriving DecidableEq, Repr

/-- Memory with every element of every space unspecified (R40). -/
def Memory.empty : Memory := ⟨[], [], [], [], [], [], [], [], []⟩

/-- The ten spaces of the host port (R60). -/
inductive Space where
  | csr | valAck | valCsi1 | valMisc | cod | llr | bitSequence | c | allocated | d
deriving DecidableEq, Repr

/-- What HOST, or the platform around the block, does next. -/
inductive HostAct where
  /-- HostWrite(space, index, data) (R61) -/
  | write (space : BitVec 4) (index : BitVec 16) (data : Word)
  /-- HostRead(space, index) (R61) -/
  | read (space : BitVec 4) (index : BitVec 16)
  /-- a write through a byte-addressed wrapper, of the bytes given, lowest address first (R64, R65) -/
  | busWrite (addr : BitVec 24) (bytes : List Byte)
  /-- a read of `size` bytes through a byte-addressed wrapper (R64, R65) -/
  | busRead (addr : BitVec 24) (size : Nat)
  /-- the hardware reset of the instance (R310) -/
  | reset
deriving DecidableEq, Repr

/-- What a read gave HOST. -/
inductive HostData where
  | word (w : Word)
  | bytes (bs : List Byte)
deriving DecidableEq, Repr

/-- The complete state (R21) and the model's own fields `host`, `seen`, `freeCount`. -/
structure State where
  life : Life
  arg : Args
  /-- the last header written to CMD (R25) -/
  cmd : Word
  resp : Resp
  /-- one_bit_threshold, read signed (R31) -/
  thr1 : Word
  /-- block_code_threshold, read signed Q15 (R31) -/
  thrb : Word
  /-- the carrier word SETCARRIER last accepted (R32) -/
  carrier : Word
  capA : Nat
  capE : Nat
  /-- the Polar context (R34) -/
  polarValid : Bool
  polarK : Nat
  polarE : Nat
  polarN : Nat
  /-- the two CRC contexts (R35) -/
  crc6 : Word
  crc11 : Word
  mem : Memory
  /-- MODEL: the acts HOST has still to perform, oldest first (R71; log 1) -/
  host : List HostAct
  /-- MODEL: the data HOST has been given, newest first (log 1) -/
  seen : List HostData
  /-- MODEL: how many arbitrary values have been drawn (R33; log 3) -/
  freeCount : Nat
deriving DecidableEq, Repr

/-- The block has no fault: it has "no fatal/unrecoverable internal error" (R290), and every error kind is a response, a
next state (R280). Nothing raises one; an empty type is safe and says so (log 20). -/
inductive Fault where
deriving DecidableEq, Repr

/-- Why the model gives a transition no meaning. -/
inductive Refusal where
  /-- Raised by an arm of exec whose instruction has no meaning yet: none in this model. Safe. -/
  | notModelled (mnemonic : String)
  /-- Raised by a codec command that would read an unspecified element of the space (R33: "the model refuses the
  transition"; log 5). Safe: a real block would use whatever the memory held. -/
  | unspecifiedElement (space : Space)
  /-- Raised by a bus access that is no transaction of the block: narrow, misaligned, or at an address that is no
  element's (R65; log 12). Safe. -/
  | notATransaction
deriving DecidableEq, Repr

/-- All five response registers zero. -/
def Resp.zero : Resp := ⟨0, 0, 0, 0, 0⟩

/-- The machine right after the hardware reset (R40, R310). HOST has nothing to do: the block waits. -/
def State.reset : State :=
  { life := .uninit, arg := Args.zero, cmd := 0, resp := Resp.zero, thr1 := 0, thrb := 0
    carrier := 0, capA := 0, capE := 0
    polarValid := false, polarK := 0, polarE := 0, polarN := 0
    crc6 := 0, crc11 := 0, mem := Memory.empty
    host := [], seen := [], freeCount := 0 }

end Sys2Proof.Machine
end

