-- ==== Sys2Proof/Machine/Flags.lean ====
section
/-! DEFINITION. The block's only condition codes: the fields of RESP0 (spec R28), the error codes (R280) and the path codes
(R28), and the one word they make (R283). -/

namespace Sys2Proof.Machine

/-- The value of RESP0.err after a command (R280). -/
inductive ErrKind where
  | ok | invalidResource | invalidConfig | crcMismatch | lowConfidence | sequence | illegalCommand
deriving DecidableEq, Repr

/-- The error code (R280). -/
def ErrKind.code : ErrKind → Nat
  | .ok => 0
  | .invalidResource => 1
  | .invalidConfig => 2
  | .crcMismatch => 3
  | .lowConfidence => 4
  | .sequence => 5
  | .illegalCommand => 6

/-- The four coding paths (R14, R243). -/
inductive Path where
  | oneBit | twoBit | rm | polar
deriving DecidableEq, Repr

/-- RESP0.path: 0 is NONE, for a command that does not reach dispatch (R28). -/
def pathCode : Option Path → Nat
  | none => 0
  | some .oneBit => 1
  | some .twoBit => 2
  | some .rm => 3
  | some .polar => 4

/-- RESP0 from its fields: err, rel << 4, path << 5, crc_len << 8, opc << 12 (R28, R283). -/
def resp0Word (err : ErrKind) (rel : Bool) (path : Option Path) (crcLen : Nat) (opc : Nat) : Word :=
  BitVec.ofNat 32 err.code ||| (BitVec.ofNat 32 rel.toNat <<< 4) ||| (BitVec.ofNat 32 (pathCode path) <<< 5) |||
    (BitVec.ofNat 32 crcLen <<< 8) ||| (BitVec.ofNat 32 opc <<< 12)

/-- RESP0.err of a response word: bits 3:0 (R28). -/
def errField (r0 : Word) : Nat := slice r0 0 4

/-- RESP0.rel: bit 4 (R28). -/
def relField (r0 : Word) : Nat := slice r0 4 1

/-- RESP0.path: bits 7:5 (R28). -/
def pathField (r0 : Word) : Nat := slice r0 5 3

/-- RESP0.crc_len: bits 11:8 (R28). -/
def crcLenField (r0 : Word) : Nat := slice r0 8 4

/-- RESP0.opc: bits 15:12 (R28). -/
def opcField (r0 : Word) : Nat := slice r0 12 4

end Sys2Proof.Machine
end

