-- ==== Sys2Proof/Machine/Ops.lean ====
section
/-! DEFINITION. The named operations over registers and buffer spaces: reading and writing elements and ranges (spec R10,
R33), the response (R283), taking an exception (`raise`, R283, R235), and the acceptance of a command in a lifecycle state
(R237). There is no return from an exception: nothing was saved (R290). -/

namespace Sys2Proof.Machine

/-- The outcome of a command or of a step. -/
abbrev Result := Host.Outcome State Fault Refusal

/-! Buffers. -/

/-- The element at an index, none where it is unspecified (R33). -/
def Buf.read {α : Type} : Buf α → Nat → Option α
  | [], _ => none
  | (j, v) :: b, i => if j = i then some v else Buf.read b i

/-- A sequence laid out from index `i` upward. -/
def Buf.layout {α : Type} : Nat → List α → Buf α
  | _, [] => []
  | i, v :: vs => (i, v) :: Buf.layout (i + 1) vs

/-- MemWrite(space, i, vs): elements i to i + len(vs) - 1 take the values, all others keep theirs (R10). -/
def Buf.write {α : Type} (b : Buf α) (i : Nat) (vs : List α) : Buf α :=
  b.filter (fun e => e.1 < i) ++ Buf.layout i vs ++ b.filter (fun e => i + vs.length ≤ e.1)

/-- The n elements from index i, none where one of them is unspecified (R10, R33). -/
def Buf.readRange {α : Type} (b : Buf α) : Nat → Nat → Option (List α)
  | _, 0 => some []
  | i, n + 1 =>
    match b.read i, Buf.readRange b (i + 1) n with
    | some v, some vs => some (v :: vs)
    | _, _ => none

/-- MemRead(space, i, n): an element that is unspecified makes the command refuse, naming the space (R10, R33). -/
def memRead {α : Type} (space : Space) (b : Buf α) (i n : Nat) : Except Refusal (List α) :=
  match b.readRange i n with
  | some vs => .ok vs
  | none => .error (.unspecifiedElement space)

/-- The canonical form of a buffer: indices strictly rising. An unspecified element is not listed at all, so no entry can
equal what an unlisted index reads as. -/
abbrev Buf.wf {α : Type} (b : Buf α) : Prop := List.Pairwise (fun x y => x.1 < y.1) b

/-- The canonical form of memory. -/
abbrev Memory.wf (m : Memory) : Prop :=
  Buf.wf m.valAck ∧ Buf.wf m.valCsi1 ∧ Buf.wf m.valMisc ∧ Buf.wf m.cod ∧ Buf.wf m.llr ∧
  Buf.wf m.bitSequence ∧ Buf.wf m.c ∧ Buf.wf m.allocated ∧ Buf.wf m.d

/-- Every element of the four scratch spaces becomes unspecified (R238, R239, R240). -/
def dropScratch (s : State) : State :=
  { s with mem := { s.mem with bitSequence := [], c := [], allocated := [], d := [] } }

/-- The Polar context cleared (R239, R240). -/
def clearPolar (s : State) : State :=
  { s with polarValid := false, polarK := 0, polarE := 0, polarN := 0 }

/-- The Polar context written by a Polar-path command that passed validation (R213). -/
def setPolar (code : PolarCode) (s : State) : State :=
  { s with polarValid := true, polarK := code.K, polarE := code.E, polarN := code.N }

/-! The response. -/

/-- Respond, the only writer of the five response registers (R283). The opc field is S.cmd[3:0]. -/
def respond (err : ErrKind) (rel : Bool) (path : Option Path) (crcLen : Nat) (r1 r2 r3 r4 : Word) (s : State) : State :=
  { s with resp := ⟨resp0Word err rel path crcLen (slice s.cmd 0 4), r1, r2, r3, r4⟩ }

/-- Taking an exception: `raise X` is Respond(X, 0, 0, 0, 0, 0, 0, 0) and the end of the command; nothing else changes
(R235, R283). -/
def raise (e : ErrKind) (s : State) : State := respond e false none 0 0 0 0 0 s

/-- The response of a session command that succeeded (R238, R239, R240). -/
def respondOk (s : State) : State := respond .ok true none 0 0 0 0 0 s

/-! Acceptance. -/

/-- The rows of the acceptance table (R237). -/
inductive CmdClass where
  | init | free | setCarrier | codec | query
deriving DecidableEq, Repr

/-- Accept(life, cmd) (R237). -/
def accept : Life → CmdClass → Bool
  | .uninit, .init => true
  | .uninit, .free => false
  | .uninit, .setCarrier => false
  | .uninit, .codec => false
  | .uninit, .query => true
  | .noCarrier, .init => false
  | .noCarrier, .free => true
  | .noCarrier, .setCarrier => true
  | .noCarrier, .codec => false
  | .noCarrier, .query => true
  | .ready, .init => false
  | .ready, .free => true
  | .ready, .setCarrier => true
  | .ready, .codec => true
  | .ready, .query => true

/-- The second branch of Issue: a command not accepted in the current lifecycle state raises Sequence, an accepted one
runs (R235, R282). -/
def whenAccepted (k : CmdClass) (s : State) (run : Result) : Result :=
  if accept s.life k then run else .next (raise .sequence s)

end Sys2Proof.Machine
end

