-- ==== Sys2Proof/Machine/SmallBlock.lean ====
section
/-! DEFINITION. The small-block codec, the threshold engine and the LLR decision unit (spec R165 to R193): payloads of 1 to
11 bits. Every quantity is a mathematical integer; nothing wraps, saturates or rounds (R190). -/

namespace Sys2Proof.Machine

/-- The antipodal value of a coded bit: pm(b) = 2b - 1 (R174). -/
def pm (b : Bool) : Int := if b then 1 else -1

/-- Noiseless(e, M) (R175). -/
def noiseless (e : List Bool) (M : Int) : List Int := e.map (fun b => M * pm b)

/-! Encoders. -/

/-- Enc1([a0], E) (R167). -/
def enc1 (c : Config) (a0 : Bool) (E : Nat) : List Bool := (List.range E).map (c.seq1 a0)

/-- d[i] of the 2-bit code (R169). -/
def simplexBit (c : Config) (a0 a1 : Bool) (i : Nat) : Bool := (c.g2 i 0 && a0) ^^ (c.g2 i 1 && a1)

/-- Enc2([a0, a1], E) (R169). -/
def enc2 (c : Config) (a0 a1 : Bool) (E : Nat) : List Bool :=
  (List.range E).map (fun k => simplexBit c a0 a1 (k % 3))

/-- The exclusive-or of the payload bits from column n on, each times its entry of row i of RM_BASIS. -/
def rmBitFrom (c : Config) (i : Nat) : Nat → List Bool → Bool
  | _, [] => false
  | n, b :: bs => (b && c.rmBasis i n) ^^ rmBitFrom c i (n + 1) bs

/-- d[i] of the RM code (R171). -/
def rmBit (c : Config) (a : List Bool) (i : Nat) : Bool := rmBitFrom c i 0 a

/-- EncRM(a, E): the 32 bits d, indexed modulo 32 (R171). -/
def encRM (c : Config) (a : List Bool) (E : Nat) : List Bool :=
  let d := (List.range 32).map (rmBit c a)
  (List.range E).map (fun k => d.getD (k % 32) false)

/-- SmallEncode(a, E), by the payload's length (R172). -/
def smallEncode (c : Config) (a : List Bool) (E : Nat) : List Bool :=
  match a with
  | [a0] => enc1 c a0 E
  | [a0, a1] => enc2 c a0 a1 E
  | a => encRM c a E

/-! The decision unit. -/

/-- Cand(A, g): payload bit n is bit n of g (R173). -/
def cand (A g : Nat) : List Bool := (List.range A).map (fun n => g.testBit n)

/-- The sum of pm(e[k]) times llr[k] (R177, R179). -/
def correlate : List Bool → List Int → Int
  | b :: e, v :: llr => pm b * v + correlate e llr
  | [], _ => 0
  | _ :: _, [] => 0

/-- den, the magnitude sum (R181). -/
def magnitudeSum (llr : List Int) : Nat := (llr.map Int.natAbs).sum

/-- T1, the 1-bit statistic (R177). -/
def oneBitStat (c : Config) (llr : List Int) (E : Nat) : Int := correlate (enc1 c true E) llr

/-- corr(g) (R179). -/
def corr (c : Config) (A : Nat) (llr : List Int) (E g : Nat) : Int := correlate (smallEncode c (cand A g) E) llr

/-- The upward scan of f over 0 to n: the incumbent is replaced only on a strictly greater value (R180). -/
def scanMax (f : Nat → Int) : Nat → Nat × Int
  | 0 => (0, f 0)
  | n + 1 =>
    let p := scanMax f n
    let v := f (n + 1)
    if p.2 < v then (n + 1, v) else p

/-- What a small-block decode returns (R178, R184). -/
structure SmallResult where
  aHat : List Bool
  rel : Bool
  err : ErrKind
  num : Int
  den : Nat
deriving DecidableEq, Repr

/-- Dec1: the 1-bit decision, strict, never an error (R178). -/
def dec1 (c : Config) (llr : List Int) (E : Nat) (thr1 : Int) : SmallResult :=
  let T1 := oneBitStat c llr E
  let above := if c.oneBitAvg then decide (thr1 * E < T1) else decide (thr1 < T1)
  { aHat := [above], rel := true, err := .ok, num := T1, den := magnitudeSum llr }

/-- The acceptance test num · 2^15 > thrb · den, strict (R183). -/
def accepts (num : Int) (den : Nat) (thrb : Int) : Bool := decide (thrb * den < num * 32768)

/-- SmallDecode(A, llr, E, thr1, thrb) (R184). -/
def smallDecode (c : Config) (A : Nat) (llr : List Int) (E : Nat) (thr1 thrb : Int) : SmallResult :=
  if A = 1 then dec1 c llr E thr1
  else
    let best := scanMax (corr c A llr E) (2 ^ A - 1)
    let den := magnitudeSum llr
    let ok := accepts best.2 den thrb
    { aHat := cand A best.1, rel := ok, err := if ok then .ok else .lowConfidence, num := best.2, den := den }

end Sys2Proof.Machine
end

