-- ==== Sys2Proof/Machine/Engine.lean ====
section
/-! DEFINITION. The Polar engine of the machine (spec R211, log 9). The spec gives none: it is any engine with the
properties P-POL1 to P-POL4. The uninterpreted constants of Config say which, and where they would break a property every
instance must have, a plain engine that has them all takes their place. So the machine's engine ranges over every lawful
engine, is always one of them, and nothing else can be proved of it. -/

namespace Sys2Proof.Machine

/-- The uninterpreted constants as an engine: sequences of exactly the lengths R211 gives, soft values in the signed
SOFT_W-bit range, N a power of two and at least K (P-POL1). -/
def freePolar (softW : Nat) : PolarEngine :=
  { construct := fun K E =>
      match Config.freePolarLogN K E with
      | none => none
      | some n => if K ≤ 2 ^ n then some ⟨K, E, 2 ^ n⟩ else none
    allocate := fun code bits => (List.range code.N).map (Config.freePolarAllocate code bits)
    encode := fun code bits => (List.range code.N).map (Config.freePolarEncode code bits)
    rateMatch := fun code bits => (List.range code.E).map (Config.freePolarRateMatch code bits)
    derate := fun code llr =>
      (List.range code.N).map (fun k => ((Config.freePolarDerate code llr k).setWidth softW).toInt)
    decode := fun code soft => (List.range code.K).map (Config.freePolarDecode code soft) }

/-- A plain engine with every property of R211: it pads with zeros, passes the bits through and reads signs. -/
def plainPolar : PolarEngine :=
  { construct := fun K E => if K ≤ E then some ⟨K, E, if K ≤ 32 then 32 else 2 ^ K⟩ else none
    allocate := fun code bits => (List.range code.N).map (fun k => bits.getD k false)
    encode := fun code bits => (List.range code.N).map (fun k => bits.getD k false)
    rateMatch := fun code bits => (List.range code.E).map (fun k => bits.getD k false)
    derate := fun code llr => (List.range code.N).map (fun k => llr.getD k 0)
    decode := fun code soft => (List.range code.K).map (fun k => decide (0 < soft.getD k 0)) }

/-- Every bit sequence of length n. -/
def bitStrings : Nat → List (List Bool)
  | 0 => [[]]
  | n + 1 => (bitStrings n).flatMap (fun a => [false :: a, true :: a])

/-- What the engine decodes from the noiseless LLRs, of magnitude M, of the codeword of a bit sequence (P-POL2). -/
def noiselessDecode (e : PolarEngine) (code : PolarCode) (M : Int) (bits : List Bool) : List Bool :=
  e.decode code (e.derate code (noiseless (e.rateMatch code (e.encode code (e.allocate code bits))) M))

/-- The engine has P-POL2 at a code: every bit sequence comes back at every magnitude of an LLR_W-bit soft value. -/
def roundTrips (e : PolarEngine) (llrW : Nat) (code : PolarCode) : Bool :=
  (bitStrings code.K).all (fun bits =>
    (List.range (2 ^ (llrW - 1) - 1)).all (fun m => noiselessDecode e code ((m : Int) + 1) bits == bits))

/-- The engine that serves a code: the uninterpreted one where it has P-POL2, else the plain one. -/
def engineFor (llrW softW : Nat) (code : PolarCode) : PolarEngine :=
  if roundTrips (freePolar softW) llrW code then freePolar softW else plainPolar

/-- The Polar engine of the machine. Construct answers what the uninterpreted constant does, but none where E < K (no
engine with P-POL2 has a code there: 2^K payloads, 2^E codewords) and a code at (31, 100) in any case (P-POL4). -/
def polarDefault (llrW softW : Nat) : PolarEngine :=
  { construct := fun K E =>
      if E < K then none
      else match (freePolar softW).construct K E with
        | some code => some code
        | none => if K = 31 ∧ E = 100 then plainPolar.construct K E else none
    allocate := fun code => (engineFor llrW softW code).allocate code
    encode := fun code => (engineFor llrW softW code).encode code
    rateMatch := fun code => (engineFor llrW softW code).rateMatch code
    derate := fun code => (engineFor llrW softW code).derate code
    decode := fun code => (engineFor llrW softW code).decode code }

end Sys2Proof.Machine
end

