-- ==== Sys2Proof/Machine/Budget.lean ====
section
/-! DEFINITION. The bit-budget calculator (spec R120): pure functions of their arguments and the configuration record. -/

namespace Sys2Proof.Machine

/-- TotalUciBits(cfg) (R121). -/
def totalUciBits (cfg : UciCfg) : Nat := cfg.oAck + cfg.oCsi1 + (if cfg.sr then 1 else 0)

/-- CrcLength(A) (R125). -/
def crcLength (A : Nat) : Nat := if A ≤ 11 then 0 else if A ≤ 19 then 6 else 11

/-- PucchOutputLength(res) (R122). -/
def pucchOutputLength (c : Config) (res : PucchRes) : Except ErrKind Nat :=
  match c.pucchE res with
  | none => .error .invalidResource
  | some E => .ok E

/-- PuschLegal(pcfg) (R126). -/
def puschLegal (p : PuschCfg) : Bool :=
  1 ≤ p.mSum && p.mL0Sum ≤ p.mSum && 1 ≤ p.betaAckX8 && 1 ≤ p.betaCsi1X8 && 1 ≤ p.alphaX20 && p.alphaX20 ≤ 20 &&
    [1, 2, 4, 6, 8].contains p.qm && 1 ≤ p.nLayers && p.nLayers ≤ 4 && (0 < p.kSum || 1 ≤ p.rX1024)

/-- The gate both PUSCH length functions end in: E must be positive and within the allocation (R126). -/
def puschGate (c : Config) (p : PuschCfg) (E : Int) : Except ErrKind Nat :=
  if puschLegal p = false then .error .invalidConfig
  else if E ≤ 0 ∨ c.puschAlloc p < E then .error .invalidConfig
  else .ok E.toNat

/-- PuschAckOutputLength(pcfg, O) (R126). -/
def puschAckOutputLength (c : Config) (p : PuschCfg) (O : Nat) : Except ErrKind Nat :=
  puschGate c p (c.puschAckE p O)

/-- PuschCsi1OutputLength(pcfg, cfg) (R126). -/
def puschCsi1OutputLength (c : Config) (p : PuschCfg) (cfg : UciCfg) : Except ErrKind Nat :=
  puschGate c p (c.puschCsi1E p cfg.oCsi1 cfg.oAck)

end Sys2Proof.Machine
end

