-- ==== Sys2Proof/Machine/Crc.lean ====
section
/-! DEFINITION. The CRC-polynomial selector and how it uses the CRC engine (spec R150, R151, R154), and the reference
instance of the engine (R155). -/

namespace Sys2Proof.Machine

/-- CrcSelect(S, A) (R151). -/
def crcSelect (s : State) (A : Nat) : Option (Word × Nat) :=
  if A ≤ 11 then none else if A ≤ 19 then some (s.crc6, 6) else some (s.crc11, 11)

/-- CrcAttach(S, a) (R154). Never reached with fewer than 12 bits, where there is nothing to attach. -/
def crcAttach (c : Config) (s : State) (a : List Bool) : List Bool :=
  match crcSelect s a.length with
  | none => a
  | some (p, L) => c.crc.attach p L a

/-- CrcCheckSplit(S, A, bits): the first A bits and whether the check passes (R154). Never reached with A below 12. -/
def crcCheckSplit (c : Config) (s : State) (A : Nat) (bits : List Bool) : List Bool × Bool :=
  match crcSelect s A with
  | none => (bits.take A, false)
  | some (p, L) => (bits.take A, c.crc.check p L bits)

/-! The reference instance (R155). -/

/-- The generator's coefficients below the leading one, g_coef(L - 1) first. -/
def crcTaps (g : Word) (L : Nat) : List Bool := (List.range L).map (fun j => g.toNat.testBit (L - 1 - j))

/-- Exclusive-or of a short sequence onto the front of a longer one. -/
def xorPrefix : List Bool → List Bool → List Bool
  | r, [] => r
  | [], _ :: _ => []
  | b :: r, t :: ts => (b ^^ t) :: xorPrefix r ts

/-- n steps of the long division: a leading one is cancelled by the generator, a leading zero dropped; what is left is the
remainder r[n .. n+L) (R155). -/
def crcDivide (taps : List Bool) : Nat → List Bool → List Bool
  | 0, r => r
  | _ + 1, [] => []
  | n + 1, b :: r => crcDivide taps n (if b then xorPrefix r taps else r)

/-- RefAttach((g, L), a) (R155). -/
def refAttach (g : Word) (L : Nat) (a : List Bool) : List Bool :=
  a ++ crcDivide (crcTaps g L) a.length (a ++ List.replicate L false)

/-- RefCheck((g, L), bits) (R155). -/
def refCheck (g : Word) (L : Nat) (bits : List Bool) : Bool :=
  refAttach g L (bits.take (bits.length - L)) == bits

/-- The reference CRC engine (R155; log 8, PRESUMED by the spec). -/
def refCrc : CrcEngine := { attach := refAttach, check := refCheck }

end Sys2Proof.Machine
end

