-- ==== Sys2Proof/Machine/Polar.lean ====
section
/-! DEFINITION. The Polar-rate-matcher adapter (spec R210 to R222): planning, the encode pipeline, the decode pipeline. The
engine it drives is a field of the configuration record. -/

namespace Sys2Proof.Machine

/-- PolarPlan(A, E): the code for (K, E) with K = A + CrcLength(A), or InvalidConfig (R212, R136). -/
def polarPlan (c : Config) (A E : Nat) : Except ErrKind PolarCode :=
  match c.polar.construct (A + crcLength A) E with
  | none => .error .invalidConfig
  | some code => if c.nMax < code.N then .error .invalidConfig else .ok code

/-- A coded bit as the integer `d` holds for it (R214). -/
def bitInt (b : Bool) : Int := if b then 1 else 0

/-- PolarEncode: the state with the scratch buffers `c`, `allocated`, `d` written, and the E coded bits (R214). -/
def polarEncode (c : Config) (code : PolarCode) (a : List Bool) (s : State) : State × List Bool :=
  let cw := crcAttach c s a
  let u := c.polar.allocate code cw
  let x := c.polar.encode code u
  ({ s with mem := { s.mem with
      c := s.mem.c.write 0 cw, allocated := s.mem.allocated.write 0 u, d := s.mem.d.write 0 (x.map bitInt) } },
    c.polar.rateMatch code x)

/-- PolarDecode: the state with `d` and `c` written, the A payload bits, and whether the CRC check passed (R216). -/
def polarDecode (c : Config) (code : PolarCode) (A : Nat) (llr : List Int) (s : State) : State × List Bool × Bool :=
  let y := c.polar.derate code llr
  let cHat := c.polar.decode code y
  ({ s with mem := { s.mem with d := s.mem.d.write 0 y, c := s.mem.c.write 0 cHat } }, crcCheckSplit c s A cHat)

end Sys2Proof.Machine
end

