-- ==== Sys2Proof/Machine/Operands.lean ====
section
/-! DEFINITION. The operands of the six codec commands: the transmission context with its resource, its coded length and
payload length (spec R130, R122, R126), the choice of path (R243), and the payload in the VAL spaces (R242). -/

namespace Sys2Proof.Machine

/-- A transmission context with the resource words its commands carry (R130, R245). -/
inductive Chan where
  | pucch (res : PucchRes)
  | puschAck (p : PuschCfg)
  | puschCsi1 (p : PuschCfg)
deriving DecidableEq, Repr

/-- The coded length E, step 1 of validation (R245). -/
def codedLength (c : Config) (cfg : UciCfg) : Chan → Except ErrKind Nat
  | .pucch res => pucchOutputLength c res
  | .puschAck p => puschAckOutputLength c p cfg.oAck
  | .puschCsi1 p => puschCsi1OutputLength c p cfg

/-- A_ctx(cfg), the payload length of the context (R130). -/
def payloadLength (cfg : UciCfg) : Chan → Nat
  | .pucch _ => totalUciBits cfg
  | .puschAck _ => cfg.oAck
  | .puschCsi1 _ => cfg.oCsi1

/-- Path(A), not defined at A = 0 (R243, log 19). -/
def codePath (A : Nat) : Option Path :=
  if A = 0 then none else if A = 1 then some .oneBit else if A = 2 then some .twoBit
  else if A ≤ 11 then some .rm else some .polar

/-- The SR bit's read: VAL_MISC[0] when cfg.sr = 1, else nothing (R242). -/
def readSr (cfg : UciCfg) (m : Memory) : Except Refusal (List Bool) :=
  if cfg.sr then memRead .valMisc m.valMisc 0 1 else .ok []

/-- Pack(ctx, cfg): the payload, read in the order its fields are concatenated; an unspecified element refuses (R242, log 21). -/
def pack (c : Config) (cfg : UciCfg) (ch : Chan) (m : Memory) : Except Refusal (List Bool) :=
  match ch with
  | .puschAck _ => memRead .valAck m.valAck 0 cfg.oAck
  | .puschCsi1 _ => memRead .valCsi1 m.valCsi1 0 cfg.oCsi1
  | .pucch _ =>
    match memRead .valAck m.valAck 0 cfg.oAck, memRead .valCsi1 m.valCsi1 0 cfg.oCsi1, readSr cfg m with
    | .ok ack, .ok csi1, .ok sr =>
      .ok (match c.packOrder with
        | .ackCsi1Sr => ack ++ csi1 ++ sr
        | .ackSrCsi1 => ack ++ sr ++ csi1)
    | .error r, _, _ => .error r
    | _, .error r, _ => .error r
    | _, _, .error r => .error r

/-- The three fields of a PUCCH payload, split at Pack's boundaries: ack, csi1, sr (R242). -/
def splitPucch (c : Config) (cfg : UciCfg) (a : List Bool) : List Bool × List Bool × List Bool :=
  let nsr := if cfg.sr then 1 else 0
  let rest := a.drop cfg.oAck
  match c.packOrder with
  | .ackCsi1Sr => (a.take cfg.oAck, rest.take cfg.oCsi1, (rest.drop cfg.oCsi1).take nsr)
  | .ackSrCsi1 => (a.take cfg.oAck, (rest.drop nsr).take cfg.oCsi1, rest.take nsr)

/-- Unpack(ctx, cfg, a_hat): the inverse of Pack, by MemWrite; elements it does not name keep their values (R242). -/
def unpack (c : Config) (cfg : UciCfg) (ch : Chan) (a : List Bool) (m : Memory) : Memory :=
  match ch with
  | .puschAck _ => { m with valAck := m.valAck.write 0 a }
  | .puschCsi1 _ => { m with valCsi1 := m.valCsi1.write 0 a }
  | .pucch _ =>
    let f := splitPucch c cfg a
    { m with
      valAck := m.valAck.write 0 f.1, valCsi1 := m.valCsi1.write 0 f.2.1, valMisc := m.valMisc.write 0 f.2.2 }

end Sys2Proof.Machine
end

