-- ==== Sys2Proof/Machine/Tables.lean ====
section
/-! DEFINITION. The spec's default value of every field of the configuration record (R7), and the record the machine runs
with. The spec supplies the code tables and the length formulas from general knowledge and says that a claim depending on
one must name it (R17, log 6 and log 7). -/

namespace Sys2Proof.Machine

/-- ceil(p / q) for naturals with q > 0 (R9). -/
def ceilDiv (p q : Nat) : Nat := (p + q - 1) / q

/-- Default SEQ1: plain repetition (R166). -/
def seq1Default (b : Bool) (_k : Nat) : Bool := b

/-- Default G2: rows [1,0], [0,1], [1,1] (R168). -/
def g2Default (i j : Nat) : Bool :=
  match i, j with
  | 0, 0 => true
  | 0, _ => false
  | 1, 0 => false
  | 1, _ => true
  | _, _ => true

/-- Rows 0 to 15 of the default RM_BASIS, columns 0 to 10 (R170). -/
def rmRowsLow : List (List Nat) :=
  [[1,1,0,0,0,0,0,0,0,0,1],
   [1,1,1,0,0,0,0,0,0,1,1],
   [1,0,0,1,0,0,1,0,1,1,1],
   [1,0,1,1,0,0,0,0,1,0,1],
   [1,1,1,1,0,0,0,1,0,0,1],
   [1,1,0,0,1,0,1,1,1,0,1],
   [1,0,1,0,1,0,1,0,1,1,1],
   [1,0,0,1,1,0,0,1,1,0,1],
   [1,1,0,1,1,0,0,1,0,1,1],
   [1,0,1,1,1,0,1,0,0,1,1],
   [1,0,1,0,0,1,1,1,0,1,1],
   [1,1,1,0,0,1,1,0,1,0,1],
   [1,0,0,1,0,1,0,1,1,1,1],
   [1,1,0,1,0,1,0,1,0,1,1],
   [1,0,0,0,1,1,0,1,0,0,1],
   [1,1,0,0,1,1,1,1,0,1,1]]

/-- Rows 16 to 31 of the default RM_BASIS (R170). -/
def rmRowsHigh : List (List Nat) :=
  [[1,1,1,0,1,1,1,0,0,1,0],
   [1,0,0,1,1,1,0,0,1,0,0],
   [1,1,0,1,1,1,1,1,0,0,0],
   [1,0,0,0,0,1,1,0,0,0,0],
   [1,0,1,0,0,0,1,0,0,0,1],
   [1,1,0,1,0,0,0,0,0,1,1],
   [1,0,0,0,1,0,0,1,1,0,1],
   [1,1,1,0,1,0,0,0,1,1,1],
   [1,1,1,1,1,0,1,1,1,1,0],
   [1,1,0,0,0,1,1,1,0,0,1],
   [1,0,1,1,0,1,0,0,1,1,0],
   [1,1,1,1,0,1,0,1,1,1,0],
   [1,0,1,0,1,1,1,0,1,0,0],
   [1,0,1,1,1,1,1,1,1,0,0],
   [1,1,1,1,1,1,1,1,1,1,1],
   [1,0,0,0,0,0,0,0,0,0,0]]

/-- Default RM_BASIS[i][n] (R170). -/
def rmBasisDefault (i n : Nat) : Bool := ((rmRowsLow ++ rmRowsHigh).getD i []).getD n 0 == 1

/-- Default PUCCH_E (R124). -/
def pucchEDefault (res : PucchRes) : Option Nat :=
  match res.fmt with
  | 2 =>
    if (res.nsym = 1 ∨ res.nsym = 2) ∧ 1 ≤ res.nprb ∧ res.nprb ≤ 16 ∧ res.qm = 2 then
      some (8 * res.qm * res.nsym * res.nprb) else none
  | 3 =>
    if 4 ≤ res.nsym ∧ res.nsym ≤ 14 ∧ 1 ≤ res.nprb ∧ res.nprb ≤ 16 ∧ (res.qm = 1 ∨ res.qm = 2) then
      some (12 * res.qm * res.nsym * res.nprb) else none
  | 4 =>
    if 4 ≤ res.nsym ∧ res.nsym ≤ 14 ∧ res.nprb = 1 ∧ (res.qm = 1 ∨ res.qm = 2) ∧ (res.sf = 2 ∨ res.sf = 4) then
      some (12 * res.qm * res.nsym / res.sf) else none
  | _ => none

/-- The beta-scaled term q1 of R128 and R129 for a payload of `bits` bits, its CRC included. -/
def betaTerm (p : PuschCfg) (bits betaX8 : Nat) : Nat :=
  if 0 < p.kSum then ceilDiv (bits * betaX8 * p.mSum) (8 * p.kSum)
  else ceilDiv (bits * betaX8 * 1024) (8 * p.rX1024 * p.qm)

/-- QprimeAck(pcfg, O) (R128). -/
def qprimeAck (p : PuschCfg) (O : Nat) : Nat :=
  min (betaTerm p (O + crcLength O) p.betaAckX8) (ceilDiv (p.alphaX20 * p.mL0Sum) 20)

/-- Default PUSCH_ACK_E (R128). -/
def puschAckEDefault (p : PuschCfg) (O : Nat) : Int := ((p.nLayers * p.qm * qprimeAck p O : Nat) : Int)

/-- Default PUSCH_ALLOC (R128). -/
def puschAllocDefault (p : PuschCfg) : Int := ((p.nLayers * p.qm * p.mSum : Nat) : Int)

/-- Default PUSCH_CSI1_E, possibly not positive (R129). -/
def puschCsi1EDefault (p : PuschCfg) (oCsi1 oAck : Nat) : Int :=
  let Qa : Int := qprimeAck p (max 2 oAck)
  let capCsi : Int := (ceilDiv (p.alphaX20 * p.mSum) 20 : Nat) - Qa
  let q1 : Int := betaTerm p (oCsi1 + crcLength oCsi1) p.betaCsi1X8
  let Q : Int := if 0 < p.kSum ∨ p.csi2 = true then min q1 capCsi else (p.mSum : Int) - Qa
  ((p.nLayers * p.qm : Nat) : Int) * Q

/-- Default A_MAX, E_MAX, N_MAX (R7). -/
def aMaxDefault : Nat := 1706
def eMaxDefault : Nat := 8192
def nMaxDefault : Nat := 8192

/-- Default CARRIER_CAP: every legal carrier has the whole capacity (R241). -/
def carrierCapDefault (mu nprb : Nat) : Option (Nat × Nat) :=
  if 4 < mu ∨ nprb = 0 ∨ 275 < nprb then none else some (aMaxDefault, eMaxDefault)

/-- The configuration record of the machine: the spec's defaults, with the reference CRC engine (R7, R155). -/
def config : Config :=
  { aMax := aMaxDefault, eMax := eMaxDefault, nMax := nMaxDefault, llrW := 8, softW := 16
    oneBitAvg := false, packOrder := .ackCsi1Sr
    seq1 := seq1Default, g2 := g2Default, rmBasis := rmBasisDefault
    poly6 := 0x61, poly11 := 0xE21, crc := refCrc, polar := polarDefault 8 16
    pucchE := pucchEDefault, puschAckE := puschAckEDefault, puschCsi1E := puschCsi1EDefault
    puschAlloc := puschAllocDefault, carrierCap := carrierCapDefault }

end Sys2Proof.Machine
end

