-- ==== Sys2Proof/Machine/Contracts.lean ====
section
/-! DEFINITION. What the spec requires of a configuration record: the bounds of R7, the contracts of the length table and of
the carrier capacities (R123, R241), the properties of the two engines (R153, R211). -/

namespace Sys2Proof.Machine

/-- P-CRC1 to P-CRC3 (R153); P-CRC4, purity, holds of every function. -/
structure CrcLawful (e : CrcEngine) : Prop where
  /-- P-CRC1, length -/
  attach_length : ∀ p L a, (e.attach p L a).length = a.length + L
  /-- P-CRC2, systematic -/
  attach_prefix : ∀ p L a, (e.attach p L a).take a.length = a
  /-- P-CRC3, consistency -/
  check_attach : ∀ p L a, e.check p L (e.attach p L a) = true

/-- An integer lies in the signed w-bit range. -/
abbrev inSigned (w : Nat) (v : Int) : Prop := -(2 ^ (w - 1) : Int) ≤ v ∧ v < 2 ^ (w - 1)

/-- P-POL1, shape: what Construct reports, and the lengths and range of the other functions' results (R211). -/
structure PolarShaped (e : PolarEngine) (llrW softW : Nat) : Prop where
  construct_shape : ∀ K E code, e.construct K E = some code →
    code.K = K ∧ code.E = E ∧ (∃ n, code.N = 2 ^ n) ∧ K ≤ code.N
  allocate_length : ∀ K E code bits, e.construct K E = some code → bits.length = K →
    (e.allocate code bits).length = code.N
  encode_length : ∀ K E code bits, e.construct K E = some code → bits.length = code.N →
    (e.encode code bits).length = code.N
  rateMatch_length : ∀ K E code bits, e.construct K E = some code → bits.length = code.N →
    (e.rateMatch code bits).length = E
  derate_length : ∀ K E code llr, e.construct K E = some code → llr.length = E → (∀ v ∈ llr, inSigned llrW v) →
    (e.derate code llr).length = code.N
  derate_range : ∀ K E code llr, e.construct K E = some code → llr.length = E → (∀ v ∈ llr, inSigned llrW v) →
    ∀ v ∈ e.derate code llr, inSigned softW v
  decode_length : ∀ K E code soft, e.construct K E = some code → soft.length = code.N →
    (∀ v ∈ soft, inSigned softW v) → (e.decode code soft).length = K

/-- P-POL1, P-POL2 and P-POL4 (R211); P-POL3, purity, holds of every function. -/
structure PolarLawful (e : PolarEngine) (llrW softW : Nat) : Prop where
  shaped : PolarShaped e llrW softW
  /-- P-POL2, noiseless round trip -/
  round_trip : ∀ K E code bits (M : Int), e.construct K E = some code → bits.length = K →
    1 ≤ M → M ≤ 2 ^ (llrW - 1) - 1 →
    e.decode code (e.derate code (noiseless (e.rateMatch code (e.encode code (e.allocate code bits))) M)) = bits
  /-- P-POL4, the source's scenario -/
  serves_31_100 : (e.construct 31 100).isSome

/-- The constraints of the configuration record that do not name an engine: the bounds of R7, the contracts R123, R241,
R152. -/
structure ConfigLegal (c : Config) : Prop where
  aMax_low : 20 ≤ c.aMax
  aMax_high : c.aMax ≤ 4095
  eMax_low : 100 ≤ c.eMax
  eMax_high : c.eMax ≤ 65535
  nMax_pow : ∃ n, c.nMax = 2 ^ n
  nMax_low : 128 ≤ c.nMax
  llrW_low : 2 ≤ c.llrW
  llrW_high : c.llrW ≤ 16
  softW_low : c.llrW ≤ c.softW
  softW_high : c.softW ≤ 32
  poly6_degree : 2 ^ 6 ≤ c.poly6.toNat ∧ c.poly6.toNat < 2 ^ 7
  poly11_degree : 2 ^ 11 ≤ c.poly11.toNat ∧ c.poly11.toNat < 2 ^ 12
  /-- R123 (a) -/
  pucch_no_prb : ∀ res, res.nprb = 0 → c.pucchE res = none
  /-- R123 (b) -/
  pucch_positive : ∀ res E, c.pucchE res = some E → 1 ≤ E
  /-- R123 (d) -/
  pucch_format : ∀ res, res.fmt ≠ 2 → res.fmt ≠ 3 → res.fmt ≠ 4 → c.pucchE res = none
  /-- R241 -/
  carrier_caps : ∀ mu nprb a e, c.carrierCap mu nprb = some (a, e) → 1 ≤ a ∧ a ≤ c.aMax ∧ 1 ≤ e ∧ e ≤ c.eMax

/-- A configuration record the spec admits, with engines that have every property it names. -/
structure ConfigLawful (c : Config) : Prop where
  legal : ConfigLegal c
  crc : CrcLawful c.crc
  polar : PolarLawful c.polar c.llrW c.softW

end Sys2Proof.Machine
end

