-- ==== Sys2Proof/Machine/Codec.lean ====
section
/-! DEFINITION. The six codec commands: validation, the common encode and decode procedures (spec R244, R245), and one
meaning per command (R246 to R251), for an arbitrary configuration record and for the machine's own. -/

namespace Sys2Proof.Machine

/-- The coding a validated command uses: its path, and on the Polar path the code of its plan (R243, R245). -/
inductive Coding where
  | small (p : Path)
  | polar (code : PolarCode)
deriving DecidableEq, Repr

/-- The path of a coding (R243). -/
def codingPath : Coding → Path
  | .small p => p
  | .polar _ => .polar

/-- What validation returns: A, E, L = CrcLength(A), and the coding (R245). -/
structure Plan where
  A : Nat
  E : Nat
  L : Nat
  coding : Coding
deriving DecidableEq, Repr

/-- Step 4 of validation: the path, and on the Polar path the plan (R245). A = 0, where no path is defined, is
InvalidConfig, as step 3 has it. -/
def chooseCoding (c : Config) (A E : Nat) : Except ErrKind Coding :=
  match codePath A with
  | none => .error .invalidConfig
  | some .polar =>
    match polarPlan c A E with
    | .error e => .error e
    | .ok code => .ok (.polar code)
  | some p => .ok (.small p)

/-- Validate(S, ctx, cfg, x), the checks in their order (R245). -/
def validate (c : Config) (s : State) (cfg : UciCfg) (ch : Chan) : Except ErrKind Plan :=
  match codedLength c cfg ch with
  | .error e => .error e
  | .ok E =>
    if s.capE < E then .error .invalidConfig
    else
      let A := payloadLength cfg ch
      if A = 0 then .error .invalidConfig
      else if s.capA < A then .error .invalidConfig
      else
        match chooseCoding c A E with
        | .error e => .error e
        | .ok coding => .ok { A := A, E := E, L := crcLength A, coding := coding }

/-! Encode. -/

/-- The coded bits of a packed payload, with the Polar path's writes of its context and scratch buffers (R244). -/
def encodeBits (c : Config) (plan : Plan) (a : List Bool) (s : State) : State × List Bool :=
  match plan.coding with
  | .small _ => (s, smallEncode c a plan.E)
  | .polar code => polarEncode c code a (setPolar code s)

/-- The work of an encode after validation and packing: bit_sequence, the coding, COD, the response (R244). -/
def finishEncode (c : Config) (plan : Plan) (a : List Bool) (s : State) : State :=
  let s1 := { s with mem := { s.mem with bitSequence := s.mem.bitSequence.write 0 a } }
  let r := encodeBits c plan a s1
  let s2 := { r.1 with mem := { r.1.mem with cod := r.1.mem.cod.write 0 r.2 } }
  respond .ok true (some (codingPath plan.coding)) plan.L (BitVec.ofNat 32 plan.E) (BitVec.ofNat 32 plan.A) 0 0 s2

/-- CodecEncode(S, ctx, cfg, x), once the command is accepted (R244). -/
def encodeRun (c : Config) (cfg : UciCfg) (ch : Chan) (s : State) : Result :=
  match validate c s cfg ch with
  | .error e => .next (raise e s)
  | .ok plan =>
    match pack c cfg ch s.mem with
    | .error r => .refused r
    | .ok a => .next (finishEncode c plan a s)

/-- An encode command of a context: accepted in READY only (R237, R244). -/
def codecEncode (c : Config) (cfg : UciCfg) (ch : Chan) (s : State) : Result :=
  whenAccepted .codec s (encodeRun c cfg ch s)

/-! Decode. -/

/-- The decision on the LLRs, with the Polar path's writes of its context and scratch buffers (R244). -/
def decodeBits (c : Config) (plan : Plan) (llr : List Int) (s : State) : State × SmallResult :=
  match plan.coding with
  | .small _ => (s, smallDecode c plan.A llr plan.E s.thr1.toInt s.thrb.toInt)
  | .polar code =>
    let r := polarDecode c code plan.A llr (setPolar code s)
    (r.1, { aHat := r.2.1, rel := r.2.2, err := if r.2.2 then .ok else .crcMismatch, num := 0, den := 0 })

/-- The work of a decode after validation and the read of the LLRs: the decision, bit_sequence, the payload elements of
the context, the valid flag, the response (R244). -/
def finishDecode (c : Config) (cfg : UciCfg) (ch : Chan) (plan : Plan) (llr : List Int) (s : State) : State :=
  let r := decodeBits c plan llr s
  let m1 := { r.1.mem with bitSequence := r.1.mem.bitSequence.write 0 r.2.aHat }
  let m2 := unpack c cfg ch r.2.aHat m1
  let m3 := { m2 with valMisc := m2.valMisc.write 1 [r.2.rel] }
  respond r.2.err r.2.rel (some (codingPath plan.coding)) plan.L (BitVec.ofNat 32 plan.E) (BitVec.ofNat 32 plan.A)
    (BitVec.ofInt 32 r.2.num) (BitVec.ofNat 32 r.2.den) { r.1 with mem := m3 }

/-- CodecDecode(S, ctx, cfg, x), once the command is accepted (R244). -/
def decodeRun (c : Config) (cfg : UciCfg) (ch : Chan) (s : State) : Result :=
  match validate c s cfg ch with
  | .error e => .next (raise e s)
  | .ok plan =>
    match memRead .llr s.mem.llr 0 plan.E with
    | .error r => .refused r
    | .ok llr => .next (finishDecode c cfg ch plan llr s)

/-- A decode command of a context: accepted in READY only (R237, R244). -/
def codecDecode (c : Config) (cfg : UciCfg) (ch : Chan) (s : State) : Result :=
  whenAccepted .codec s (decodeRun c cfg ch s)

/-! The commands, for a configuration record. -/

/-- ENC_PUCCH (R246). -/
def encPucchIn (c : Config) (cfg : UciCfg) (res : PucchRes) (s : State) : Result := codecEncode c cfg (.pucch res) s

/-- DEC_PUCCH (R247). -/
def decPucchIn (c : Config) (cfg : UciCfg) (res : PucchRes) (s : State) : Result := codecDecode c cfg (.pucch res) s

/-- ENC_PUSCH_ACK (R248). -/
def encPuschAckIn (c : Config) (cfg : UciCfg) (p : PuschCfg) (s : State) : Result := codecEncode c cfg (.puschAck p) s

/-- DEC_PUSCH_ACK (R249). -/
def decPuschAckIn (c : Config) (cfg : UciCfg) (p : PuschCfg) (s : State) : Result := codecDecode c cfg (.puschAck p) s

/-- ENC_PUSCH_CSI1 (R250). -/
def encPuschCsi1In (c : Config) (cfg : UciCfg) (p : PuschCfg) (s : State) : Result := codecEncode c cfg (.puschCsi1 p) s

/-- DEC_PUSCH_CSI1 (R251). -/
def decPuschCsi1In (c : Config) (cfg : UciCfg) (p : PuschCfg) (s : State) : Result := codecDecode c cfg (.puschCsi1 p) s

/-! The machine's own. -/

/-- ENC_PUCCH (R246). -/
def execEncPucch (cfg : UciCfg) (res : PucchRes) (s : State) : Result := encPucchIn config cfg res s

/-- DEC_PUCCH (R247). -/
def execDecPucch (cfg : UciCfg) (res : PucchRes) (s : State) : Result := decPucchIn config cfg res s

/-- ENC_PUSCH_ACK (R248). -/
def execEncPuschAck (cfg : UciCfg) (p : PuschCfg) (s : State) : Result := encPuschAckIn config cfg p s

/-- DEC_PUSCH_ACK (R249). -/
def execDecPuschAck (cfg : UciCfg) (p : PuschCfg) (s : State) : Result := decPuschAckIn config cfg p s

/-- ENC_PUSCH_CSI1 (R250). -/
def execEncPuschCsi1 (cfg : UciCfg) (p : PuschCfg) (s : State) : Result := encPuschCsi1In config cfg p s

/-- DEC_PUSCH_CSI1 (R251). -/
def execDecPuschCsi1 (cfg : UciCfg) (p : PuschCfg) (s : State) : Result := decPuschCsi1In config cfg p s

end Sys2Proof.Machine
end

