-- ==== Sys2Proof/Machine/Query.lean ====
section
/-! DEFINITION. The five query commands (spec R131 to R135, R137): accepted in every lifecycle state, changing nothing but
the response registers. -/

namespace Sys2Proof.Machine

/-- The response of a query that succeeded (R137). DESIGN CHOICE (log 25): at a configuration record whose length table or
formulas give an E of 2^32 or more, of which the spec says nothing (R123, R127 set no upper bound), RESP1 holds the low 32
bits of E. At the default tables no query answers such an E. -/
def respondQuery (crcLen r1 r2 : Nat) (s : State) : State :=
  respond .ok true none crcLen (BitVec.ofNat 32 r1) (BitVec.ofNat 32 r2) 0 0 s

/-- A query whose length function may raise; r2 is the payload length it was given (R133, R134, R135).
An E that 32 bits do not hold: log 25. -/
def respondLength (E : Except ErrKind Nat) (r2 : Nat) (s : State) : State :=
  match E with
  | .error e => raise e s
  | .ok E => respondQuery 0 E r2 s

/-- Q_TOTAL (R131). It reads no configuration field. -/
def qTotalIn (cfg : UciCfg) (s : State) : Result :=
  whenAccepted .query s (.next (respondQuery 0 (totalUciBits cfg) 0 s))

/-- Q_CRCLEN (R132). It reads no configuration field. -/
def qCrcLenIn (a : Nat) (s : State) : Result :=
  whenAccepted .query s (.next (respondQuery (crcLength a) (crcLength a) a s))

/-- Q_PUCCH_E, for a configuration record (R133). -/
def qPucchEIn (c : Config) (res : PucchRes) (s : State) : Result :=
  whenAccepted .query s (.next (respondLength (pucchOutputLength c res) 0 s))

/-- Q_PUSCH_ACK_E, for a configuration record (R134). -/
def qPuschAckEIn (c : Config) (cfg : UciCfg) (p : PuschCfg) (s : State) : Result :=
  whenAccepted .query s (.next (respondLength (puschAckOutputLength c p cfg.oAck) cfg.oAck s))

/-- Q_PUSCH_CSI1_E, for a configuration record (R135). -/
def qPuschCsi1EIn (c : Config) (cfg : UciCfg) (p : PuschCfg) (s : State) : Result :=
  whenAccepted .query s (.next (respondLength (puschCsi1OutputLength c p cfg) cfg.oCsi1 s))

/-- Q_TOTAL (R131). -/
def execQTotal (cfg : UciCfg) (s : State) : Result := qTotalIn cfg s

/-- Q_CRCLEN (R132). -/
def execQCrcLen (a : Nat) (s : State) : Result := qCrcLenIn a s

/-- Q_PUCCH_E (R133). -/
def execQPucchE (res : PucchRes) (s : State) : Result := qPucchEIn config res s

/-- Q_PUSCH_ACK_E (R134). -/
def execQPuschAckE (cfg : UciCfg) (p : PuschCfg) (s : State) : Result := qPuschAckEIn config cfg p s

/-- Q_PUSCH_CSI1_E (R135). -/
def execQPuschCsi1E (cfg : UciCfg) (p : PuschCfg) (s : State) : Result := qPuschCsi1EIn config cfg p s

end Sys2Proof.Machine
end

