-- ==== Sys2Proof/Machine/Session.lean ====
section
/-! DEFINITION. The three session commands INIT, FREE and SETCARRIER (spec R238 to R241): each for an arbitrary
configuration record, and the machine's own. -/

namespace Sys2Proof.Machine

/-- INIT, for a configuration record (R238). -/
def initIn (c : Config) (thr1 thrb : Word) (s : State) : Result :=
  whenAccepted .init s
    (.next (respondOk { dropScratch s with
      thr1 := thr1, thrb := thrb, crc6 := c.poly6, crc11 := c.poly11, life := .noCarrier }))

/-- FREE (R239). It reads no configuration field. -/
def freeIn (s : State) : Result :=
  whenAccepted .free s
    (.next (respondOk { clearPolar (dropScratch s) with
      thr1 := 0, thrb := 0, crc6 := 0, crc11 := 0, carrier := 0, capA := 0, capE := 0, life := .uninit }))

/-- The state SETCARRIER leaves, once accepted: InvalidConfig where the carrier has no capacities, else the new carrier.
The carrier register takes ARG0 as it stands (R240, log 17). -/
def setCarrierRun (c : Config) (mu nprb : Nat) (s : State) : State :=
  match c.carrierCap mu nprb with
  | none => raise .invalidConfig s
  | some (a, e) =>
    respondOk { clearPolar (dropScratch s) with carrier := s.arg.a0, capA := a, capE := e, life := .ready }

/-- SETCARRIER, for a configuration record (R240). -/
def setCarrierIn (c : Config) (mu nprb : Nat) (s : State) : Result :=
  whenAccepted .setCarrier s (.next (setCarrierRun c mu nprb s))

/-- INIT (R238). -/
def execInit (thr1 thrb : Word) (s : State) : Result := initIn config thr1 thrb s

/-- FREE (R239). -/
def execFree (s : State) : Result := freeIn s

/-- SETCARRIER (R240). -/
def execSetCarrier (mu nprb : Nat) (s : State) : Result := setCarrierIn config mu nprb s

end Sys2Proof.Machine
end

