-- ==== Sys2Proof/Machine/Dispatch.lean ====
section
/-! DEFINITION. One arm per command (spec R92): the meaning of each at the machine's configuration record. -/

namespace Sys2Proof.Machine

def exec (i : Instr) (s : State) : Host.Outcome State Fault Refusal :=
  match i with
  | .init thr1 thrb => Sys2Proof.Machine.execInit thr1 thrb s
  | .free => Sys2Proof.Machine.execFree s
  | .setCarrier mu nprb => Sys2Proof.Machine.execSetCarrier mu nprb s
  | .encPucch cfg res => Sys2Proof.Machine.execEncPucch cfg res s
  | .decPucch cfg res => Sys2Proof.Machine.execDecPucch cfg res s
  | .encPuschAck cfg pcfg => Sys2Proof.Machine.execEncPuschAck cfg pcfg s
  | .decPuschAck cfg pcfg => Sys2Proof.Machine.execDecPuschAck cfg pcfg s
  | .encPuschCsi1 cfg pcfg => Sys2Proof.Machine.execEncPuschCsi1 cfg pcfg s
  | .decPuschCsi1 cfg pcfg => Sys2Proof.Machine.execDecPuschCsi1 cfg pcfg s
  | .qTotal cfg => Sys2Proof.Machine.execQTotal cfg s
  | .qCrcLen a => Sys2Proof.Machine.execQCrcLen a s
  | .qPucchE res => Sys2Proof.Machine.execQPucchE res s
  | .qPuschAckE cfg pcfg => Sys2Proof.Machine.execQPuschAckE cfg pcfg s
  | .qPuschCsi1E cfg pcfg => Sys2Proof.Machine.execQPuschCsi1E cfg pcfg s

end Sys2Proof.Machine
end

