-- ==== Sys2Proof/Machine/Generic.lean ====
section
/-! DEFINITION. The commands at an arbitrary configuration record (spec R7: "The model takes the following configuration
record as an argument"). Claims that must not rest on a default value are stated of `execIn c`; `exec` is `execIn config`. -/

namespace Sys2Proof.Machine

/-- The meaning of a command at a configuration record. -/
def execIn (c : Config) (i : Instr) (s : State) : Result :=
  match i with
  | .init thr1 thrb => initIn c thr1 thrb s
  | .free => freeIn s
  | .setCarrier mu nprb => setCarrierIn c mu nprb s
  | .encPucch cfg res => encPucchIn c cfg res s
  | .decPucch cfg res => decPucchIn c cfg res s
  | .encPuschAck cfg p => encPuschAckIn c cfg p s
  | .decPuschAck cfg p => decPuschAckIn c cfg p s
  | .encPuschCsi1 cfg p => encPuschCsi1In c cfg p s
  | .decPuschCsi1 cfg p => decPuschCsi1In c cfg p s
  | .qTotal cfg => qTotalIn cfg s
  | .qCrcLen a => qCrcLenIn a s
  | .qPucchE res => qPucchEIn c res s
  | .qPuschAckE cfg p => qPuschAckEIn c cfg p s
  | .qPuschCsi1E cfg p => qPuschCsi1EIn c cfg p s

/-- The encode command of a context (R246, R248, R250). -/
def encodeInstr (cfg : UciCfg) : Chan → Instr
  | .pucch res => .encPucch cfg res
  | .puschAck p => .encPuschAck cfg p
  | .puschCsi1 p => .encPuschCsi1 cfg p

/-- The decode command of a context, the mirror of its encode (R247, R249, R251). -/
def decodeInstr (cfg : UciCfg) : Chan → Instr
  | .pucch res => .decPucch cfg res
  | .puschAck p => .decPuschAck cfg p
  | .puschCsi1 p => .decPuschCsi1 cfg p

end Sys2Proof.Machine
end

