-- ==== Sys2Proof/Machine/Port.lean ====
section
/-! DEFINITION. The host port (spec R60 to R66): the spaces, what a transaction does, the issue of a command by the write of
CMD (R235), the byte-addressed wrapper (R64, R65), and the hardware reset (R310). The configuration record `c` is a parameter
of the port (R7, R16), and so is `run`, the meaning of a decoded command at that record (R235). -/

namespace Sys2Proof.Machine

/-- The space of an id; ids 6, 7 and 12 to 15 do not exist (R30, R66). -/
def spaceOf (id : BitVec 4) : Option Space :=
  match id.toNat with
  | 0 => some .csr
  | 1 => some .valAck
  | 2 => some .valCsi1
  | 3 => some .valMisc
  | 4 => some .cod
  | 5 => some .llr
  | 8 => some .bitSequence
  | 9 => some .c
  | 10 => some .allocated
  | 11 => some .d
  | _ => none

/-- The number of elements of a space (R23, R30). -/
def elementCount (c : Config) : Space → Nat
  | .csr => 64
  | .valAck => c.aMax
  | .valCsi1 => c.aMax
  | .valMisc => 2
  | .cod => c.eMax
  | .llr => c.eMax
  | .bitSequence => c.aMax
  | .c => c.aMax + 11
  | .allocated => c.nMax
  | .d => c.nMax

/-- The lifecycle register's code in STATUS[1:0] (R22, R27). -/
def lifeCode : Life → Nat
  | .uninit => 0
  | .noCarrier => 1
  | .ready => 2

/-- STATUS: S.life in bits 1:0, S.polar_valid in bit 2 (R27). -/
def statusWord (s : State) : Word := BitVec.ofNat 32 (lifeCode s.life + 4 * s.polarValid.toNat)

/-- What a read of a CSR returns (R23); reserved indices read 0 (R38). A capacity or a Polar context number, a natural in
the state, is shown by its low 32 bits (log 11, log 25). -/
def csrRead (s : State) (i : Nat) : Word :=
  match i with
  | 0 => s.cmd
  | 1 => statusWord s
  | 2 => s.resp.r0
  | 3 => s.resp.r1
  | 4 => s.resp.r2
  | 5 => s.resp.r3
  | 6 => s.resp.r4
  | 8 => s.arg.a0
  | 9 => s.arg.a1
  | 10 => s.arg.a2
  | 11 => s.arg.a3
  | 12 => s.arg.a4
  | 13 => s.arg.a5
  | 14 => s.arg.a6
  | 15 => s.arg.a7
  | 16 => s.thr1
  | 17 => s.thrb
  | 18 => s.carrier
  | 19 => BitVec.ofNat 32 s.capA
  | 20 => BitVec.ofNat 32 s.capE
  | 21 => BitVec.ofNat 32 s.polarK
  | 22 => BitVec.ofNat 32 s.polarE
  | 23 => BitVec.ofNat 32 s.polarN
  | 24 => s.crc6
  | 25 => s.crc11
  | _ => 0

/-- A bit as the port returns it, zero-extended (R62). -/
def bitData (b : Bool) : Word := BitVec.ofNat 32 b.toNat

/-- The low w bits of data, read as a signed integer (R62, R9). -/
def signedOf (w : Nat) (data : Word) : Int := (data.setWidth w).toInt

/-- What a read of an existing element returns, none where the element is unspecified (R62, R33). -/
def elementData (s : State) (sp : Space) (i : Nat) : Option Word :=
  match sp with
  | .csr => some (csrRead s i)
  | .valAck => (Buf.read s.mem.valAck i).map bitData
  | .valCsi1 => (Buf.read s.mem.valCsi1 i).map bitData
  | .valMisc => (Buf.read s.mem.valMisc i).map bitData
  | .cod => (Buf.read s.mem.cod i).map bitData
  | .llr => (Buf.read s.mem.llr i).map (BitVec.ofInt 32)
  | .bitSequence => (Buf.read s.mem.bitSequence i).map bitData
  | .c => (Buf.read s.mem.c i).map bitData
  | .allocated => (Buf.read s.mem.allocated i).map bitData
  | .d => (Buf.read s.mem.d i).map (BitVec.ofInt 32)

/-- An arbitrary value of the space's element type, drawn as the n-th (R33). -/
def arbitraryData (c : Config) (sp : Space) (n : Nat) : Word :=
  match sp with
  | .llr => BitVec.ofInt 32 (signedOf c.llrW (Config.freeElement n))
  | .d => BitVec.ofInt 32 (signedOf c.softW (Config.freeElement n))
  | _ => bitData ((Config.freeElement n).toNat.testBit 0)

/-- HostRead(space, index): the state after it and the data (R62, R66). Only a read of an unspecified element changes the
state, and only the model's count of arbitrary values. -/
def hostRead (c : Config) (space : BitVec 4) (index : BitVec 16) (s : State) : State × Word :=
  match spaceOf space with
  | none => (s, 0)
  | some sp =>
    if index.toNat < elementCount c sp then
      match elementData s sp index.toNat with
      | some w => (s, w)
      | none => ({ s with freeCount := s.freeCount + 1 }, arbitraryData c sp s.freeCount)
    else (s, 0)

/-- A write of operand register ARG k (R24, R62). -/
def writeArg (k : Nat) (v : Word) (a : Args) : Args :=
  match k with
  | 0 => { a with a0 := v }
  | 1 => { a with a1 := v }
  | 2 => { a with a2 := v }
  | 3 => { a with a3 := v }
  | 4 => { a with a4 := v }
  | 5 => { a with a5 := v }
  | 6 => { a with a6 := v }
  | 7 => { a with a7 := v }
  | _ => a

/-- Issue(S, h): the write of CMD sets S.cmd and runs the frame it makes with ARG0 to ARG7 (R25, R235). The acceptance
check stands in the meanings (log 18); the command is atomic (R11, R320, log 14). -/
def issue (run : Instr → State → Result) (h : Word) (s : State) : Result :=
  let s1 := { s with cmd := h }
  match decode ⟨h, s.arg⟩ with
  | .error _ => .next (raise .illegalCommand s1)
  | .ok i => run i s1

/-- A write of a CSR: CMD issues a command, ARG0 to ARG7 are written, all others ignore it (R23, R62). -/
def csrWrite (run : Instr → State → Result) (i : Nat) (data : Word) (s : State) : Result :=
  if i = 0 then issue run data s
  else if 8 ≤ i ∧ i ≤ 15 then .next { s with arg := writeArg (i - 8) data s.arg }
  else .next s

/-- data[0], the bit a write of a bit space stores (R62). -/
def dataBit (data : Word) : Bool := data.toNat.testBit 0

/-- A write of an existing element (R62). -/
def elementWrite (c : Config) (run : Instr → State → Result) (sp : Space) (i : Nat) (data : Word) (s : State) : Result :=
  match sp with
  | .csr => csrWrite run i data s
  | .valAck => .next { s with mem := { s.mem with valAck := s.mem.valAck.write i [dataBit data] } }
  | .valCsi1 => .next { s with mem := { s.mem with valCsi1 := s.mem.valCsi1.write i [dataBit data] } }
  | .valMisc => .next { s with mem := { s.mem with valMisc := s.mem.valMisc.write i [dataBit data] } }
  | .cod => .next { s with mem := { s.mem with cod := s.mem.cod.write i [dataBit data] } }
  | .llr => .next { s with mem := { s.mem with llr := s.mem.llr.write i [signedOf c.llrW data] } }
  | .bitSequence => .next s
  | .c => .next s
  | .allocated => .next s
  | .d => .next s

/-- HostWrite(space, index, data): ignored where there is no such element (R62, R66). -/
def hostWrite (c : Config) (run : Instr → State → Result) (space : BitVec 4) (index : BitVec 16) (data : Word)
    (s : State) : Result :=
  match spaceOf space with
  | none => .next s
  | some sp => if index.toNat < elementCount c sp then elementWrite c run sp index.toNat data s else .next s

/-! The byte-addressed wrapper (R64, R65). -/

/-- The byte address of element (space, index) from the block's base (R64). -/
def busAddress (space : BitVec 4) (index : BitVec 16) : BitVec 24 :=
  BitVec.ofNat 24 (space.toNat * 2 ^ 20 + index.toNat * 2 ^ 2)

/-- The element a bus access of `size` bytes names: only an aligned 32-bit access at an element's address is a
transaction (R64, R65). Bits 19:18 of an element's address are zero, the index having 16 bits (log 12). -/
def busElement (addr : BitVec 24) (size : Nat) : Option (BitVec 4 × BitVec 16) :=
  let a := addr.toNat
  if size = 4 ∧ a % 4 = 0 ∧ a / 2 ^ 18 % 4 = 0 then
    some (BitVec.ofNat 4 (a / 2 ^ 20), BitVec.ofNat 16 (a / 4))
  else none

/-- The four bytes of a word, byte 0 (bits 7:0) first: little-endian (R64). -/
def bytesOfWord (w : Word) : List Byte :=
  [BitVec.ofNat 8 w.toNat, BitVec.ofNat 8 (w.toNat / 2 ^ 8), BitVec.ofNat 8 (w.toNat / 2 ^ 16),
    BitVec.ofNat 8 (w.toNat / 2 ^ 24)]

/-- The number a byte sequence makes, the first byte least significant. -/
def natOfBytes : List Byte → Nat
  | [] => 0
  | b :: bs => b.toNat + 2 ^ 8 * natOfBytes bs

/-- The word of four bytes, little-endian (R64). -/
def wordOfBytes (bs : List Byte) : Word := BitVec.ofNat 32 (natOfBytes bs)

/-! One act. -/

/-- The hardware reset: the reset state of the block (R310). HOST and what it knows are outside the block and stay (log 13). -/
def hardReset (s : State) : State :=
  { State.reset with host := s.host, seen := s.seen, freeCount := s.freeCount }

/-- A read, recorded as HOST's data. -/
def readAct (c : Config) (space : BitVec 4) (index : BitVec 16) (present : Word → HostData) (s : State) : State :=
  let r := hostRead c space index s
  { r.1 with seen := present r.2 :: r.1.seen }

/-- What one act of HOST or of the platform does (R62, R64, R65, R310). -/
def performAct (c : Config) (run : Instr → State → Result) (act : HostAct) (s : State) : Result :=
  match act with
  | .write space index data => hostWrite c run space index data s
  | .read space index => .next (readAct c space index .word s)
  | .busWrite addr bytes =>
    match busElement addr bytes.length with
    | none => .refused .notATransaction
    | some e => hostWrite c run e.1 e.2 (wordOfBytes bytes) s
  | .busRead addr size =>
    match busElement addr size with
    | none => .refused .notATransaction
    | some e => .next (readAct c e.1 e.2 (fun w => .bytes (bytesOfWord w)) s)
  | .reset => .next (hardReset s)

/-- The next act of HOST is taken and performed; with none left the block holds its state (R71, R300). -/
def runHost (c : Config) (run : Instr → State → Result) (s : State) : Result :=
  match s.host with
  | [] => .next s
  | act :: rest => performAct c run act { s with host := rest }

/-- The state with a frame stored where the next step takes it: the operand words in ARG0 to ARG7, and the write of its
header to CMD as HOST's next act (R90, R103). -/
def placeFrame (f : Frame) (s : State) : State :=
  { s with arg := f.arg, host := .write 0 0 f.h :: s.host }

end Sys2Proof.Machine
end

