-- ==== Sys2Proof/Machine/Step.lean ====
section
/-! DEFINITION. One step: HOST's next act, a whole command when the act is the write of CMD (spec R11, R71, R235). -/

namespace Sys2Proof.Machine

/-- One step at a configuration record: the record, with both engines and every code table, is a parameter of the step and
not state (R7, R15, R16). -/
def stepIn (c : Config) (s : State) : Host.Outcome State Fault Refusal := runHost c (execIn c) s

/-- One step of the machine: the step at the machine's own record, its commands the machine's own. -/
def step (s : State) : Host.Outcome State Fault Refusal := runHost config exec s

/-- The state with the instruction whose bits are `w` (bits at or above `nbits` zero) placed so that the very next step
runs it (log 2). -/
def State.withFetchWord (s : State) (nbits w : Nat) : State := placeFrame (Frame.ofNat nbits w) s

end Sys2Proof.Machine
end

