-- ==== Sys2Proof/Machine/Asm.lean ====
section
/-! DEFINITION. UCI-ASM (spec R103, R104): what HOST does for a statement and for each directive, and the text form of
both. All of it runs on HOST's side and is no part of the block; `.expect` has no transaction. -/

namespace Sys2Proof.Machine

/-- The write of operand register ARG k. -/
def argWrite (k : Nat) (v : Word) : HostAct := .write 0 (BitVec.ofNat 16 (8 + k)) v

/-- The writes of the operand words of a command's format, in ascending ARG order (R93, R103). -/
def operandWrites (i : Instr) : List HostAct :=
  (operandIndices i).map (fun k => argWrite k ((encodeArgs i).get k))

/-- A statement assembles to the writes of its operand words, ascending, and the write of its header to CMD (R103). -/
def assemble (i : Instr) : List HostAct := operandWrites i ++ [.write 0 0 (encode i).h]

/-- The writes of a sequence of data words to the elements of a space from index i upward. -/
def writesFrom (space : BitVec 4) : Nat → List Word → List HostAct
  | _, [] => []
  | i, w :: ws => .write space (BitVec.ofNat 16 i) w :: writesFrom space (i + 1) ws

/-- The directives of UCI-ASM that expand to transactions (R104). -/
inductive Directive where
  | ack (bits : List Bool)
  | csi1 (bits : List Bool)
  | sr (bit : Bool)
  | llr (values : List Int)
  | noiseless (M : Int)
  | flip (k : Nat)
deriving DecidableEq, Repr

/-- The data a read of element k of a space returns at a state. -/
def readData (c : Config) (space : BitVec 4) (k : Nat) (s : State) : Word := (hostRead c space (BitVec.ofNat 16 k) s).2

/-- The reads of the first E elements of COD, each followed by the write of its noiseless LLR (R104, R175). The state goes
from read to read, as HOST's reads take it. -/
def noiselessActs (c : Config) (M : Int) : State → Nat → Nat → List HostAct
  | _, _, 0 => []
  | s, k, n + 1 =>
    let r := hostRead c 4 (BitVec.ofNat 16 k) s
    let v := if r.2 = 1 then M else -M
    .read 4 (BitVec.ofNat 16 k) :: .write 5 (BitVec.ofNat 16 k) (BitVec.ofInt 32 v) :: noiselessActs c M r.1 (k + 1) n

/-- What a directive expands to, at the state in which HOST performs it: `.noiseless` and `.flip` read the port, whose
record is c (R104). DESIGN CHOICE (log 24): an element index of 65536 or more, of which the spec says nothing, is taken
modulo 2^16, the width of the port's index, and an LLR value wider than the port's 32 data bits modulo 2^32. -/
def expand (c : Config) (dir : Directive) (s : State) : List HostAct :=
  match dir with
  | .ack bits => writesFrom 1 0 (bits.map bitData)
  | .csi1 bits => writesFrom 2 0 (bits.map bitData)
  | .sr bit => [.write 3 0 (bitData bit)]
  | .llr values => writesFrom 5 0 (values.map (BitVec.ofInt 32))
  | .noiseless M => .read 0 3 :: noiselessActs c M s 0 (readData c 0 3 s).toNat
  | .flip k => [.read 5 (BitVec.ofNat 16 k), .write 5 (BitVec.ofNat 16 k) (-(readData c 5 k s))]

/-! The text (R103): one statement a line, `#` starts a comment, a mnemonic and comma-separated `name=value` operands in any
order, an operand left out is 0. DESIGN CHOICE (log 22): a line that names an operand the mnemonic does not have, names one
twice, or gives a value its field cannot hold is no statement; neither is a transaction written out, HostWrite(…). -/

/-- A line of UCI-ASM. -/
inductive Line where
  | blank
  | statement (i : Instr)
  | directive (dir : Directive)
  /-- `.expect`, an assertion for the listing's reader -/
  | expect
deriving DecidableEq, Repr

/-- The pieces of a text between occurrences of a separator. -/
def piecesOf (sep : Char) : List Char → List (List Char)
  | [] => [[]]
  | c :: cs =>
    if c = sep then [] :: piecesOf sep cs
    else match piecesOf sep cs with
      | [] => [[c]]
      | w :: ws => (c :: w) :: ws

/-- Whether a character separates words. -/
def isBlank (c : Char) : Bool := c = ' ' || c = '\t'

/-- A text without the blanks at its ends. -/
def trimBlanks (cs : List Char) : List Char := ((cs.dropWhile isBlank).reverse.dropWhile isBlank).reverse

/-- The value of a digit in a base. -/
def digitOf (base : Nat) (c : Char) : Option Nat :=
  let n := if '0' ≤ c ∧ c ≤ '9' then c.toNat - 48
    else if 'a' ≤ c ∧ c ≤ 'f' then c.toNat - 87
    else if 'A' ≤ c ∧ c ≤ 'F' then c.toNat - 55
    else base
  if n < base then some n else none

/-- The number a text of digits writes, on top of what was read before it. -/
def numberOf (base : Nat) : Nat → List Char → Option Nat
  | acc, [] => some acc
  | acc, c :: cs =>
    match digitOf base c with
    | none => none
    | some d => numberOf base (acc * base + d) cs

/-- An unsigned value: decimal, or hexadecimal after 0x. -/
def unsignedOf : List Char → Option Nat
  | [] => none
  | '0' :: 'x' :: c :: cs => numberOf 16 0 (c :: cs)
  | cs => numberOf 10 0 cs

/-- A value, with an optional sign. -/
def valueOf : List Char → Option Int
  | '-' :: cs => (unsignedOf cs).map (fun n => -(n : Int))
  | '+' :: cs => (unsignedOf cs).map (fun n => (n : Int))
  | cs => (unsignedOf cs).map (fun n => (n : Int))

/-- Every element's image, none where one has none. -/
def allOf {α β : Type} (f : α → Option β) : List α → Option (List β)
  | [] => some []
  | a :: as =>
    match f a, allOf f as with
    | some b, some bs => some (b :: bs)
    | _, _ => none

/-- The named operands of a statement. -/
abbrev Operands := List (String × Int)

/-- One operand, name=value. -/
def operandOf (cs : List Char) : Option (String × Int) :=
  match piecesOf '=' cs with
  | [n, v] => (valueOf (trimBlanks v)).map (fun x => (String.ofList (trimBlanks n), x))
  | _ => none

/-- The operands of a statement, from the text after its mnemonic. -/
def operandsOf (cs : List Char) : Option Operands :=
  if trimBlanks cs = [] then some [] else allOf operandOf (piecesOf ',' cs)

/-- The value given to a name, 0 where it is left out. -/
def operandValue (name : String) (ops : Operands) : Int :=
  match ops with
  | [] => 0
  | (n, v) :: rest => if n = name then v else operandValue name rest

/-- An unsigned field. A negative value is out of every field's range. -/
def fieldValue (name : String) (ops : Operands) : Nat :=
  let v := operandValue name ops
  if v < 0 then 2 ^ 32 else v.toNat

/-- A 1-bit field, with whether the value fits. -/
def flagValue (name : String) (ops : Operands) : Option Bool :=
  let v := operandValue name ops
  if v = 0 then some false else if v = 1 then some true else none

/-- UCICFG from its operands. -/
def cfgOperands (ops : Operands) : Option UciCfg :=
  (flagValue "sr" ops).map (fun sr => { oAck := fieldValue "ack" ops, oCsi1 := fieldValue "csi1" ops, sr := sr })

/-- PUCCHRES from its operands. -/
def resOperands (ops : Operands) : PucchRes :=
  { fmt := fieldValue "fmt" ops, nsym := fieldValue "nsym" ops, nprb := fieldValue "nprb" ops
    qm := fieldValue "qm" ops, sf := fieldValue "sf" ops }

/-- PUSCHCFG1 to PUSCHCFG4 from their operands. -/
def pcfgOperands (ops : Operands) : Option PuschCfg :=
  (flagValue "csi2" ops).map (fun csi2 =>
    { mSum := fieldValue "msum" ops, mL0Sum := fieldValue "ml0" ops, kSum := fieldValue "ksum" ops
      betaAckX8 := fieldValue "back" ops, betaCsi1X8 := fieldValue "bcsi" ops, alphaX20 := fieldValue "alpha" ops
      rX1024 := fieldValue "r" ops, qm := fieldValue "qm" ops, nLayers := fieldValue "nl" ops, csi2 := csi2 })

/-- The operand names of the three groups of fields (R103). -/
def cfgNames : List String := ["ack", "csi1", "sr"]
def resNames : List String := ["fmt", "nsym", "nprb", "qm", "sf"]
def pcfgNames : List String := ["msum", "ml0", "ksum", "back", "bcsi", "alpha", "r", "qm", "nl", "csi2"]

/-- Every operand has one of the names, and none is given twice. -/
def namesFit (names : List String) (ops : Operands) : Bool :=
  ops.all (fun o => names.contains o.1) && decide ((ops.map (·.1)).Nodup)

/-- A statement of format P. -/
def statementP (mk : UciCfg → PucchRes → Instr) (ops : Operands) : Option Instr :=
  if namesFit (cfgNames ++ resNames) ops then (cfgOperands ops).map (fun cfg => mk cfg (resOperands ops)) else none

/-- A statement of format S. -/
def statementS (mk : UciCfg → PuschCfg → Instr) (ops : Operands) : Option Instr :=
  if namesFit (cfgNames ++ pcfgNames) ops then
    match cfgOperands ops, pcfgOperands ops with
    | some cfg, some p => some (mk cfg p)
    | _, _ => none
  else none

/-- A threshold word fits 32 bits, signed or unsigned. -/
def thresholdFits (v : Int) : Bool := decide (-2147483648 ≤ v ∧ v < 4294967296)

/-- The instruction of a mnemonic and its operands, before the field ranges are checked (R103). -/
def instrOf (mnemonic : String) (ops : Operands) : Option Instr :=
  match mnemonic with
  | "INIT" =>
    let thr1 := operandValue "thr1" ops
    let thrb := operandValue "thrb" ops
    if namesFit ["thr1", "thrb"] ops && thresholdFits thr1 && thresholdFits thrb then
      some (.init (BitVec.ofInt 32 thr1) (BitVec.ofInt 32 thrb)) else none
  | "FREE" => if namesFit [] ops then some .free else none
  | "SETCARRIER" =>
    if namesFit ["mu", "nprb"] ops then some (.setCarrier (fieldValue "mu" ops) (fieldValue "nprb" ops)) else none
  | "ENC_PUCCH" => statementP .encPucch ops
  | "DEC_PUCCH" => statementP .decPucch ops
  | "ENC_PUSCH_ACK" => statementS .encPuschAck ops
  | "DEC_PUSCH_ACK" => statementS .decPuschAck ops
  | "ENC_PUSCH_CSI1" => statementS .encPuschCsi1 ops
  | "DEC_PUSCH_CSI1" => statementS .decPuschCsi1 ops
  | "Q_TOTAL" => if namesFit cfgNames ops then (cfgOperands ops).map .qTotal else none
  | "Q_CRCLEN" => if namesFit ["a"] ops then some (.qCrcLen (fieldValue "a" ops)) else none
  | "Q_PUCCH_E" => if namesFit resNames ops then some (.qPucchE (resOperands ops)) else none
  | "Q_PUSCH_ACK_E" => statementS .qPuschAckE ops
  | "Q_PUSCH_CSI1_E" => statementS .qPuschCsi1E ops
  | _ => none

/-- The statement a mnemonic and its operands make, where every field holds its value (R103). -/
def statementOf (mnemonic : String) (ops : Operands) : Option Instr :=
  match instrOf mnemonic ops with
  | none => none
  | some i => if i.wellFormed then some i else none

/-- A bit of a directive's list. -/
def bitOf (v : Int) : Option Bool := if v = 0 then some false else if v = 1 then some true else none

/-- The comma-separated values of a directive. -/
def valuesOf (cs : List Char) : Option (List Int) := allOf (fun p => valueOf (trimBlanks p)) (piecesOf ',' cs)

/-- The directive of a name and the text after it (R104). -/
def directiveOf (name : String) (cs : List Char) : Option Line :=
  match name with
  | ".ack" => ((valuesOf cs).bind (allOf bitOf)).map (fun bits => .directive (.ack bits))
  | ".csi1" => ((valuesOf cs).bind (allOf bitOf)).map (fun bits => .directive (.csi1 bits))
  | ".sr" => ((valueOf (trimBlanks cs)).bind bitOf).map (fun b => .directive (.sr b))
  | ".llr" => (valuesOf cs).map (fun vs => .directive (.llr vs))
  | ".noiseless" => (valueOf (trimBlanks cs)).map (fun v => .directive (.noiseless v))
  | ".flip" => (unsignedOf (trimBlanks cs)).map (fun k => .directive (.flip k))
  | ".expect" => some .expect
  | _ => none

/-- A line of text, none where it is no line of UCI-ASM (R103, R104). DESIGN CHOICE (log 22): a host transaction written out
in a listing, as the raw line HostWrite(0, 0, 0x00000014) of P3 in the test vectors, fits no form of R103 or R104 and is
taken as no line of UCI-ASM; it names the act of HOST itself, HostAct.write 0 0 0x14. -/
def parseLine (text : String) : Option Line :=
  let cs := trimBlanks (text.toList.takeWhile (fun c => c ≠ '#'))
  let word := cs.takeWhile (fun c => !isBlank c)
  let rest := cs.dropWhile (fun c => !isBlank c)
  match word with
  | [] => some .blank
  | '.' :: _ => directiveOf (String.ofList word) rest
  | _ =>
    match operandsOf rest with
    | none => none
    | some ops => (statementOf (String.ofList word) ops).map .statement

/-- The host-port acts of a line, at the state in which HOST performs it. -/
def lineActs (c : Config) (l : Line) (s : State) : List HostAct :=
  match l with
  | .blank => []
  | .statement i => assemble i
  | .directive dir => expand c dir s
  | .expect => []

end Sys2Proof.Machine
end

