-- ==== Sys2Proof/Safety.lean ====
section
/-! DEFINITION. What counts as a safe run and a well-formed state: the classes of a command's end (spec R284), what a buffer
may hold (R30, R37), and the invariant of every reachable state (R41). -/

namespace Sys2Proof.Machine

/-- The step answers a next state: it is neither a fault nor a refusal. -/
def Safe (s : State) : Prop := ∃ t, step s = .next t

/-- The error kind a response word reports is a rejection: InvalidResource, InvalidConfig, Sequence, IllegalCommand
(R280, R284). -/
abbrev rejected (r : Resp) : Prop := errField r.r0 ∈ [1, 2, 5, 6]

/-- It is a flagged completion: CrcMismatch or LowConfidence (R280, R284). -/
abbrev flagged (r : Resp) : Prop := errField r.r0 ∈ [3, 4]

/-- The command completed with no error. -/
abbrev completedOk (r : Resp) : Prop := errField r.r0 = 0

/-- Every listed index of a buffer is below its element count (R30, R219). -/
abbrev Buf.within {α : Type} (b : Buf α) (n : Nat) : Prop := ∀ e ∈ b, e.1 < n

/-- Every soft value of a buffer is in the signed range of its width (R37). -/
abbrev Buf.ranged (b : Buf Int) (w : Nat) : Prop := ∀ e ∈ b, inSigned w e.2

/-- Every space fits its element count and its element type at a configuration record (R30, R37). -/
structure MemoryFits (c : Config) (m : Memory) : Prop where
  valAck : Buf.within m.valAck c.aMax
  valCsi1 : Buf.within m.valCsi1 c.aMax
  valMisc : Buf.within m.valMisc 2
  cod : Buf.within m.cod c.eMax
  llr : Buf.within m.llr c.eMax
  llrRange : Buf.ranged m.llr c.llrW
  bitSequence : Buf.within m.bitSequence c.aMax
  crcWord : Buf.within m.c (c.aMax + 11)
  allocated : Buf.within m.allocated c.nMax
  d : Buf.within m.d c.nMax
  dRange : Buf.ranged m.d c.softW

/-- Everything a codec command never writes: all of the state but RESP, the Polar context and the buffer spaces (R68). -/
structure SessionSame (s t : State) : Prop where
  life : t.life = s.life
  arg : t.arg = s.arg
  cmd : t.cmd = s.cmd
  thr1 : t.thr1 = s.thr1
  thrb : t.thrb = s.thrb
  carrier : t.carrier = s.carrier
  capA : t.capA = s.capA
  capE : t.capE = s.capE
  crc6 : t.crc6 = s.crc6
  crc11 : t.crc11 = s.crc11
  host : t.host = s.host
  seen : t.seen = s.seen
  freeCount : t.freeCount = s.freeCount

/-- The Polar context is unchanged (R34). -/
abbrev polarSame (s t : State) : Prop :=
  t.polarValid = s.polarValid ∧ t.polarK = s.polarK ∧ t.polarE = s.polarE ∧ t.polarN = s.polarN

/-- Two buffers agree on every index from n upward. -/
abbrev Buf.agreeFrom {α : Type} (b b' : Buf α) (n : Nat) : Prop := ∀ k, n ≤ k → Buf.read b' k = Buf.read b k

/-- A buffer holds a sequence at the indices from `i` upward. -/
abbrev Buf.holds {α : Type} (b : Buf α) (i : Nat) (vs : List α) : Prop :=
  ∀ k, k < vs.length → Buf.read b (i + k) = vs[k]?

/-- The VAL spaces hold a payload of a context: its bits in the order the fields are concatenated (R242). -/
def HoldsPayload (order : PackOrder) (cfg : UciCfg) (ch : Chan) (m : Memory) (a : List Bool) : Prop :=
  a.length = payloadLength cfg ch ∧
  match ch with
  | .puschAck _ => ∀ i, i < cfg.oAck → Buf.read m.valAck i = a[i]?
  | .puschCsi1 _ => ∀ i, i < cfg.oCsi1 → Buf.read m.valCsi1 i = a[i]?
  | .pucch _ =>
    (∀ i, i < cfg.oAck → Buf.read m.valAck i = a[i]?) ∧
    match order with
    | .ackCsi1Sr =>
      (∀ i, i < cfg.oCsi1 → Buf.read m.valCsi1 i = a[cfg.oAck + i]?) ∧
      (cfg.sr = true → Buf.read m.valMisc 0 = a[cfg.oAck + cfg.oCsi1]?)
    | .ackSrCsi1 =>
      (∀ i, i < cfg.oCsi1 → Buf.read m.valCsi1 i = a[cfg.oAck + cfg.sr.toNat + i]?) ∧
      (cfg.sr = true → Buf.read m.valMisc 0 = a[cfg.oAck]?)

/-- The response registers of a command that ended with error code `err`, in a state whose CMD has the opcode field it
has: RESP0 by the field places of R28, as a number. -/
def respOf (s : State) (err rel path crcLen : Nat) (r1 r2 r3 r4 : Word) : Resp :=
  ⟨BitVec.ofNat 32 (err + 16 * rel + 32 * path + 256 * crcLen + 4096 * (s.cmd.toNat % 16)), r1, r2, r3, r4⟩

/-- Candidate payloads have different codewords of length E (R193). -/
def OneToOne (c : Config) (A E : Nat) : Prop :=
  ∀ g g', g < 2 ^ A → g' < 2 ^ A → smallEncode c (cand A g) E = smallEncode c (cand A g') E → g = g'

/-- The least coded length at which the truncated code of the default tables is one-to-one (R193). -/
def oneToOneBound (A : Nat) : Nat :=
  match A with
  | 1 => 1
  | 2 => 2
  | 3 => 3
  | 4 => 5
  | 5 => 6
  | 11 => 17
  | _ => 11

/-- The invariants of R41, clauses (a) to (f), at a configuration record. -/
structure SessionInv (c : Config) (s : State) : Prop where
  /-- (a) -/
  uninit_zero : s.life = .uninit → s.thr1 = 0 ∧ s.thrb = 0 ∧ s.crc6 = 0 ∧ s.crc11 = 0
  /-- (b) -/
  no_carrier_zero : s.life ≠ .ready → s.carrier = 0 ∧ s.capA = 0 ∧ s.capE = 0 ∧ s.polarValid = false
  /-- (c) -/
  ready_caps : s.life = .ready → 1 ≤ s.capA ∧ s.capA ≤ c.aMax ∧ 1 ≤ s.capE ∧ s.capE ≤ c.eMax
  /-- (d) -/
  polar_invalid_zero : s.polarValid = false → s.polarK = 0 ∧ s.polarE = 0 ∧ s.polarN = 0
  /-- (e) -/
  polar_valid_bounds : s.polarValid = true →
    18 ≤ s.polarK ∧ s.polarK ≤ s.capA + 11 ∧ s.polarE ≤ s.capE ∧ s.polarN ≤ c.nMax
  /-- (f) -/
  session_polys : s.life ≠ .uninit → s.crc6 = c.poly6 ∧ s.crc11 = c.poly11

/-- The invariant of every reachable state: R41, the canonical form of memory, and every space within its element count
and element type. -/
structure Inv (s : State) : Prop where
  session : SessionInv config s
  wf : Memory.wf s.mem
  fits : MemoryFits config s.mem

/-! The spec's tables, as claims cite them: written from the rules, not from the machine. -/

/-- w[hi:lo] as an unsigned integer (R9). -/
abbrev bitsOf (w : Word) (hi lo : Nat) : Nat := (w.extractLsb hi lo).toNat

/-- UCICFG by its bit numbers (R96). -/
def uciCfgFields (w : Word) : UciCfg := { oAck := bitsOf w 10 0, oCsi1 := bitsOf w 21 11, sr := w.getLsbD 22 }

/-- PUCCHRES by its bit numbers (R97). -/
def pucchResFields (w : Word) : PucchRes :=
  { fmt := bitsOf w 2 0, nsym := bitsOf w 6 3, nprb := bitsOf w 11 7, qm := bitsOf w 13 12, sf := bitsOf w 16 14 }

/-- PUSCHCFG1 to PUSCHCFG4 by their bit numbers (R98). -/
def puschCfgFields (w1 w2 w3 w4 : Word) : PuschCfg :=
  { mSum := bitsOf w1 15 0, mL0Sum := bitsOf w1 31 16, kSum := bitsOf w2 23 0
    betaAckX8 := bitsOf w3 9 0, betaCsi1X8 := bitsOf w3 19 10, alphaX20 := bitsOf w3 24 20
    rX1024 := bitsOf w4 10 0, qm := bitsOf w4 14 11, nLayers := bitsOf w4 17 15, csi2 := w4.getLsbD 18 }

/-- The frame is ILLEGAL (R100). -/
abbrev IllegalFrame (h : Word) (a : Args) : Prop := ∃ e, decode ⟨h, a⟩ = .error e

/-- A reserved bit is set in an operand word of format P (R96, R97). -/
abbrev reservedP (a : Args) : Prop := bitsOf a.a0 31 23 ≠ 0 ∨ bitsOf a.a1 31 17 ≠ 0

/-- A reserved bit is set in an operand word of format S (R96, R98). -/
abbrev reservedS (a : Args) : Prop :=
  bitsOf a.a0 31 23 ≠ 0 ∨ bitsOf a.a2 31 24 ≠ 0 ∨ bitsOf a.a3 31 25 ≠ 0 ∨ bitsOf a.a4 31 19 ≠ 0

/-- The acceptance table, by instruction (R237). -/
def acceptedIn (i : Instr) (life : Life) : Bool :=
  match i with
  | .init _ _ => life = .uninit
  | .free => life ≠ .uninit
  | .setCarrier _ _ => life ≠ .uninit
  | .encPucch _ _ => life = .ready
  | .decPucch _ _ => life = .ready
  | .encPuschAck _ _ => life = .ready
  | .decPuschAck _ _ => life = .ready
  | .encPuschCsi1 _ _ => life = .ready
  | .decPuschCsi1 _ _ => life = .ready
  | .qTotal _ => true
  | .qCrcLen _ => true
  | .qPucchE _ => true
  | .qPuschAckE _ _ => true
  | .qPuschCsi1E _ _ => true

/-- The legal carriers of the default capacity table (R241). -/
abbrev legalCarrier (mu nprb : Nat) : Prop := mu ≤ 4 ∧ 1 ≤ nprb ∧ nprb ≤ 275

/-- The lifecycle state after a command, by whether it succeeded: the transition table (R236). -/
def lifeAfter (i : Instr) (succeeded : Bool) (life : Life) : Life :=
  match i with
  | .init _ _ => if succeeded then .noCarrier else life
  | .free => if succeeded then .uninit else life
  | .setCarrier _ _ => if succeeded then .ready else life
  | .encPucch _ _ => life
  | .decPucch _ _ => life
  | .encPuschAck _ _ => life
  | .decPuschAck _ _ => life
  | .encPuschCsi1 _ _ => life
  | .decPuschCsi1 _ _ => life
  | .qTotal _ => life
  | .qCrcLen _ => life
  | .qPucchE _ => life
  | .qPuschAckE _ _ => life
  | .qPuschCsi1E _ _ => life

/-- The error codes a decoded command can end in, OK among them (R291). -/
def possibleErrors (i : Instr) : List Nat :=
  match i with
  | .init _ _ => [0, 5]
  | .free => [0, 5]
  | .setCarrier _ _ => [0, 5, 2]
  | .encPucch _ _ => [0, 5, 1, 2]
  | .decPucch _ _ => [0, 5, 1, 2, 3, 4]
  | .encPuschAck _ _ => [0, 5, 2]
  | .decPuschAck _ _ => [0, 5, 2, 3, 4]
  | .encPuschCsi1 _ _ => [0, 5, 2]
  | .decPuschCsi1 _ _ => [0, 5, 2, 3, 4]
  | .qTotal _ => [0]
  | .qCrcLen _ => [0]
  | .qPucchE _ => [0, 1]
  | .qPuschAckE _ _ => [0, 2]
  | .qPuschCsi1E _ _ => [0, 2]

/-- The path code RESP0 reports for a payload of A bits (R28, R243). -/
def pathNumber (A : Nat) : Nat := if A = 0 then 0 else if A = 1 then 1 else if A = 2 then 2 else if A ≤ 11 then 3 else 4

/-- PuschLegal, field by field (R126). -/
abbrev LegalPuschFields (p : PuschCfg) : Prop :=
  1 ≤ p.mSum ∧ p.mL0Sum ≤ p.mSum ∧ 1 ≤ p.betaAckX8 ∧ 1 ≤ p.betaCsi1X8 ∧ 1 ≤ p.alphaX20 ∧ p.alphaX20 ≤ 20 ∧
  (p.qm = 1 ∨ p.qm = 2 ∨ p.qm = 4 ∨ p.qm = 6 ∨ p.qm = 8) ∧ 1 ≤ p.nLayers ∧ p.nLayers ≤ 4 ∧
  (0 < p.kSum ∨ 1 ≤ p.rX1024)

/-- The default PUCCH length table, row by row (R124). -/
abbrev LegalFormat2 (res : PucchRes) : Prop :=
  res.fmt = 2 ∧ (res.nsym = 1 ∨ res.nsym = 2) ∧ 1 ≤ res.nprb ∧ res.nprb ≤ 16 ∧ res.qm = 2

/-- Row of format 3 (R124). -/
abbrev LegalFormat3 (res : PucchRes) : Prop :=
  res.fmt = 3 ∧ 4 ≤ res.nsym ∧ res.nsym ≤ 14 ∧ 1 ≤ res.nprb ∧ res.nprb ≤ 16 ∧ (res.qm = 1 ∨ res.qm = 2)

/-- Row of format 4 (R124). -/
abbrev LegalFormat4 (res : PucchRes) : Prop :=
  res.fmt = 4 ∧ 4 ≤ res.nsym ∧ res.nsym ≤ 14 ∧ res.nprb = 1 ∧ (res.qm = 1 ∨ res.qm = 2) ∧ (res.sf = 2 ∨ res.sf = 4)

/-- What CSR 0 to CSR 25 read as, in index order; the others read 0 (R23, R27, R38). -/
def csrValues (s : State) : List Word :=
  [s.cmd, (match s.life with | .uninit => 0 | .noCarrier => 1 | .ready => 2) + (if s.polarValid then 4 else 0),
    s.resp.r0, s.resp.r1, s.resp.r2, s.resp.r3, s.resp.r4, 0,
    s.arg.a0, s.arg.a1, s.arg.a2, s.arg.a3, s.arg.a4, s.arg.a5, s.arg.a6, s.arg.a7,
    s.thr1, s.thrb, s.carrier, BitVec.ofNat 32 s.capA, BitVec.ofNat 32 s.capE,
    BitVec.ofNat 32 s.polarK, BitVec.ofNat 32 s.polarE, BitVec.ofNat 32 s.polarN, s.crc6, s.crc11]

/-- One element of a buffer takes a value and every other keeps its own (R61, R62). -/
abbrev Buf.stores {α : Type} (b b' : Buf α) (i : Nat) (v : α) : Prop :=
  Buf.read b' i = some v ∧ ∀ k, k ≠ i → Buf.read b' k = Buf.read b k

/-- The step gives HOST the word, consumes the read and changes nothing else. -/
abbrev ReadGives (s : State) (rest : List HostAct) (w : Word) : Prop :=
  step s = .next { s with host := rest, seen := .word w :: s.seen }

/-- The step gives HOST the word of an arbitrary value: the model's count of them goes up by one (R33, log 3). -/
abbrev ReadGivesArbitrary (s : State) (rest : List HostAct) (w : Word) : Prop :=
  step s = .next { s with host := rest, seen := .word w :: s.seen, freeCount := s.freeCount + 1 }

/-- The VAL elements a command of the context leaves as they were, when it writes a payload and the valid flag
(R242, R68). -/
def ValFrame (cfg : UciCfg) (ch : Chan) (m m' : Memory) : Prop :=
  match ch with
  | .pucch _ =>
    Buf.agreeFrom m.valAck m'.valAck cfg.oAck ∧ Buf.agreeFrom m.valCsi1 m'.valCsi1 cfg.oCsi1 ∧
    (cfg.sr = false → Buf.read m'.valMisc 0 = Buf.read m.valMisc 0) ∧ Buf.agreeFrom m.valMisc m'.valMisc 2
  | .puschAck _ =>
    Buf.agreeFrom m.valAck m'.valAck cfg.oAck ∧ m'.valCsi1 = m.valCsi1 ∧
    Buf.read m'.valMisc 0 = Buf.read m.valMisc 0 ∧ Buf.agreeFrom m.valMisc m'.valMisc 2
  | .puschCsi1 _ =>
    m'.valAck = m.valAck ∧ Buf.agreeFrom m.valCsi1 m'.valCsi1 cfg.oCsi1 ∧
    Buf.read m'.valMisc 0 = Buf.read m.valMisc 0 ∧ Buf.agreeFrom m.valMisc m'.valMisc 2

/-- An element an encode of the context reads, in a VAL space, is unspecified (R242, R33). -/
def EncodeReadUnspecified (cfg : UciCfg) (ch : Chan) (m : Memory) (sp : Space) : Prop :=
  (sp = .valAck ∧ (∀ p, ch ≠ .puschCsi1 p) ∧ ∃ k, k < cfg.oAck ∧ Buf.read m.valAck k = none) ∨
  (sp = .valCsi1 ∧ (∀ p, ch ≠ .puschAck p) ∧ ∃ k, k < cfg.oCsi1 ∧ Buf.read m.valCsi1 k = none) ∨
  (sp = .valMisc ∧ (∃ res, ch = .pucch res) ∧ cfg.sr = true ∧ Buf.read m.valMisc 0 = none)

/-- An element a decode reads is unspecified: an LLR below the coded length of its context (R244, R33). -/
def DecodeReadUnspecified (c : Config) (cfg : UciCfg) (ch : Chan) (m : Memory) : Prop :=
  ∃ E, codedLength c cfg ch = .ok E ∧ ∃ k, k < E ∧ Buf.read m.llr k = none

/-- Two memories hold the same in the VAL elements an encode of the context reads (R242). -/
def EncodeReadsAgree (cfg : UciCfg) (ch : Chan) (m m' : Memory) : Prop :=
  ((∀ p, ch ≠ .puschCsi1 p) → ∀ k, k < cfg.oAck → Buf.read m'.valAck k = Buf.read m.valAck k) ∧
  ((∀ p, ch ≠ .puschAck p) → ∀ k, k < cfg.oCsi1 → Buf.read m'.valCsi1 k = Buf.read m.valCsi1 k) ∧
  ((∃ res, ch = .pucch res) → cfg.sr = true → Buf.read m'.valMisc 0 = Buf.read m.valMisc 0)

/-- Two memories hold the same in the LLRs a decode of the context reads (R244). -/
def DecodeReadsAgree (c : Config) (cfg : UciCfg) (ch : Chan) (m m' : Memory) : Prop :=
  ∀ E, codedLength c cfg ch = .ok E → ∀ k, k < E → Buf.read m'.llr k = Buf.read m.llr k

/-- Two memories hold the same in every buffer element a command reads (R68). -/
def ReadsAgree (c : Config) (i : Instr) (m m' : Memory) : Prop :=
  match i with
  | .encPucch cfg res => EncodeReadsAgree cfg (.pucch res) m m'
  | .decPucch cfg res => DecodeReadsAgree c cfg (.pucch res) m m'
  | .encPuschAck cfg p => EncodeReadsAgree cfg (.puschAck p) m m'
  | .decPuschAck cfg p => DecodeReadsAgree c cfg (.puschAck p) m m'
  | .encPuschCsi1 cfg p => EncodeReadsAgree cfg (.puschCsi1 p) m m'
  | .decPuschCsi1 cfg p => DecodeReadsAgree c cfg (.puschCsi1 p) m m'
  | .init _ _ => True
  | .free => True
  | .setCarrier _ _ => True
  | .qTotal _ => True
  | .qCrcLen _ => True
  | .qPucchE _ => True
  | .qPuschAckE _ _ => True
  | .qPuschCsi1E _ _ => True

/-- An element was left alone by both commands, or both left the same in it. -/
abbrev Buf.sameEffect {α : Type} (b b' t t' : Buf α) : Prop :=
  ∀ k, (Buf.read t k = Buf.read b k ∧ Buf.read t' k = Buf.read b' k) ∨ Buf.read t' k = Buf.read t k

/-- Two commands had the same effect on every buffer space. -/
structure SameEffect (m m' t t' : Memory) : Prop where
  valAck : Buf.sameEffect m.valAck m'.valAck t.valAck t'.valAck
  valCsi1 : Buf.sameEffect m.valCsi1 m'.valCsi1 t.valCsi1 t'.valCsi1
  valMisc : Buf.sameEffect m.valMisc m'.valMisc t.valMisc t'.valMisc
  cod : Buf.sameEffect m.cod m'.cod t.cod t'.cod
  llr : Buf.sameEffect m.llr m'.llr t.llr t'.llr
  bitSequence : Buf.sameEffect m.bitSequence m'.bitSequence t.bitSequence t'.bitSequence
  crcWord : Buf.sameEffect m.c m'.c t.c t'.c
  allocated : Buf.sameEffect m.allocated m'.allocated t.allocated t'.allocated
  d : Buf.sameEffect m.d m'.d t.d t'.d

/-- A buffer that holds a sequence's noiseless LLRs of magnitude M: +M for 1, -M for 0 (R175). -/
abbrev HoldsNoiseless (cod : Buf Bool) (llr : Buf Int) (E : Nat) (M : Int) : Prop :=
  ∀ k, k < E → ∃ b, Buf.read cod k = some b ∧ Buf.read llr k = some (if b then M else -M)

end Sys2Proof.Machine
end

