-- ==== Sys2Proof/Certificates/Slice0/Obligations.lean ====
section
/-! DEFINITION. The statements for the provers, each from a numbered rule of the spec. Those about the machine's own
commands are stated of `exec`; those that rest on the properties the spec asks of the Polar engine are stated of `execIn c`
for every configuration record c that has them, the machine's own among them (`exec` is `execIn config`; the last
statement says that `config` has them). `encodeInstr cfg ch` is ENC_PUCCH, ENC_PUSCH_ACK or ENC_PUSCH_CSI1 by the context ch, and
`decodeInstr cfg ch` is DEC_PUCCH, DEC_PUSCH_ACK or DEC_PUSCH_CSI1. -/

open Sys2Proof Sys2Proof.Machine

/-! Frames. -/

/-- Every instruction whose fields fit their slices is read back from its frame. -/
def Obligations.DecodeReadsBackEveryEncoding : Prop :=
  ∀ i : Instr, i.WellFormed → decode (encode i) = .ok i

/-- The frame decoder, row by row, with every field and every reserved slice by its bit numbers (R100). -/
def Obligations.DecodeFollowsTheFrameTable : Prop :=
  ∀ (h : Word) (a : Args),
    (bitsOf h 31 4 ≠ 0 → IllegalFrame h a) ∧
    (h = 0 → IllegalFrame h a) ∧
    (h = 1 → decode ⟨h, a⟩ = .ok (.init a.a0 a.a1)) ∧
    (h = 2 → decode ⟨h, a⟩ = .ok .free) ∧
    (h = 3 → if bitsOf a.a0 31 12 ≠ 0 then IllegalFrame h a
      else decode ⟨h, a⟩ = .ok (.setCarrier (bitsOf a.a0 2 0) (bitsOf a.a0 11 3))) ∧
    (h = 4 → if reservedP a then IllegalFrame h a
      else decode ⟨h, a⟩ = .ok (.encPucch (uciCfgFields a.a0) (pucchResFields a.a1))) ∧
    (h = 5 → if reservedP a then IllegalFrame h a
      else decode ⟨h, a⟩ = .ok (.decPucch (uciCfgFields a.a0) (pucchResFields a.a1))) ∧
    (h = 6 → if reservedS a then IllegalFrame h a
      else decode ⟨h, a⟩ = .ok (.encPuschAck (uciCfgFields a.a0) (puschCfgFields a.a1 a.a2 a.a3 a.a4))) ∧
    (h = 7 → if reservedS a then IllegalFrame h a
      else decode ⟨h, a⟩ = .ok (.decPuschAck (uciCfgFields a.a0) (puschCfgFields a.a1 a.a2 a.a3 a.a4))) ∧
    (h = 8 → if reservedS a then IllegalFrame h a
      else decode ⟨h, a⟩ = .ok (.encPuschCsi1 (uciCfgFields a.a0) (puschCfgFields a.a1 a.a2 a.a3 a.a4))) ∧
    (h = 9 → if reservedS a then IllegalFrame h a
      else decode ⟨h, a⟩ = .ok (.decPuschCsi1 (uciCfgFields a.a0) (puschCfgFields a.a1 a.a2 a.a3 a.a4))) ∧
    (h = 10 → if bitsOf a.a0 31 23 ≠ 0 then IllegalFrame h a
      else decode ⟨h, a⟩ = .ok (.qTotal (uciCfgFields a.a0))) ∧
    (h = 11 → decode ⟨h, a⟩ = .ok (.qCrcLen a.a0.toNat)) ∧
    (h = 12 → if bitsOf a.a1 31 17 ≠ 0 then IllegalFrame h a
      else decode ⟨h, a⟩ = .ok (.qPucchE (pucchResFields a.a1))) ∧
    (h = 13 → if reservedS a then IllegalFrame h a
      else decode ⟨h, a⟩ = .ok (.qPuschAckE (uciCfgFields a.a0) (puschCfgFields a.a1 a.a2 a.a3 a.a4))) ∧
    (h = 14 → if reservedS a then IllegalFrame h a
      else decode ⟨h, a⟩ = .ok (.qPuschCsi1E (uciCfgFields a.a0) (puschCfgFields a.a1 a.a2 a.a3 a.a4))) ∧
    (h = 15 → IllegalFrame h a)

/-- A frame that decodes gives a well-formed instruction whose encoding has the frame's header and its operand words: no
bit of a legal frame is dropped. -/
def Obligations.DecodedFramesEncodeBack : Prop :=
  ∀ (f : Frame) (i : Instr), decode f = .ok i →
    i.WellFormed ∧ (encode i).h = f.h ∧ ∀ k, k ∈ operandIndices i → (encode i).arg.get k = f.arg.get k

/-- Frames of section 2.1 of the test vectors decode to the statements beside them, and an illegal one does not. -/
def Obligations.SampleFramesDecode : Prop :=
  decode ⟨1, { Args.zero with a0 := 0xFFFFFFFB, a1 := 0xFFFFFFFF }⟩ = .ok (.init (-5) (-1)) ∧
  decode ⟨3, { Args.zero with a0 := 0x00000889 }⟩ = .ok (.setCarrier 1 273) ∧
  decode ⟨5, { Args.zero with a0 := 0x00000004, a1 := 0x0000210A }⟩ = .ok (.decPucch ⟨4, 0, false⟩ ⟨2, 1, 2, 2, 0⟩) ∧
  decode ⟨8, { Args.zero with
    a0 := 0x00002001, a1 := 0x00640064, a2 := 0x000003E8, a3 := 0x00A050A0, a4 := 0x00009000 }⟩ =
      .ok (.encPuschCsi1 ⟨1, 4, false⟩ ⟨100, 100, 1000, 160, 20, 10, 0, 2, 1, false⟩) ∧
  decode ⟨10, { Args.zero with a0 := 0x00403804 }⟩ = .ok (.qTotal ⟨4, 7, true⟩) ∧
  decode ⟨12, { Args.zero with a1 := 0x00002873 }⟩ = .ok (.qPucchE ⟨3, 14, 16, 2, 0⟩) ∧
  decode ⟨0x80000002, Args.zero⟩ = .error .reservedHeaderBits

/-! Steps and the host port. -/

/-- The write of CMD runs the instruction its frame decodes to, with CMD holding the header and the act taken; a frame
placed for the next step runs so. -/
def Obligations.StepRunsTheDecodedCommand : Prop :=
  (∀ (s : State) (rest : List HostAct) (h : Word) (i : Instr),
    s.host = .write 0 0 h :: rest → decode ⟨h, s.arg⟩ = .ok i → step s = exec i { s with host := rest, cmd := h }) ∧
  (∀ (s : State) (f : Frame) (i : Instr),
    decode f = .ok i → step (placeFrame f s) = exec i { s with arg := f.arg, cmd := f.h })

/-- Issue: an illegal frame raises IllegalCommand in every lifecycle state, a decoded command that the acceptance table
turns away raises Sequence, and nothing but CMD and RESP changes (R281, R282). -/
def Obligations.IssueDecodesAcceptsThenRuns : Prop :=
  ∀ (s : State) (rest : List HostAct) (h : Word), s.host = .write 0 0 h :: rest →
    let s1 := { s with host := rest, cmd := h }
    (∀ e, decode ⟨h, s.arg⟩ = .error e → step s = .next { s1 with resp := respOf s1 6 0 0 0 0 0 0 0 }) ∧
    (∀ i, decode ⟨h, s.arg⟩ = .ok i → acceptedIn i s.life = false →
      step s = .next { s1 with resp := respOf s1 5 0 0 0 0 0 0 0 }) ∧
    (∀ i, decode ⟨h, s.arg⟩ = .ok i → acceptedIn i s.life = true →
      step s = exec i s1 ∧ ∀ t, step s = .next t → errField t.resp.r0 ≠ 5 ∧ errField t.resp.r0 ≠ 6)

/-- Every step ends in a next state, or refuses a command's read of an unspecified element, or refuses a bus access that
is not an aligned 32-bit access of an element; nothing else is open (R323). -/
def Obligations.StepsAnswerOrNameTheirRefusal : Prop :=
  ∀ s : State,
    (∃ t, step s = .next t) ∨
    (∃ sp, step s = .refused (.unspecifiedElement sp) ∧ sp ∈ [Space.valAck, .valCsi1, .valMisc, .llr]) ∨
    (step s = .refused .notATransaction ∧
      ∃ rest, (∃ addr bytes, s.host = .busWrite addr bytes :: rest ∧ busElement addr bytes.length = none) ∨
        (∃ addr size, s.host = .busRead addr size :: rest ∧ busElement addr size = none))

/-- A host write of an ARG register or of an element of the five I/O spaces stores that element and nothing else
(R61, R62). -/
def Obligations.HostWritesStoreOneElement : Prop :=
  ∀ (s : State) (rest : List HostAct) (index : BitVec 16) (data : Word),
    (∀ k, k < 8 → s.host = .write 0 (BitVec.ofNat 16 (8 + k)) data :: rest →
      ∃ a, step s = .next { s with host := rest, arg := a } ∧ a.get k = data ∧
        ∀ j, j < 8 → j ≠ k → a.get j = s.arg.get j) ∧
    (s.host = .write 1 index data :: rest → index.toNat < config.aMax →
      ∃ b, step s = .next { s with host := rest, mem := { s.mem with valAck := b } } ∧
        Buf.stores s.mem.valAck b index.toNat (data.getLsbD 0)) ∧
    (s.host = .write 2 index data :: rest → index.toNat < config.aMax →
      ∃ b, step s = .next { s with host := rest, mem := { s.mem with valCsi1 := b } } ∧
        Buf.stores s.mem.valCsi1 b index.toNat (data.getLsbD 0)) ∧
    (s.host = .write 3 index data :: rest → index.toNat < 2 →
      ∃ b, step s = .next { s with host := rest, mem := { s.mem with valMisc := b } } ∧
        Buf.stores s.mem.valMisc b index.toNat (data.getLsbD 0)) ∧
    (s.host = .write 4 index data :: rest → index.toNat < config.eMax →
      ∃ b, step s = .next { s with host := rest, mem := { s.mem with cod := b } } ∧
        Buf.stores s.mem.cod b index.toNat (data.getLsbD 0)) ∧
    (s.host = .write 5 index data :: rest → index.toNat < config.eMax →
      ∃ b, step s = .next { s with host := rest, mem := { s.mem with llr := b } } ∧
        Buf.stores s.mem.llr b index.toNat (data.setWidth 8).toInt)

/-- A write to a read-only CSR or to a scratch space is ignored (R62). -/
def Obligations.ReadOnlyElementsIgnoreWrites : Prop :=
  ∀ (s : State) (rest : List HostAct) (space : BitVec 4) (index : BitVec 16) (data : Word),
    s.host = .write space index data :: rest →
    (space = 0 ∧ index ≠ 0 ∧ ¬ (8 ≤ index.toNat ∧ index.toNat ≤ 15)) ∨ space = 8 ∨ space = 9 ∨ space = 10 ∨ space = 11 →
    step s = .next { s with host := rest }

/-- A transaction to a space that does not exist, or at or above a space's element count: a write is ignored, a read gives
0, and nothing is recorded (R66). -/
def Obligations.MissingElementsAreInert : Prop :=
  ∀ (s : State) (rest : List HostAct) (space : BitVec 4) (index : BitVec 16) (data : Word),
    (space ∈ [6, 7, 12, 13, 14, 15] ∨ (space = 0 ∧ 64 ≤ index.toNat) ∨
      (space ∈ [1, 2, 8] ∧ config.aMax ≤ index.toNat) ∨ (space = 3 ∧ 2 ≤ index.toNat) ∨
      (space ∈ [4, 5] ∧ config.eMax ≤ index.toNat) ∨ (space = 9 ∧ config.aMax + 11 ≤ index.toNat) ∨
      (space ∈ [10, 11] ∧ config.nMax ≤ index.toNat)) →
    (s.host = .write space index data :: rest → step s = .next { s with host := rest }) ∧
    (s.host = .read space index :: rest → ReadGives s rest 0)

/-- A host read of a CSR gives the register's value, of a specified element the element's, a bit zero-extended and a soft
value sign-extended; it changes nothing (R62, R23, R38). -/
def Obligations.HostReadsGiveTheElement : Prop :=
  ∀ (s : State) (rest : List HostAct) (index : BitVec 16),
    (s.host = .read 0 index :: rest → index.toNat < 64 → ReadGives s rest ((csrValues s).getD index.toNat 0)) ∧
    (∀ b, s.host = .read 1 index :: rest → index.toNat < config.aMax → Buf.read s.mem.valAck index.toNat = some b →
      ReadGives s rest (if b then 1 else 0)) ∧
    (∀ b, s.host = .read 2 index :: rest → index.toNat < config.aMax → Buf.read s.mem.valCsi1 index.toNat = some b →
      ReadGives s rest (if b then 1 else 0)) ∧
    (∀ b, s.host = .read 3 index :: rest → index.toNat < 2 → Buf.read s.mem.valMisc index.toNat = some b →
      ReadGives s rest (if b then 1 else 0)) ∧
    (∀ b, s.host = .read 4 index :: rest → index.toNat < config.eMax → Buf.read s.mem.cod index.toNat = some b →
      ReadGives s rest (if b then 1 else 0)) ∧
    (∀ v, s.host = .read 5 index :: rest → index.toNat < config.eMax → Buf.read s.mem.llr index.toNat = some v →
      ReadGives s rest (BitVec.ofInt 32 v)) ∧
    (∀ b, s.host = .read 8 index :: rest → index.toNat < config.aMax → Buf.read s.mem.bitSequence index.toNat = some b →
      ReadGives s rest (if b then 1 else 0)) ∧
    (∀ b, s.host = .read 9 index :: rest → index.toNat < config.aMax + 11 → Buf.read s.mem.c index.toNat = some b →
      ReadGives s rest (if b then 1 else 0)) ∧
    (∀ b, s.host = .read 10 index :: rest → index.toNat < config.nMax → Buf.read s.mem.allocated index.toNat = some b →
      ReadGives s rest (if b then 1 else 0)) ∧
    (∀ v, s.host = .read 11 index :: rest → index.toNat < config.nMax → Buf.read s.mem.d index.toNat = some v →
      ReadGives s rest (BitVec.ofInt 32 v))

/-- STATUS shows the lifecycle state in bits 1:0, never 3, the Polar context's valid bit in bit 2, and zero above (R27). -/
def Obligations.StatusShowsLifeAndPolarValid : Prop :=
  ∀ s : State,
    bitsOf (csrRead s 1) 1 0 = (match s.life with | .uninit => 0 | .noCarrier => 1 | .ready => 2) ∧
    bitsOf (csrRead s 1) 1 0 ≠ 3 ∧ (csrRead s 1).getLsbD 2 = s.polarValid ∧ bitsOf (csrRead s 1) 31 3 = 0

/-- A write of an ARG register or of an I/O element followed by a read of it gives HOST what the element stored: the whole
word, bit 0, or the sign-extended low 8 bits of an LLR (R62). -/
def Obligations.WrittenElementsReadBack : Prop :=
  ∀ (s : State) (rest : List HostAct) (space : BitVec 4) (index : BitVec 16) (data : Word),
    s.host = .write space index data :: .read space index :: rest →
    (space = 0 ∧ 8 ≤ index.toNat ∧ index.toNat ≤ 15 →
      ∃ t, Host.Core.run Sys2Proof.core 2 s = .next t ∧ t.host = rest ∧ t.seen = .word data :: s.seen) ∧
    ((space = 1 ∧ index.toNat < config.aMax) ∨ (space = 2 ∧ index.toNat < config.aMax) ∨
        (space = 3 ∧ index.toNat < 2) ∨ (space = 4 ∧ index.toNat < config.eMax) →
      ∃ t, Host.Core.run Sys2Proof.core 2 s = .next t ∧ t.host = rest ∧ t.seen = .word (data &&& 1) :: s.seen) ∧
    (space = 5 ∧ index.toNat < config.eMax →
      ∃ t, Host.Core.run Sys2Proof.core 2 s = .next t ∧ t.host = rest ∧
        t.seen = .word ((data.setWidth 8).signExtend 32) :: s.seen)

/-- A host read of an unspecified element gives some value of the element's type: a bit, an 8-bit or a 16-bit signed
integer. Which one is free, for every value of the model's count (R33, log 3). -/
def Obligations.UnspecifiedReadsKeepTheElementType : Prop :=
  ∀ (s : State) (rest : List HostAct) (index : BitVec 16),
    (s.host = .read 1 index :: rest → index.toNat < config.aMax → Buf.read s.mem.valAck index.toNat = none →
      ReadGivesArbitrary s rest 0 ∨ ReadGivesArbitrary s rest 1) ∧
    (s.host = .read 2 index :: rest → index.toNat < config.aMax → Buf.read s.mem.valCsi1 index.toNat = none →
      ReadGivesArbitrary s rest 0 ∨ ReadGivesArbitrary s rest 1) ∧
    (s.host = .read 3 index :: rest → index.toNat < 2 → Buf.read s.mem.valMisc index.toNat = none →
      ReadGivesArbitrary s rest 0 ∨ ReadGivesArbitrary s rest 1) ∧
    (s.host = .read 4 index :: rest → index.toNat < config.eMax → Buf.read s.mem.cod index.toNat = none →
      ReadGivesArbitrary s rest 0 ∨ ReadGivesArbitrary s rest 1) ∧
    (s.host = .read 5 index :: rest → index.toNat < config.eMax → Buf.read s.mem.llr index.toNat = none →
      ∃ v : Int, -128 ≤ v ∧ v ≤ 127 ∧ ReadGivesArbitrary s rest (BitVec.ofInt 32 v)) ∧
    (s.host = .read 8 index :: rest → index.toNat < config.aMax → Buf.read s.mem.bitSequence index.toNat = none →
      ReadGivesArbitrary s rest 0 ∨ ReadGivesArbitrary s rest 1) ∧
    (s.host = .read 9 index :: rest → index.toNat < config.aMax + 11 → Buf.read s.mem.c index.toNat = none →
      ReadGivesArbitrary s rest 0 ∨ ReadGivesArbitrary s rest 1) ∧
    (s.host = .read 10 index :: rest → index.toNat < config.nMax → Buf.read s.mem.allocated index.toNat = none →
      ReadGivesArbitrary s rest 0 ∨ ReadGivesArbitrary s rest 1) ∧
    (s.host = .read 11 index :: rest → index.toNat < config.nMax → Buf.read s.mem.d index.toNat = none →
      ∃ v : Int, -32768 ≤ v ∧ v ≤ 32767 ∧ ReadGivesArbitrary s rest (BitVec.ofInt 32 v))

/-- On a byte-addressed wrapper an aligned 32-bit access at (space << 20) | (index << 2) is the transaction of that
element, little-endian; an access of another size, or misaligned, is refused (R64, R65). -/
def Obligations.BusAccessesAreWordTransactions : Prop :=
  ∀ (s : State) (rest : List HostAct) (space : BitVec 4) (index : BitVec 16),
    let addr : BitVec 24 := (space.setWidth 24 <<< 20) ||| (index.setWidth 24 <<< 2)
    (∀ b0 b1 b2 b3 : Byte, s.host = .busWrite addr [b0, b1, b2, b3] :: rest →
      step s = step { s with host := .write space index (b3 ++ b2 ++ b1 ++ b0) :: rest }) ∧
    (s.host = .busRead addr 4 :: rest →
      ∃ (t : State) (w : Word), step { s with host := .read space index :: rest } = .next t ∧
        t.seen = .word w :: s.seen ∧
        step s = .next { t with seen := .bytes [w.extractLsb 7 0, w.extractLsb 15 8, w.extractLsb 23 16,
          w.extractLsb 31 24] :: s.seen }) ∧
    (∀ (a : BitVec 24) (size : Nat), size ≠ 4 ∨ a.toNat % 4 ≠ 0 → s.host = .busRead a size :: rest →
      step s = .refused .notATransaction) ∧
    (∀ (a : BitVec 24) (bytes : List Byte), bytes.length ≠ 4 ∨ a.toNat % 4 ≠ 0 → s.host = .busWrite a bytes :: rest →
      step s = .refused .notATransaction)

/-- The reset state, and the state any hardware reset leaves: UNINIT, every CSR reads 0, every element of the nine buffer
spaces is unspecified; until HOST writes CMD the block stays UNINIT, no CSR but ARG0 to ARG7 takes a value and no scratch
element does (R40). HOST's data and the count of arbitrary values, which are not the block's, survive (log 13). -/
def Obligations.ResetClearsEverything : Prop :=
  let cleared := fun t : State => t.life = .uninit ∧ (∀ i, csrRead t i = 0) ∧
    (∀ k, Buf.read t.mem.valAck k = none ∧ Buf.read t.mem.valCsi1 k = none ∧ Buf.read t.mem.valMisc k = none ∧
      Buf.read t.mem.cod k = none ∧ Buf.read t.mem.llr k = none ∧ Buf.read t.mem.bitSequence k = none ∧
      Buf.read t.mem.c k = none ∧ Buf.read t.mem.allocated k = none ∧ Buf.read t.mem.d k = none)
  cleared State.reset ∧ step State.reset = .next State.reset ∧
  (∀ (s : State) (rest : List HostAct), s.host = .reset :: rest →
    ∃ t, step s = .next t ∧ t.host = rest ∧ t.seen = s.seen ∧ t.freeCount = s.freeCount ∧ cleared t) ∧
  ∀ s t : State, s.life = .uninit → (∀ i, i < 8 ∨ 15 < i → csrRead s i = 0) →
    (∀ k, Buf.read s.mem.bitSequence k = none ∧ Buf.read s.mem.c k = none ∧ Buf.read s.mem.allocated k = none ∧
      Buf.read s.mem.d k = none) →
    (∀ h rest, s.host ≠ .write 0 0 h :: rest) → (∀ bytes rest, s.host ≠ .busWrite 0 bytes :: rest) →
    step s = .next t →
    t.life = .uninit ∧ (∀ i, i < 8 ∨ 15 < i → csrRead t i = 0) ∧
      ∀ k, Buf.read t.mem.bitSequence k = none ∧ Buf.read t.mem.c k = none ∧ Buf.read t.mem.allocated k = none ∧
        Buf.read t.mem.d k = none

/-- A statement of UCI-ASM, performed write by write, runs its instruction with its operand words in the ARG registers of
its format and every other ARG register as it was (R103). -/
def Obligations.AssembledStatementsRun : Prop :=
  ∀ (s : State) (rest : List HostAct) (i : Instr), i.WellFormed → s.host = assemble i ++ rest →
    ∃ a : Args, (∀ k, k ∈ operandIndices i → a.get k = (encode i).arg.get k) ∧
      (∀ k, k < 8 → k ∉ operandIndices i → a.get k = s.arg.get k) ∧
      Host.Core.run Sys2Proof.core (assemble i).length s = exec i { s with host := rest, arg := a, cmd := (encode i).h }

/-! Session commands. -/

/-- INIT in UNINIT latches both thresholds and both CRC contexts, makes the scratch spaces unspecified, enters NO_CARRIER,
and leaves everything else (R238). The generators 0x61 and 0xE21 are the default POLY6 and POLY11, reference values the
spec supplies from general knowledge (R152, log 7). -/
def Obligations.InitLatchesTheSession : Prop :=
  ∀ (s : State) (thr1 thrb : Word), s.life = .uninit →
    exec (.init thr1 thrb) s = .next { s with
      life := .noCarrier, thr1 := thr1, thrb := thrb, crc6 := 0x61, crc11 := 0xE21
      mem := { s.mem with bitSequence := [], c := [], allocated := [], d := [] }
      resp := respOf s 0 1 0 0 0 0 0 0 }

/-- FREE in NO_CARRIER or READY clears the session registers and the Polar context, makes the scratch spaces unspecified,
enters UNINIT, and leaves the operand registers and the five I/O spaces (R239). -/
def Obligations.FreeReleasesTheSession : Prop :=
  ∀ s : State, s.life ≠ .uninit →
    exec .free s = .next { s with
      life := .uninit, thr1 := 0, thrb := 0, crc6 := 0, crc11 := 0, carrier := 0, capA := 0, capE := 0
      polarValid := false, polarK := 0, polarE := 0, polarN := 0
      mem := { s.mem with bitSequence := [], c := [], allocated := [], d := [] }
      resp := respOf s 0 1 0 0 0 0 0 0 }

/-- SETCARRIER with a session and a legal carrier stores ARG0 and the default capacities 1706 and 8192, clears the Polar
context and the scratch spaces and enters READY; an illegal carrier is InvalidConfig and changes nothing but RESP
(R240, R241). -/
def Obligations.SetCarrierSetsOrRejectsTheCarrier : Prop :=
  ∀ (s : State) (mu nprb : Nat), s.life ≠ .uninit →
    (legalCarrier mu nprb → exec (.setCarrier mu nprb) s = .next { s with
      life := .ready, carrier := s.arg.a0, capA := 1706, capE := 8192
      polarValid := false, polarK := 0, polarE := 0, polarN := 0
      mem := { s.mem with bitSequence := [], c := [], allocated := [], d := [] }
      resp := respOf s 0 1 0 0 0 0 0 0 }) ∧
    (¬ legalCarrier mu nprb → exec (.setCarrier mu nprb) s = .next { s with resp := respOf s 2 0 0 0 0 0 0 0 })

/-- The lifecycle state after any command, for any configuration record, and after a hardware reset, is the one of the
transition table: INIT, SETCARRIER and FREE move it where they succeed, every other command and every rejected one leaves
it (R236). -/
def Obligations.LifecycleFollowsTheTable : Prop :=
  (∀ (c : Config) (i : Instr) (s t : State), execIn c i s = .next t →
    t.life = lifeAfter i (decide (completedOk t.resp)) s.life) ∧
  (∀ (i : Instr) (s t : State), exec i s = .next t → t.life = lifeAfter i (decide (completedOk t.resp)) s.life) ∧
  (∀ (s t : State) (rest : List HostAct), s.host = .reset :: rest → step s = .next t → t.life = .uninit)

/-- A command the acceptance table turns away answers Sequence and changes nothing else; one it accepts never answers
Sequence (R237). -/
def Obligations.AcceptanceFollowsTheTable : Prop :=
  ∀ (i : Instr) (s : State),
    (acceptedIn i s.life = false → exec i s = .next { s with resp := respOf s 5 0 0 0 0 0 0 0 }) ∧
    (acceptedIn i s.life = true → ∀ t, exec i s = .next t → errField t.resp.r0 ≠ 5)

/-! The response. -/

/-- Every command overwrites all five response registers: the next state is the same whatever they held. RESP0: the opcode
field is CMD[3:0], bits 31:16 are zero, `err` is at most 5, `path` at most 4, `crc_len` one of 0, 6, 11, and `rel` is 1
exactly when `err` is 0. RESP1 and RESP2: the coded length and the payload length of a codec command that passed
validation, 0 after a rejection and after a session command. RESP3 and RESP4: 0 but for a small-block decode (R28, R29). -/
def Obligations.EveryCommandWritesAWholeResponse : Prop :=
  ∀ (i : Instr) (s t : State), exec i s = .next t →
    (∀ r : Resp, exec i { s with resp := r } = .next t) ∧
    (bitsOf t.resp.r0 15 12 = bitsOf s.cmd 3 0 ∧ bitsOf t.resp.r0 31 16 = 0 ∧ bitsOf t.resp.r0 3 0 ≤ 5 ∧
      bitsOf t.resp.r0 7 5 ≤ 4 ∧ bitsOf t.resp.r0 11 8 ∈ [0, 6, 11] ∧
      (t.resp.r0.getLsbD 4 = true ↔ bitsOf t.resp.r0 3 0 = 0)) ∧
    (∀ cfg ch, (i = encodeInstr cfg ch ∨ i = decodeInstr cfg ch) → ¬ rejected t.resp →
      ∃ E, codedLength config cfg ch = .ok E ∧ t.resp.r1 = BitVec.ofNat 32 E ∧
        t.resp.r2 = BitVec.ofNat 32 (payloadLength cfg ch)) ∧
    (rejected t.resp ∨ (∃ thr1 thrb, i = .init thr1 thrb) ∨ i = .free ∨ (∃ mu nprb, i = .setCarrier mu nprb) →
      t.resp.r1 = 0 ∧ t.resp.r2 = 0) ∧
    (rejected t.resp ∨ bitsOf t.resp.r0 7 5 = 4 ∨ (∀ cfg ch, i ≠ decodeInstr cfg ch) →
      t.resp.r3 = 0 ∧ t.resp.r4 = 0)

/-- A rejection writes RESP, with every field but `err` and `opc` zero, and leaves everything else of the state
(R283, R284). -/
def Obligations.RejectionsLeaveTheState : Prop :=
  ∀ (i : Instr) (s t : State), exec i s = .next t → rejected t.resp →
    t = { s with resp := respOf s (errField t.resp.r0) 0 0 0 0 0 0 0 }

/-- A command ends only in the errors its row of the table has (R291). -/
def Obligations.CommandsEndInTheirOwnErrors : Prop :=
  ∀ (i : Instr) (s t : State), exec i s = .next t → errField t.resp.r0 ∈ possibleErrors i

/-- No command writes an operand register or CMD, or touches what HOST has to do and has been given (R24). -/
def Obligations.CommandsKeepTheOperandRegisters : Prop :=
  ∀ (i : Instr) (s t : State), exec i s = .next t →
    t.arg = s.arg ∧ t.cmd = s.cmd ∧ t.host = s.host ∧ t.seen = s.seen ∧ t.freeCount = s.freeCount

/-- A command refuses only to read an unspecified element it needs: a VAL element of its context for an encode, an LLR
below its coded length for a decode, in READY (R33). -/
def Obligations.RefusalsNameAnUnspecifiedElement : Prop :=
  ∀ (i : Instr) (s : State) (r : Refusal), exec i s = .refused r → s.life = .ready ∧
    ∃ cfg ch,
      (i = encodeInstr cfg ch ∧ ∃ sp, r = .unspecifiedElement sp ∧ EncodeReadUnspecified cfg ch s.mem sp) ∨
      (i = decodeInstr cfg ch ∧ r = .unspecifiedElement .llr ∧ DecodeReadUnspecified config cfg ch s.mem)

/-- A codec command in READY whose every needed element is specified answers a next state, whatever its operands are
(R314). -/
def Obligations.SuppliedCodecCommandsAnswer : Prop :=
  ∀ (cfg : UciCfg) (ch : Chan) (s : State), s.life = .ready →
    ((∀ sp, ¬ EncodeReadUnspecified cfg ch s.mem sp) → ∃ t, exec (encodeInstr cfg ch) s = .next t) ∧
    (¬ DecodeReadUnspecified config cfg ch s.mem → ∃ t, exec (decodeInstr cfg ch) s = .next t)

/-! Queries. -/

/-- Q_TOTAL, in every state: the sum of the three fields, at most 4095 for the fields of a frame, OK, and nothing else
changes (R121, R131). -/
def Obligations.QTotalRespondsWithTheSum : Prop :=
  ∀ (s : State) (cfg : UciCfg),
    exec (.qTotal cfg) s = .next { s with
      resp := respOf s 0 1 0 0 (BitVec.ofNat 32 (cfg.oAck + cfg.oCsi1 + if cfg.sr then 1 else 0)) 0 0 0 } ∧
    (cfg.WellFormed → cfg.oAck + cfg.oCsi1 + (if cfg.sr then 1 else 0) ≤ 4095)

/-- Q_CRCLEN, in every state: 0, 6 or 11 by the boundaries 11/12 and 19/20 (R132, R125). -/
def Obligations.QCrcLenRespondsWithTheCrcLength : Prop :=
  ∀ (s : State) (a : Nat),
    (a ≤ 11 → exec (.qCrcLen a) s = .next { s with resp := respOf s 0 1 0 0 0 (BitVec.ofNat 32 a) 0 0 }) ∧
    (12 ≤ a → a ≤ 19 → exec (.qCrcLen a) s = .next { s with resp := respOf s 0 1 0 6 6 (BitVec.ofNat 32 a) 0 0 }) ∧
    (20 ≤ a → exec (.qCrcLen a) s = .next { s with resp := respOf s 0 1 0 11 11 (BitVec.ofNat 32 a) 0 0 })

/-- Q_PUCCH_E, in every state: the default length table row by row, InvalidResource outside it (R133, R124). -/
def Obligations.QPucchERespondsByTheTable : Prop :=
  ∀ (s : State) (res : PucchRes),
    let found := fun E : Nat => Host.Outcome.next { s with resp := respOf s 0 1 0 0 (BitVec.ofNat 32 E) 0 0 0 }
    (LegalFormat2 res → exec (.qPucchE res) s = found (16 * res.nsym * res.nprb)) ∧
    (LegalFormat3 res → exec (.qPucchE res) s = found (12 * res.qm * res.nsym * res.nprb)) ∧
    (LegalFormat4 res → exec (.qPucchE res) s = found (12 * res.qm * res.nsym / res.sf)) ∧
    (¬ LegalFormat2 res → ¬ LegalFormat3 res → ¬ LegalFormat4 res →
      exec (.qPucchE res) s = .next { s with resp := respOf s 1 0 0 0 0 0 0 0 })

/-- Q_PUSCH_ACK_E, in every state: the default formula where the fields are legal and the length is positive and within
the allocation, else InvalidConfig (R134, R126, R128). -/
def Obligations.QPuschAckERespondsByTheFormula : Prop :=
  ∀ (s : State) (cfg : UciCfg) (p : PuschCfg),
    let L := if cfg.oAck ≤ 11 then 0 else if cfg.oAck ≤ 19 then 6 else 11
    let cap := ceilDiv (p.alphaX20 * p.mL0Sum) 20
    let q1 := if 0 < p.kSum then ceilDiv ((cfg.oAck + L) * p.betaAckX8 * p.mSum) (8 * p.kSum)
      else ceilDiv ((cfg.oAck + L) * p.betaAckX8 * 1024) (8 * p.rX1024 * p.qm)
    let E := p.nLayers * p.qm * min q1 cap
    (LegalPuschFields p ∧ 1 ≤ E ∧ E ≤ p.nLayers * p.qm * p.mSum →
      exec (.qPuschAckE cfg p) s = .next { s with
        resp := respOf s 0 1 0 0 (BitVec.ofNat 32 E) (BitVec.ofNat 32 cfg.oAck) 0 0 }) ∧
    (¬ (LegalPuschFields p ∧ 1 ≤ E ∧ E ≤ p.nLayers * p.qm * p.mSum) →
      exec (.qPuschAckE cfg p) s = .next { s with resp := respOf s 2 0 0 0 0 0 0 0 })

/-- Q_PUSCH_CSI1_E, in every state: the default formula, its cap possibly not positive (R135, R126, R129). -/
def Obligations.QPuschCsi1ERespondsByTheFormula : Prop :=
  ∀ (s : State) (cfg : UciCfg) (p : PuschCfg) (E : Nat),
    let O := max 2 cfg.oAck
    let La := if O ≤ 11 then 0 else if O ≤ 19 then 6 else 11
    let L1 := if cfg.oCsi1 ≤ 11 then 0 else if cfg.oCsi1 ≤ 19 then 6 else 11
    let qa := if 0 < p.kSum then ceilDiv ((O + La) * p.betaAckX8 * p.mSum) (8 * p.kSum)
      else ceilDiv ((O + La) * p.betaAckX8 * 1024) (8 * p.rX1024 * p.qm)
    let Qa : Int := (min qa (ceilDiv (p.alphaX20 * p.mL0Sum) 20) : Nat)
    let capCsi : Int := (ceilDiv (p.alphaX20 * p.mSum) 20 : Nat) - Qa
    let q1 : Int := (if 0 < p.kSum then ceilDiv ((cfg.oCsi1 + L1) * p.betaCsi1X8 * p.mSum) (8 * p.kSum)
      else ceilDiv ((cfg.oCsi1 + L1) * p.betaCsi1X8 * 1024) (8 * p.rX1024 * p.qm) : Nat)
    let Q : Int := if 0 < p.kSum ∨ p.csi2 = true then min q1 capCsi else p.mSum - Qa
    let len : Int := p.nLayers * p.qm * Q
    (LegalPuschFields p ∧ 1 ≤ len ∧ len ≤ p.nLayers * p.qm * p.mSum ∧ len = E →
      exec (.qPuschCsi1E cfg p) s = .next { s with
        resp := respOf s 0 1 0 0 (BitVec.ofNat 32 E) (BitVec.ofNat 32 cfg.oCsi1) 0 0 }) ∧
    (¬ (LegalPuschFields p ∧ 1 ≤ len ∧ len ≤ p.nLayers * p.qm * p.mSum) →
      exec (.qPuschCsi1E cfg p) s = .next { s with resp := respOf s 2 0 0 0 0 0 0 0 })

/-! Units. -/

/-- ceilDiv is the exact ceiling of a quotient (R9). -/
def Obligations.CeilDivIsTheExactCeiling : Prop :=
  ∀ p q n : Nat, 0 < q → (ceilDiv p q ≤ n ↔ p ≤ q * n)

/-- Whatever the length formula, a PUSCH length function answers exactly the positive values within the allocation of a
legal configuration, and InvalidConfig otherwise (R126). -/
def Obligations.PuschLengthsPassTheTwoSidedGate : Prop :=
  ∀ (c : Config) (p : PuschCfg) (cfg : UciCfg) (O E : Nat),
    (puschAckOutputLength c p O = .ok E ↔
      LegalPuschFields p ∧ 0 < E ∧ c.puschAckE p O = E ∧ (E : Int) ≤ c.puschAlloc p) ∧
    (puschCsi1OutputLength c p cfg = .ok E ↔
      LegalPuschFields p ∧ 0 < E ∧ c.puschCsi1E p cfg.oCsi1 cfg.oAck = E ∧ (E : Int) ≤ c.puschAlloc p) ∧
    (∀ e, puschAckOutputLength c p O = .error e → e = .invalidConfig) ∧
    (∀ e, puschCsi1OutputLength c p cfg = .error e → e = .invalidConfig)

/-- The path is a function of the payload length alone, not defined at 0 (R243). -/
def Obligations.PathFollowsThePayloadLength : Prop :=
  ∀ A : Nat,
    (A = 0 → codePath A = none) ∧
    (A = 1 → codePath A = some .oneBit) ∧ (A = 2 → codePath A = some .twoBit) ∧
    (3 ≤ A → A ≤ 11 → codePath A = some .rm) ∧ (12 ≤ A → codePath A = some .polar)

/-- The CRC selector: no CRC to 11 bits, the CRC-6 context to 19, the CRC-11 context from 20, its length always
CrcLength; in READY, under the session's invariants, the contexts hold the generators (R151). -/
def Obligations.CrcSelectorFollowsTheBoundaries : Prop :=
  ∀ (s : State) (A : Nat),
    (A ≤ 11 → crcSelect s A = none) ∧
    (12 ≤ A → A ≤ 19 → crcSelect s A = some (s.crc6, 6)) ∧
    (20 ≤ A → crcSelect s A = some (s.crc11, 11)) ∧
    (∀ p L, crcSelect s A = some (p, L) → L = crcLength A) ∧
    (s.life = .ready → SessionInv config s → s.crc6 = config.poly6 ∧ s.crc11 = config.poly11)

/-- The reference CRC with the session's generators detects every single wrong bit of a valid word, payload or parity
(R155). -/
def Obligations.ReferenceCrcDetectsSingleBitErrors : Prop :=
  ∀ (a : List Bool) (k : Nat),
    (12 ≤ a.length → a.length ≤ 19 → k < a.length + 6 →
      refCheck 0x61 6 ((refAttach 0x61 6 a).modify k not) = false) ∧
    (20 ≤ a.length → k < a.length + 11 →
      refCheck 0xE21 11 ((refAttach 0xE21 11 a).modify k not) = false)

/-- The three small-block encoders, bit by bit, for any code tables, and their entry point by payload length; with the
default table the 1-bit code is repetition (R167, R169, R171, R172). -/
def Obligations.SmallCodewordsFollowTheTables : Prop :=
  (∀ (c : Config) (a0 : Bool) (E k : Nat), k < E → (smallEncode c [a0] E)[k]? = some (c.seq1 a0 k)) ∧
  (∀ (a0 : Bool) (E : Nat), smallEncode config [a0] E = List.replicate E a0) ∧
  (∀ (c : Config) (a0 a1 : Bool) (E k : Nat), k < E →
    (smallEncode c [a0, a1] E)[k]? = some (xor (c.g2 (k % 3) 0 && a0) (c.g2 (k % 3) 1 && a1))) ∧
  (∀ (c : Config) (a : List Bool) (E k : Nat), 3 ≤ a.length → a.length ≤ 11 → k < E →
    (smallEncode c a E)[k]? = some (decide (
      ((List.range a.length).countP (fun n => a.getD n false && c.rmBasis (k % 32) n)) % 2 = 1))) ∧
  (∀ (c : Config) (a : List Bool) (E : Nat), (smallEncode c a E).length = E)

/-- The 1-bit decision: the weighted sum against the threshold, strictly, always reliable, never an error
(R177, R178, R181). -/
def Obligations.OneBitDecisionComparesTheSum : Prop :=
  ∀ (c : Config) (llr : List Int) (E : Nat) (thr1 thrb : Int), llr.length = E →
    let T1 := ((List.range E).map (fun k => (if c.seq1 true k then 1 else -1) * llr.getD k 0)).sum
    let den := ((List.range E).map (fun k => (llr.getD k 0).natAbs)).sum
    let above := if c.oneBitAvg then thr1 * E < T1 else thr1 < T1
    smallDecode c 1 llr E thr1 thrb = { aHat := [decide above], rel := true, err := .ok, num := T1, den := den }

/-- The block decision: the lowest candidate of greatest correlation, accepted when num · 2^15 > thrb · den, the payload
returned either way (R173, R179, R180, R181, R183, R184). -/
def Obligations.BlockDecisionTakesTheLowestBestCandidate : Prop :=
  ∀ (c : Config) (A : Nat) (llr : List Int) (E : Nat) (thr1 thrb : Int), 2 ≤ A → A ≤ 11 → llr.length = E →
    let payload := fun g : Nat => (List.range A).map (fun n => g.testBit n)
    let corrOf := fun g : Nat =>
      ((List.range E).map (fun k => (if (smallEncode c (payload g) E).getD k false then 1 else -1) * llr.getD k 0)).sum
    let den := ((List.range E).map (fun k => (llr.getD k 0).natAbs)).sum
    ∃ best, best < 2 ^ A ∧ (∀ g, g < 2 ^ A → corrOf g ≤ corrOf best) ∧ (∀ g, g < best → corrOf g < corrOf best) ∧
      (corrOf best * 32768 > thrb * den →
        smallDecode c A llr E thr1 thrb =
          { aHat := payload best, rel := true, err := .ok, num := corrOf best, den := den }) ∧
      (¬ corrOf best * 32768 > thrb * den →
        smallDecode c A llr E thr1 thrb =
          { aHat := payload best, rel := false, err := .lowConfidence, num := corrOf best, den := den })

/-- With the default tables the best correlation is never negative (R182). -/
def Obligations.BestCorrelationIsNotNegative : Prop :=
  ∀ (A : Nat) (llr : List Int) (E : Nat) (thr1 thrb : Int), 2 ≤ A → A ≤ 11 → llr.length = E →
    0 ≤ (smallDecode config A llr E thr1 thrb).num

/-- The statistic and the magnitude sum of E soft values of LLR_W bits are at most 2^(LLR_W-1) · E, so they fit the signed
32-bit response registers (R190). -/
def Obligations.DecisionValuesFitTheirRegisters : Prop :=
  ∀ (c : Config) (A : Nat) (llr : List Int) (E : Nat) (thr1 thrb : Int), ConfigLegal c →
    1 ≤ A → A ≤ 11 → llr.length = E → E ≤ c.eMax → (∀ v ∈ llr, inSigned c.llrW v) →
    let r := smallDecode c A llr E thr1 thrb
    r.num.natAbs ≤ 2 ^ (c.llrW - 1) * E ∧ r.den ≤ 2 ^ (c.llrW - 1) * E ∧ 2 ^ (c.llrW - 1) * E < 2 ^ 31

/-- All LLRs zero, at least one of them: the 1-bit path gives the bit 0 > thr1, whether its statistic is the sum or the
average, the block paths the all-zero payload flagged LowConfidence (R191; E = 0 is outside the decoder's domain, R184). -/
def Obligations.SilenceIsDecidedByTheThreshold : Prop :=
  ∀ (c : Config) (A E : Nat) (thr1 thrb : Int), 1 ≤ A → A ≤ 11 → 1 ≤ E →
    let r := smallDecode c A (List.replicate E 0) E thr1 thrb
    (A = 1 → r = { aHat := [decide (thr1 < 0)], rel := true, err := .ok, num := 0, den := 0 }) ∧
    (2 ≤ A → r = { aHat := List.replicate A false, rel := false, err := .lowConfidence, num := 0, den := 0 })

/-- The acceptance test is strict: for any code tables the normalised correlation lies in [-1, 1], silence is rejected and a
threshold of 1.0 or more rejects everything; with the default tables (log 7) a negative threshold accepts everything but
silence (R183, R182). -/
def Obligations.AcceptanceTestAtItsExtremes : Prop :=
  ∀ (c : Config) (A : Nat) (llr : List Int) (E : Nat) (thr1 thrb : Int), 2 ≤ A → A ≤ 11 → llr.length = E →
    let r := smallDecode c A llr E thr1 thrb
    let rDefault := smallDecode config A llr E thr1 thrb
    (r.rel = true ↔ r.num * 32768 > thrb * r.den) ∧
    (r.num ≤ r.den ∧ -(r.den : Int) ≤ r.num) ∧
    (r.den = 0 → r.rel = false) ∧
    (32768 ≤ thrb → r.rel = false) ∧
    (thrb < 0 → 0 < rDefault.den → rDefault.rel = true)

/-- With the default tables distinct payloads of A bits have distinct codewords of E bits exactly from the bounds
2, 3, 5, 6, 11 (A = 6 to 10), 17 on (R193). -/
def Obligations.CodesAreOneToOneFromTheirBounds : Prop :=
  ∀ A E : Nat, 1 ≤ A → A ≤ 11 → 1 ≤ E → (OneToOne config A E ↔ oneToOneBound A ≤ E)

/-- The noiseless round trip of the small-block codec: every payload of 1 to 11 bits is recovered, given a threshold that
admits a noiseless codeword and a coded length that keeps the code one-to-one (R192). -/
def Obligations.SmallBlockNoiselessRoundTrip : Prop :=
  ∀ (a : List Bool) (E : Nat) (M thr1 thrb : Int), 1 ≤ a.length → a.length ≤ 11 → 1 ≤ M → oneToOneBound a.length ≤ E →
    let llr := (smallEncode config a E).map (fun b => if b then M else -M)
    let r := smallDecode config a.length llr E thr1 thrb
    (a.length = 1 → (r.aHat = a ∧ r.rel = true ∧ r.err = .ok ↔ (-(M * E) ≤ thr1 ∨ a = [true]) ∧ (thr1 < M * E ∨ a = [false]))) ∧
    (2 ≤ a.length → thrb < 32768 → r = { aHat := a, rel := true, err := .ok, num := M * E, den := (M * E).toNat })

/-! Codec commands. -/

/-- Validation, for any configuration record, in READY: the first failing check decides the error, and a failing command
changes nothing but RESP (R245, R285, R289). -/
def Obligations.ValidationRejectsInItsOrder : Prop :=
  ∀ (c : Config) (cfg : UciCfg) (ch : Chan) (s : State) (i : Instr), s.life = .ready →
    (i = encodeInstr cfg ch ∨ i = decodeInstr cfg ch) →
    let rejectedAs := fun code : Nat => execIn c i s = .next { s with resp := respOf s code 0 0 0 0 0 0 0 }
    let A := payloadLength cfg ch
    (∀ res, ch = .pucch res → c.pucchE res = none → rejectedAs 1) ∧
    ((∀ res, ch ≠ .pucch res) → (∀ E, codedLength c cfg ch ≠ .ok E) → rejectedAs 2) ∧
    (∀ E, codedLength c cfg ch = .ok E →
      s.capE < E ∨ A = 0 ∨ s.capA < A ∨ (12 ≤ A ∧ c.polar.construct (A + crcLength A) E = none) ∨
        (12 ≤ A ∧ ∃ code, c.polar.construct (A + crcLength A) E = some code ∧ c.nMax < code.N) → rejectedAs 2)

/-- An encode (ENC_PUCCH, ENC_PUSCH_ACK, ENC_PUSCH_CSI1) of 1 to 11 payload bits, in READY, with its payload in the VAL
spaces: it packs the payload into
bit_sequence, writes the E coded bits to COD, responds OK with the path, E and A, and changes nothing else
(R244, R242, R252, R68). -/
def Obligations.SmallEncodesComplete : Prop :=
  ∀ (cfg : UciCfg) (ch : Chan) (s : State) (a : List Bool) (E : Nat), s.life = .ready →
    codedLength config cfg ch = .ok E → E ≤ s.capE → 1 ≤ a.length → a.length ≤ 11 → a.length ≤ s.capA →
    HoldsPayload .ackCsi1Sr cfg ch s.mem a →
    ∃ t, exec (encodeInstr cfg ch) s = .next t ∧
      t.resp = respOf s 0 1 (pathNumber a.length) 0 (BitVec.ofNat 32 E) (BitVec.ofNat 32 a.length) 0 0 ∧
      Buf.holds t.mem.bitSequence 0 a ∧ Buf.holds t.mem.cod 0 (smallEncode config a E) ∧
      Buf.agreeFrom s.mem.bitSequence t.mem.bitSequence a.length ∧ Buf.agreeFrom s.mem.cod t.mem.cod E ∧
      t = { s with resp := t.resp, mem := { s.mem with bitSequence := t.mem.bitSequence, cod := t.mem.cod } }

/-- A decode (DEC_PUCCH, DEC_PUSCH_ACK, DEC_PUSCH_CSI1) of 1 to 11 payload bits, in READY, with its E LLRs in place: it reports the small-block decision, writes the
decided payload to bit_sequence and to the VAL elements of its context and the valid flag to VAL_MISC[1], whatever the
decision, and changes nothing else (R244, R242, R252, R68, R284). -/
def Obligations.SmallDecodesComplete : Prop :=
  ∀ (cfg : UciCfg) (ch : Chan) (s : State) (llr : List Int), s.life = .ready →
    codedLength config cfg ch = .ok llr.length → llr.length ≤ s.capE →
    1 ≤ payloadLength cfg ch → payloadLength cfg ch ≤ 11 → payloadLength cfg ch ≤ s.capA → Buf.holds s.mem.llr 0 llr →
    let A := payloadLength cfg ch
    let r := smallDecode config A llr llr.length s.thr1.toInt s.thrb.toInt
    ∃ t, exec (decodeInstr cfg ch) s = .next t ∧
      t.resp = respOf s (if r.rel then 0 else 4) (if r.rel then 1 else 0) (pathNumber A) 0
        (BitVec.ofNat 32 llr.length) (BitVec.ofNat 32 A) (BitVec.ofInt 32 r.num) (BitVec.ofNat 32 r.den) ∧
      Buf.holds t.mem.bitSequence 0 r.aHat ∧ HoldsPayload .ackCsi1Sr cfg ch t.mem r.aHat ∧
      Buf.read t.mem.valMisc 1 = some r.rel ∧
      Buf.agreeFrom s.mem.bitSequence t.mem.bitSequence A ∧ ValFrame cfg ch s.mem t.mem ∧
      t = { s with
        resp := t.resp
        mem := { s.mem with
          bitSequence := t.mem.bitSequence, valAck := t.mem.valAck, valCsi1 := t.mem.valCsi1, valMisc := t.mem.valMisc } }

/-- An encode of 12 or more payload bits, for a configuration record with shaped engines that has a code for (K, E): the
CRC-attached payload in c, its allocation in allocated, the encoded bits in d, the rate-matched bits in COD, the Polar
context, the response, and nothing else (R214, R213, R244, R252, R68). -/
def Obligations.PolarEncodesComplete : Prop :=
  ∀ (c : Config) (cfg : UciCfg) (ch : Chan) (s : State) (a : List Bool) (E : Nat) (code : PolarCode),
    CrcLawful c.crc → PolarShaped c.polar c.llrW c.softW → s.life = .ready →
    codedLength c cfg ch = .ok E → E ≤ s.capE → 12 ≤ a.length → a.length ≤ s.capA →
    HoldsPayload c.packOrder cfg ch s.mem a →
    c.polar.construct (a.length + crcLength a.length) E = some code → code.N ≤ c.nMax →
    let L := crcLength a.length
    let cw := c.crc.attach (if a.length ≤ 19 then s.crc6 else s.crc11) L a
    let u := c.polar.allocate code cw
    let x := c.polar.encode code u
    ∃ t, execIn c (encodeInstr cfg ch) s = .next t ∧
      t.resp = respOf s 0 1 4 L (BitVec.ofNat 32 E) (BitVec.ofNat 32 a.length) 0 0 ∧
      t.polarValid = true ∧ t.polarK = a.length + L ∧ t.polarE = E ∧ t.polarN = code.N ∧
      Buf.holds t.mem.bitSequence 0 a ∧ Buf.holds t.mem.c 0 cw ∧ Buf.holds t.mem.allocated 0 u ∧
      Buf.holds t.mem.d 0 (x.map (fun b => if b then 1 else 0)) ∧ Buf.holds t.mem.cod 0 (c.polar.rateMatch code x) ∧
      Buf.agreeFrom s.mem.bitSequence t.mem.bitSequence a.length ∧
      Buf.agreeFrom s.mem.c t.mem.c (a.length + L) ∧ Buf.agreeFrom s.mem.allocated t.mem.allocated code.N ∧
      Buf.agreeFrom s.mem.d t.mem.d code.N ∧ Buf.agreeFrom s.mem.cod t.mem.cod E ∧
      t = { s with
        resp := t.resp, polarValid := t.polarValid, polarK := t.polarK, polarE := t.polarE, polarN := t.polarN
        mem := { s.mem with
          bitSequence := t.mem.bitSequence, c := t.mem.c, allocated := t.mem.allocated, d := t.mem.d
          cod := t.mem.cod } }

/-- A decode of 12 or more payload bits, for a configuration record with shaped engines that has a code for (K, E): the
soft values after de-rate-matching in d, the K decoded bits in c, the first A of them as the payload, CrcMismatch exactly
when the check fails, every destination written in both cases (R216, R213, R218, R244, R252, R68). -/
def Obligations.PolarDecodesComplete : Prop :=
  ∀ (c : Config) (cfg : UciCfg) (ch : Chan) (s : State) (llr : List Int) (code : PolarCode),
    PolarShaped c.polar c.llrW c.softW → s.life = .ready →
    codedLength c cfg ch = .ok llr.length → llr.length ≤ s.capE →
    12 ≤ payloadLength cfg ch → payloadLength cfg ch ≤ s.capA →
    Buf.holds s.mem.llr 0 llr → (∀ v ∈ llr, inSigned c.llrW v) →
    c.polar.construct (payloadLength cfg ch + crcLength (payloadLength cfg ch)) llr.length = some code →
    code.N ≤ c.nMax →
    let A := payloadLength cfg ch
    let L := crcLength A
    let y := c.polar.derate code llr
    let cHat := c.polar.decode code y
    let pass := c.crc.check (if A ≤ 19 then s.crc6 else s.crc11) L cHat
    ∃ t, execIn c (decodeInstr cfg ch) s = .next t ∧
      t.resp = respOf s (if pass then 0 else 3) (if pass then 1 else 0) 4 L (BitVec.ofNat 32 llr.length)
        (BitVec.ofNat 32 A) 0 0 ∧
      t.polarValid = true ∧ t.polarK = A + L ∧ t.polarE = llr.length ∧ t.polarN = code.N ∧
      Buf.holds t.mem.d 0 y ∧ Buf.holds t.mem.c 0 cHat ∧ Buf.holds t.mem.bitSequence 0 (cHat.take A) ∧
      HoldsPayload c.packOrder cfg ch t.mem (cHat.take A) ∧ Buf.read t.mem.valMisc 1 = some pass ∧
      Buf.agreeFrom s.mem.d t.mem.d code.N ∧ Buf.agreeFrom s.mem.c t.mem.c (A + L) ∧
      Buf.agreeFrom s.mem.bitSequence t.mem.bitSequence A ∧ ValFrame cfg ch s.mem t.mem ∧
      t = { s with
        resp := t.resp, polarValid := t.polarValid, polarK := t.polarK, polarE := t.polarE, polarN := t.polarN
        mem := { s.mem with
          d := t.mem.d, c := t.mem.c, bitSequence := t.mem.bitSequence
          valAck := t.mem.valAck, valCsi1 := t.mem.valCsi1, valMisc := t.mem.valMisc } }

/-- The Polar context is the pair (K, E) and the length N of a Polar-path command that passed validation; every other
command but FREE and SETCARRIER leaves it (R213). -/
def Obligations.PolarContextFollowsThePolarPath : Prop :=
  (∀ (c : Config) (cfg : UciCfg) (ch : Chan) (i : Instr) (s t : State), PolarShaped c.polar c.llrW c.softW →
    (i = encodeInstr cfg ch ∨ i = decodeInstr cfg ch) → execIn c i s = .next t →
    (pathField t.resp.r0 = 4 →
      ∃ E code, codedLength c cfg ch = .ok E ∧
        c.polar.construct (payloadLength cfg ch + crcLength (payloadLength cfg ch)) E = some code ∧
        t.polarValid = true ∧ t.polarK = payloadLength cfg ch + crcLength (payloadLength cfg ch) ∧ t.polarE = E ∧
        t.polarN = code.N) ∧
    (pathField t.resp.r0 ≠ 4 → polarSame s t)) ∧
  (∀ (c : Config) (i : Instr) (s t : State), execIn c i s = .next t →
    (rejected t.resp ∨ (∃ thr1 thrb, i = .init thr1 thrb) ∨ (∃ cfg, i = .qTotal cfg) ∨ (∃ a, i = .qCrcLen a) ∨
      (∃ res, i = .qPucchE res) ∨ (∃ cfg p, i = .qPuschAckE cfg p) ∨ (∃ cfg p, i = .qPuschCsi1E cfg p)) →
    polarSame s t)

/-- The path and the CRC length a codec command reports depend on its payload length alone, whatever its context and
direction; POLAR means a CRC means 12 bits or more (R254). -/
def Obligations.SameLengthSamePath : Prop :=
  ∀ (c : Config) (cfg : UciCfg) (ch : Chan) (i : Instr) (s t : State),
    (i = encodeInstr cfg ch ∨ i = decodeInstr cfg ch) → execIn c i s = .next t → ¬ rejected t.resp →
    let A := payloadLength cfg ch
    pathField t.resp.r0 = pathNumber A ∧ crcLenField t.resp.r0 = (if A ≤ 11 then 0 else if A ≤ 19 then 6 else 11) ∧
      (pathField t.resp.r0 = 4 ↔ crcLenField t.resp.r0 ≠ 0) ∧ (pathField t.resp.r0 = 4 ↔ 12 ≤ A)

/-- The command-level round trip for payloads of 1 to 11 bits: an encode succeeds, HOST writes the noiseless LLRs of what
it left in COD, and the mirror decode in any later state with the same carrier capacities writes the payload back with
OK and `rel` 1, given thresholds that admit a noiseless codeword and a coded length that keeps the code one-to-one
(R255). -/
def Obligations.SmallCommandRoundTrip : Prop :=
  ∀ (cfg : UciCfg) (ch : Chan) (s t u : State) (a : List Bool) (E : Nat) (M : Int),
    exec (encodeInstr cfg ch) s = .next t → completedOk t.resp → HoldsPayload .ackCsi1Sr cfg ch s.mem a →
    a.length ≤ 11 → codedLength config cfg ch = .ok E →
    u.life = .ready → u.capA = s.capA → u.capE = s.capE → 1 ≤ M → M ≤ 127 → HoldsNoiseless t.mem.cod u.mem.llr E M →
    (a.length = 1 → -(M * E) ≤ u.thr1.toInt ∧ u.thr1.toInt < M * E) →
    (2 ≤ a.length → oneToOneBound a.length ≤ E ∧ u.thrb.toInt < 32768) →
    ∃ v, exec (decodeInstr cfg ch) u = .next v ∧ completedOk v.resp ∧ relField v.resp.r0 = 1 ∧
      pathField v.resp.r0 = pathField t.resp.r0 ∧ crcLenField v.resp.r0 = crcLenField t.resp.r0 ∧
      v.resp.r1 = t.resp.r1 ∧ v.resp.r2 = t.resp.r2 ∧ HoldsPayload .ackCsi1Sr cfg ch v.mem a

/-- The command-level round trip for payloads of 12 or more bits, for any lawful configuration record: no premise on the
thresholds (R255). -/
def Obligations.PolarCommandRoundTrip : Prop :=
  ∀ (c : Config) (cfg : UciCfg) (ch : Chan) (s t u : State) (a : List Bool) (E : Nat) (M : Int), ConfigLawful c →
    execIn c (encodeInstr cfg ch) s = .next t → completedOk t.resp → HoldsPayload c.packOrder cfg ch s.mem a →
    12 ≤ a.length → codedLength c cfg ch = .ok E →
    u.life = .ready → u.capA = s.capA → u.capE = s.capE → u.crc6 = s.crc6 → u.crc11 = s.crc11 →
    1 ≤ M → M ≤ 2 ^ (c.llrW - 1) - 1 → HoldsNoiseless t.mem.cod u.mem.llr E M →
    ∃ v, execIn c (decodeInstr cfg ch) u = .next v ∧ completedOk v.resp ∧ relField v.resp.r0 = 1 ∧
      pathField v.resp.r0 = pathField t.resp.r0 ∧ crcLenField v.resp.r0 = crcLenField t.resp.r0 ∧
      v.resp.r1 = t.resp.r1 ∧ v.resp.r2 = t.resp.r2 ∧ HoldsPayload c.packOrder cfg ch v.mem a

/-- No command's result depends on history: two states that agree on the lifecycle, the thresholds, the capacities, the CRC
contexts, the operand registers, CMD and the elements the command reads give the same response, the same lifecycle and the
same written elements, whatever their scratch contents and Polar contexts are (R256). -/
def Obligations.ResultsDoNotDependOnHistory : Prop :=
  ∀ (c : Config) (i : Instr) (s s' t : State),
    s'.life = s.life → s'.thr1 = s.thr1 → s'.thrb = s.thrb → s'.capA = s.capA → s'.capE = s.capE →
    s'.crc6 = s.crc6 → s'.crc11 = s.crc11 → s'.arg = s.arg → s'.cmd = s.cmd → ReadsAgree c i s.mem s'.mem →
    execIn c i s = .next t →
    ∃ t', execIn c i s' = .next t' ∧ t'.resp = t.resp ∧ t'.life = t.life ∧ t'.thr1 = t.thr1 ∧ t'.thrb = t.thrb ∧
      t'.capA = t.capA ∧ t'.capE = t.capE ∧ t'.crc6 = t.crc6 ∧ t'.crc11 = t.crc11 ∧ SameEffect s.mem s'.mem t.mem t'.mem

/-! Invariants. -/

/-- Every step keeps the invariants of R41, the canonical form of memory, and every buffer space within its element count
and element type (R41, R30, R37, R219). -/
def Obligations.EveryStepKeepsTheInvariants : Prop :=
  ∀ s t : State, Inv s → step s = .next t → Inv t

/-- The reset state has the invariants. -/
def Obligations.ResetHasTheInvariants : Prop := Inv State.reset

/-! The configuration record as a parameter. -/

/-- The configuration record, both engines in it, is a parameter of the step: the write of CMD runs the command at the
record, the port has the record's element counts and the record's LLR width, and an element past a count is inert. The
machine is the step at the default record, which the spec admits with every property it asks of its engines, the
noiseless round trip of the Polar engine among them (R7, R15, R16, R211; log 6, log 9). -/
def Obligations.TheStepTakesTheRecordAsAParameter : Prop :=
  (∀ s : State, step s = stepIn config s) ∧ (∀ (i : Instr) (s : State), exec i s = execIn config i s) ∧
  ConfigLawful config ∧
  ∀ (c : Config) (s : State) (rest : List HostAct) (index : BitVec 16) (data : Word),
    (∀ i, s.host = .write 0 0 data :: rest → decode ⟨data, s.arg⟩ = .ok i →
      stepIn c s = execIn c i { s with host := rest, cmd := data }) ∧
    (∀ space, ((space = 1 ∨ space = 2 ∨ space = 8) ∧ c.aMax ≤ index.toNat) ∨
        ((space = 4 ∨ space = 5) ∧ c.eMax ≤ index.toNat) ∨ (space = 9 ∧ c.aMax + 11 ≤ index.toNat) ∨
        ((space = 10 ∨ space = 11) ∧ c.nMax ≤ index.toNat) →
      (s.host = .write space index data :: rest → stepIn c s = .next { s with host := rest }) ∧
      (s.host = .read space index :: rest →
        stepIn c s = .next { s with host := rest, seen := .word 0 :: s.seen })) ∧
    (s.host = .write 1 index data :: rest → index.toNat < c.aMax →
      ∃ b, stepIn c s = .next { s with host := rest, mem := { s.mem with valAck := b } } ∧
        Buf.stores s.mem.valAck b index.toNat (data.getLsbD 0)) ∧
    (s.host = .write 2 index data :: rest → index.toNat < c.aMax →
      ∃ b, stepIn c s = .next { s with host := rest, mem := { s.mem with valCsi1 := b } } ∧
        Buf.stores s.mem.valCsi1 b index.toNat (data.getLsbD 0)) ∧
    (s.host = .write 4 index data :: rest → index.toNat < c.eMax →
      ∃ b, stepIn c s = .next { s with host := rest, mem := { s.mem with cod := b } } ∧
        Buf.stores s.mem.cod b index.toNat (data.getLsbD 0)) ∧
    (s.host = .write 5 index data :: rest → index.toNat < c.eMax →
      ∃ b, stepIn c s = .next { s with host := rest, mem := { s.mem with llr := b } } ∧
        Buf.stores s.mem.llr b index.toNat (data.setWidth c.llrW).toInt) ∧
    (∀ v, s.host = .read 11 index :: rest → index.toNat < c.nMax → Buf.read s.mem.d index.toNat = some v →
      stepIn c s = .next { s with host := rest, seen := .word (BitVec.ofInt 32 v) :: s.seen })
end

