-- ==== Sys2Proof/Laws/Buf.lean ====
section
/-! SUPPORT. What the buffer operations do: reading after a write, the canonical form, element counts, ranges (spec R10,
R33). Later proofs cite these and do not unfold Buf.read, Buf.write or Buf.readRange. -/

namespace Sys2Proof.Machine

variable {α : Type}

@[simp] theorem Buf.read_nil (i : Nat) : Buf.read ([] : Buf α) i = none := rfl

theorem Buf.read_cons (j : Nat) (v : α) (b : Buf α) (i : Nat) :
    Buf.read ((j, v) :: b) i = if j = i then some v else Buf.read b i := rfl

theorem Buf.read_append (b b' : Buf α) (i : Nat) :
    Buf.read (b ++ b') i = (Buf.read b i).or (Buf.read b' i) := by
  induction b with
  | nil => simp
  | cons e b ih =>
    obtain ⟨j, v⟩ := e
    simp only [List.cons_append, Buf.read_cons]
    split
    · simp
    · exact ih

/-- A filter on the index keeps the readings of the indices it keeps and drops the others. -/
theorem Buf.read_filter (p : Nat → Bool) (b : Buf α) (i : Nat) :
    Buf.read (b.filter (fun e => p e.1)) i = if p i then Buf.read b i else none := by
  induction b with
  | nil => simp
  | cons e b ih =>
    obtain ⟨j, v⟩ := e
    by_cases hp : p j = true
    · rw [List.filter_cons_of_pos (by simpa using hp), Buf.read_cons, ih, Buf.read_cons]
      by_cases hj : j = i
      · subst hj; simp [hp]
      · simp [hj]
    · rw [List.filter_cons_of_neg (by simpa using hp), ih, Buf.read_cons]
      by_cases hj : j = i
      · subst hj; simp [hp]
      · simp [hj]

theorem Buf.read_layout (vs : List α) (i k : Nat) :
    Buf.read (Buf.layout i vs) k = if i ≤ k then vs[k - i]? else none := by
  induction vs generalizing i with
  | nil => simp [Buf.layout]
  | cons v vs ih =>
    simp only [Buf.layout, Buf.read_cons, ih]
    by_cases h : i = k
    · subst h; simp
    · by_cases hk : i + 1 ≤ k
      · have : k - i = (k - (i + 1)) + 1 := by omega
        simp [h, hk, this, show i ≤ k by omega]
      · simp [h, hk, show ¬ i ≤ k by omega]

/-- Reading after a write: the written range gives the written values, everything else what it gave before. -/
theorem Buf.read_write (b : Buf α) (i : Nat) (vs : List α) (k : Nat) :
    Buf.read (b.write i vs) k = if i ≤ k ∧ k < i + vs.length then vs[k - i]? else Buf.read b k := by
  unfold Buf.write
  rw [Buf.read_append, Buf.read_append, Buf.read_layout,
    Buf.read_filter (fun j => decide (j < i)), Buf.read_filter (fun j => decide (i + vs.length ≤ j))]
  by_cases h1 : k < i
  · simp [h1, show ¬ i ≤ k by omega, show ¬ i + vs.length ≤ k by omega]
  · by_cases h2 : k < i + vs.length
    · have : k - i < vs.length := by omega
      simp [h1, h2, show i ≤ k by omega, show ¬ i + vs.length ≤ k by omega]
    · have : vs[k - i]? = none := by simp; omega
      simp [h1, h2, show i ≤ k by omega, this, show i + vs.length ≤ k by omega]

theorem Buf.read_write_inside (b : Buf α) (vs : List α) (i k : Nat) (h1 : i ≤ k) (h2 : k < i + vs.length) :
    Buf.read (b.write i vs) k = vs[k - i]? := by rw [Buf.read_write]; simp [h1, h2]

theorem Buf.read_write_outside (b : Buf α) (vs : List α) (i k : Nat) (h : k < i ∨ i + vs.length ≤ k) :
    Buf.read (b.write i vs) k = Buf.read b k := by
  rw [Buf.read_write, if_neg (by omega)]

theorem Buf.read_write_zero (b : Buf α) (vs : List α) (k : Nat) (h : k < vs.length) :
    Buf.read (b.write 0 vs) k = vs[k]? := by simpa using Buf.read_write_inside b vs 0 k (by omega) (by omega)

theorem Buf.layout_index (vs : List α) (i : Nat) : ∀ e ∈ Buf.layout i vs, i ≤ e.1 ∧ e.1 < i + vs.length := by
  induction vs generalizing i with
  | nil => simp [Buf.layout]
  | cons v vs ih =>
    intro e he
    simp only [Buf.layout, List.mem_cons] at he
    rcases he with rfl | he
    · simp
    · have := ih (i + 1) e he
      simp only [List.length_cons]; omega

theorem Buf.layout_value (vs : List α) (i : Nat) : ∀ e ∈ Buf.layout i vs, e.2 ∈ vs := by
  induction vs generalizing i with
  | nil => simp [Buf.layout]
  | cons v vs ih =>
    intro e he
    simp only [Buf.layout, List.mem_cons] at he
    rcases he with rfl | he
    · simp
    · exact List.mem_cons_of_mem _ (ih (i + 1) e he)

theorem Buf.layout_wf (vs : List α) (i : Nat) : Buf.wf (Buf.layout i vs) := by
  induction vs generalizing i with
  | nil => exact List.Pairwise.nil
  | cons v vs ih =>
    refine List.Pairwise.cons ?_ (ih (i + 1))
    intro e he
    have := Buf.layout_index vs (i + 1) e he
    simp only; omega

/-- A write keeps the canonical form. -/
theorem Buf.write_wf (b : Buf α) (i : Nat) (vs : List α) (h : Buf.wf b) : Buf.wf (b.write i vs) := by
  unfold Buf.write Buf.wf
  rw [List.pairwise_append, List.pairwise_append]
  refine ⟨⟨h.filter _, Buf.layout_wf vs i, ?_⟩, h.filter _, ?_⟩
  · intro x hx y hy
    have hx' : x.1 < i := by simpa using (List.mem_filter.mp hx).2
    have := Buf.layout_index vs i y hy
    omega
  · intro x hx y hy
    have hy' : i + vs.length ≤ y.1 := by simpa using (List.mem_filter.mp hy).2
    rcases List.mem_append.mp hx with hx | hx
    · have hx' : x.1 < i := by simpa using (List.mem_filter.mp hx).2
      omega
    · have := Buf.layout_index vs i x hx
      omega

/-- What a write leaves listed: an old entry or a written one. -/
theorem Buf.mem_write (b : Buf α) (i : Nat) (vs : List α) (e : Nat × α) (h : e ∈ b.write i vs) :
    e ∈ b ∨ (i ≤ e.1 ∧ e.1 < i + vs.length ∧ e.2 ∈ vs) := by
  unfold Buf.write at h
  rcases List.mem_append.mp h with h | h
  · rcases List.mem_append.mp h with h | h
    · exact .inl (List.mem_filter.mp h).1
    · exact .inr ⟨(Buf.layout_index vs i e h).1, (Buf.layout_index vs i e h).2, Buf.layout_value vs i e h⟩
  · exact .inl (List.mem_filter.mp h).1

theorem Buf.write_within (b : Buf α) (i n : Nat) (vs : List α) (h : Buf.within b n) (hn : i + vs.length ≤ n) :
    Buf.within (b.write i vs) n := by
  intro e he
  rcases Buf.mem_write b i vs e he with he | ⟨_, h2, _⟩
  · exact h e he
  · omega

theorem Buf.write_ranged (b : Buf Int) (i w : Nat) (vs : List Int) (h : Buf.ranged b w) (hv : ∀ v ∈ vs, inSigned w v) :
    Buf.ranged (b.write i vs) w := by
  intro e he
  rcases Buf.mem_write b i vs e he with he | ⟨_, _, h3⟩
  · exact h e he
  · exact hv _ h3

@[simp] theorem Buf.readRange_zero (b : Buf α) (i : Nat) : Buf.readRange b i 0 = some [] := rfl

/-- A range read succeeds with a sequence exactly when the buffer lists each of its elements. -/
theorem Buf.readRange_eq_some (b : Buf α) (i n : Nat) (vs : List α) :
    Buf.readRange b i n = some vs ↔ vs.length = n ∧ Buf.holds b i vs := by
  induction n generalizing i vs with
  | zero =>
    constructor
    · intro h
      have : vs = [] := by simpa using h.symm
      subst this
      exact ⟨rfl, fun k hk => absurd hk (Nat.not_lt_zero k)⟩
    · rintro ⟨h, -⟩
      have : vs = [] := List.length_eq_zero_iff.mp h
      subst this; rfl
  | succ n ih =>
    have unfoldStep : Buf.readRange b i (n + 1) =
      match Buf.read b i, Buf.readRange b (i + 1) n with
      | some v, some vs => some (v :: vs)
      | _, _ => none := rfl
    rw [unfoldStep]
    constructor
    · intro h
      split at h
      · next v ws hv hws =>
        obtain ⟨hl, hh⟩ := (ih (i + 1) ws).mp hws
        have := Option.some.inj h
        subst this
        refine ⟨by simp [hl], ?_⟩
        intro k hk
        cases k with
        | zero => simpa using hv
        | succ k =>
          have := hh k (by simpa using hk)
          rw [show i + (k + 1) = i + 1 + k by omega, this]; simp
      · cases h
    · rintro ⟨hl, hh⟩
      cases vs with
      | nil => simp at hl
      | cons v ws =>
        have h0 : Buf.read b i = some v := by simpa using hh 0 (by simp)
        have hr : Buf.readRange b (i + 1) n = some ws := by
          refine (ih (i + 1) ws).mpr ⟨by simpa using hl, ?_⟩
          intro k hk
          have := hh (k + 1) (by simpa using hk)
          rw [show i + 1 + k = i + (k + 1) by omega, this]; simp
        rw [h0, hr]

/-- A range read of a buffer whose elements are all specified succeeds. -/
theorem Buf.readRange_isSome (b : Buf α) (i n : Nat) (h : ∀ k, k < n → (Buf.read b (i + k)).isSome) :
    ∃ vs, Buf.readRange b i n = some vs := by
  induction n generalizing i with
  | zero => exact ⟨[], rfl⟩
  | succ n ih =>
    obtain ⟨v, hv⟩ := Option.isSome_iff_exists.mp (h 0 (by omega))
    obtain ⟨vs, hvs⟩ := ih (i + 1) (fun k hk => by
      have := h (k + 1) (by omega)
      rwa [show i + (k + 1) = i + 1 + k by omega] at this)
    refine ⟨v :: vs, ?_⟩
    show (match Buf.read b i, Buf.readRange b (i + 1) n with
      | some v, some vs => some (v :: vs)
      | _, _ => none) = _
    rw [hvs]
    simp only [Nat.add_zero] at hv
    rw [hv]

/-- MemRead answers a sequence exactly when the buffer holds it; otherwise it refuses, naming the space (R33). -/
theorem memRead_eq_ok (sp : Space) (b : Buf α) (i n : Nat) (vs : List α) :
    memRead sp b i n = .ok vs ↔ vs.length = n ∧ Buf.holds b i vs := by
  rw [← Buf.readRange_eq_some]
  unfold memRead
  split
  · next ws h => rw [h]; simp
  · next h => rw [h]; simp

theorem memRead_eq_error (sp : Space) (b : Buf α) (i n : Nat) (r : Refusal) :
    memRead sp b i n = .error r ↔ Buf.readRange b i n = none ∧ r = .unspecifiedElement sp := by
  unfold memRead
  split
  · next ws h => rw [h]; simp
  · next h => rw [h]; simp [eq_comm]

end Sys2Proof.Machine
end

