-- ==== Sys2Proof/Laws/State.lean ====
section
/-! SUPPORT. One lemma per field per update of State: which field an operation writes and what it leaves, each true by rfl.
A structure update written out needs none: simp reads its fields directly. -/

namespace Sys2Proof.Machine

@[simp] theorem dropScratch_life (s : State) :
    (dropScratch s).life = s.life := rfl
@[simp] theorem dropScratch_arg (s : State) :
    (dropScratch s).arg = s.arg := rfl
@[simp] theorem dropScratch_cmd (s : State) :
    (dropScratch s).cmd = s.cmd := rfl
@[simp] theorem dropScratch_resp (s : State) :
    (dropScratch s).resp = s.resp := rfl
@[simp] theorem dropScratch_thr1 (s : State) :
    (dropScratch s).thr1 = s.thr1 := rfl
@[simp] theorem dropScratch_thrb (s : State) :
    (dropScratch s).thrb = s.thrb := rfl
@[simp] theorem dropScratch_carrier (s : State) :
    (dropScratch s).carrier = s.carrier := rfl
@[simp] theorem dropScratch_capA (s : State) :
    (dropScratch s).capA = s.capA := rfl
@[simp] theorem dropScratch_capE (s : State) :
    (dropScratch s).capE = s.capE := rfl
@[simp] theorem dropScratch_polarValid (s : State) :
    (dropScratch s).polarValid = s.polarValid := rfl
@[simp] theorem dropScratch_polarK (s : State) :
    (dropScratch s).polarK = s.polarK := rfl
@[simp] theorem dropScratch_polarE (s : State) :
    (dropScratch s).polarE = s.polarE := rfl
@[simp] theorem dropScratch_polarN (s : State) :
    (dropScratch s).polarN = s.polarN := rfl
@[simp] theorem dropScratch_crc6 (s : State) :
    (dropScratch s).crc6 = s.crc6 := rfl
@[simp] theorem dropScratch_crc11 (s : State) :
    (dropScratch s).crc11 = s.crc11 := rfl
@[simp] theorem dropScratch_mem (s : State) :
    (dropScratch s).mem = { s.mem with bitSequence := [], c := [], allocated := [], d := [] } := rfl
@[simp] theorem dropScratch_host (s : State) :
    (dropScratch s).host = s.host := rfl
@[simp] theorem dropScratch_seen (s : State) :
    (dropScratch s).seen = s.seen := rfl
@[simp] theorem dropScratch_freeCount (s : State) :
    (dropScratch s).freeCount = s.freeCount := rfl

@[simp] theorem clearPolar_life (s : State) :
    (clearPolar s).life = s.life := rfl
@[simp] theorem clearPolar_arg (s : State) :
    (clearPolar s).arg = s.arg := rfl
@[simp] theorem clearPolar_cmd (s : State) :
    (clearPolar s).cmd = s.cmd := rfl
@[simp] theorem clearPolar_resp (s : State) :
    (clearPolar s).resp = s.resp := rfl
@[simp] theorem clearPolar_thr1 (s : State) :
    (clearPolar s).thr1 = s.thr1 := rfl
@[simp] theorem clearPolar_thrb (s : State) :
    (clearPolar s).thrb = s.thrb := rfl
@[simp] theorem clearPolar_carrier (s : State) :
    (clearPolar s).carrier = s.carrier := rfl
@[simp] theorem clearPolar_capA (s : State) :
    (clearPolar s).capA = s.capA := rfl
@[simp] theorem clearPolar_capE (s : State) :
    (clearPolar s).capE = s.capE := rfl
@[simp] theorem clearPolar_polarValid (s : State) :
    (clearPolar s).polarValid = false := rfl
@[simp] theorem clearPolar_polarK (s : State) :
    (clearPolar s).polarK = 0 := rfl
@[simp] theorem clearPolar_polarE (s : State) :
    (clearPolar s).polarE = 0 := rfl
@[simp] theorem clearPolar_polarN (s : State) :
    (clearPolar s).polarN = 0 := rfl
@[simp] theorem clearPolar_crc6 (s : State) :
    (clearPolar s).crc6 = s.crc6 := rfl
@[simp] theorem clearPolar_crc11 (s : State) :
    (clearPolar s).crc11 = s.crc11 := rfl
@[simp] theorem clearPolar_mem (s : State) :
    (clearPolar s).mem = s.mem := rfl
@[simp] theorem clearPolar_host (s : State) :
    (clearPolar s).host = s.host := rfl
@[simp] theorem clearPolar_seen (s : State) :
    (clearPolar s).seen = s.seen := rfl
@[simp] theorem clearPolar_freeCount (s : State) :
    (clearPolar s).freeCount = s.freeCount := rfl

@[simp] theorem setPolar_life (code : PolarCode) (s : State) :
    (setPolar code s).life = s.life := rfl
@[simp] theorem setPolar_arg (code : PolarCode) (s : State) :
    (setPolar code s).arg = s.arg := rfl
@[simp] theorem setPolar_cmd (code : PolarCode) (s : State) :
    (setPolar code s).cmd = s.cmd := rfl
@[simp] theorem setPolar_resp (code : PolarCode) (s : State) :
    (setPolar code s).resp = s.resp := rfl
@[simp] theorem setPolar_thr1 (code : PolarCode) (s : State) :
    (setPolar code s).thr1 = s.thr1 := rfl
@[simp] theorem setPolar_thrb (code : PolarCode) (s : State) :
    (setPolar code s).thrb = s.thrb := rfl
@[simp] theorem setPolar_carrier (code : PolarCode) (s : State) :
    (setPolar code s).carrier = s.carrier := rfl
@[simp] theorem setPolar_capA (code : PolarCode) (s : State) :
    (setPolar code s).capA = s.capA := rfl
@[simp] theorem setPolar_capE (code : PolarCode) (s : State) :
    (setPolar code s).capE = s.capE := rfl
@[simp] theorem setPolar_polarValid (code : PolarCode) (s : State) :
    (setPolar code s).polarValid = true := rfl
@[simp] theorem setPolar_polarK (code : PolarCode) (s : State) :
    (setPolar code s).polarK = code.K := rfl
@[simp] theorem setPolar_polarE (code : PolarCode) (s : State) :
    (setPolar code s).polarE = code.E := rfl
@[simp] theorem setPolar_polarN (code : PolarCode) (s : State) :
    (setPolar code s).polarN = code.N := rfl
@[simp] theorem setPolar_crc6 (code : PolarCode) (s : State) :
    (setPolar code s).crc6 = s.crc6 := rfl
@[simp] theorem setPolar_crc11 (code : PolarCode) (s : State) :
    (setPolar code s).crc11 = s.crc11 := rfl
@[simp] theorem setPolar_mem (code : PolarCode) (s : State) :
    (setPolar code s).mem = s.mem := rfl
@[simp] theorem setPolar_host (code : PolarCode) (s : State) :
    (setPolar code s).host = s.host := rfl
@[simp] theorem setPolar_seen (code : PolarCode) (s : State) :
    (setPolar code s).seen = s.seen := rfl
@[simp] theorem setPolar_freeCount (code : PolarCode) (s : State) :
    (setPolar code s).freeCount = s.freeCount := rfl

@[simp] theorem respond_life (e : ErrKind) (rel : Bool) (p : Option Path) (L : Nat) (r1 r2 r3 r4 : Word) (s : State) :
    (respond e rel p L r1 r2 r3 r4 s).life = s.life := rfl
@[simp] theorem respond_arg (e : ErrKind) (rel : Bool) (p : Option Path) (L : Nat) (r1 r2 r3 r4 : Word) (s : State) :
    (respond e rel p L r1 r2 r3 r4 s).arg = s.arg := rfl
@[simp] theorem respond_cmd (e : ErrKind) (rel : Bool) (p : Option Path) (L : Nat) (r1 r2 r3 r4 : Word) (s : State) :
    (respond e rel p L r1 r2 r3 r4 s).cmd = s.cmd := rfl
@[simp] theorem respond_resp (e : ErrKind) (rel : Bool) (p : Option Path) (L : Nat) (r1 r2 r3 r4 : Word) (s : State) :
    (respond e rel p L r1 r2 r3 r4 s).resp = ⟨resp0Word e rel p L (slice s.cmd 0 4), r1, r2, r3, r4⟩ := rfl
@[simp] theorem respond_thr1 (e : ErrKind) (rel : Bool) (p : Option Path) (L : Nat) (r1 r2 r3 r4 : Word) (s : State) :
    (respond e rel p L r1 r2 r3 r4 s).thr1 = s.thr1 := rfl
@[simp] theorem respond_thrb (e : ErrKind) (rel : Bool) (p : Option Path) (L : Nat) (r1 r2 r3 r4 : Word) (s : State) :
    (respond e rel p L r1 r2 r3 r4 s).thrb = s.thrb := rfl
@[simp] theorem respond_carrier (e : ErrKind) (rel : Bool) (p : Option Path) (L : Nat) (r1 r2 r3 r4 : Word) (s : State) :
    (respond e rel p L r1 r2 r3 r4 s).carrier = s.carrier := rfl
@[simp] theorem respond_capA (e : ErrKind) (rel : Bool) (p : Option Path) (L : Nat) (r1 r2 r3 r4 : Word) (s : State) :
    (respond e rel p L r1 r2 r3 r4 s).capA = s.capA := rfl
@[simp] theorem respond_capE (e : ErrKind) (rel : Bool) (p : Option Path) (L : Nat) (r1 r2 r3 r4 : Word) (s : State) :
    (respond e rel p L r1 r2 r3 r4 s).capE = s.capE := rfl
@[simp] theorem respond_polarValid (e : ErrKind) (rel : Bool) (p : Option Path) (L : Nat) (r1 r2 r3 r4 : Word) (s : State) :
    (respond e rel p L r1 r2 r3 r4 s).polarValid = s.polarValid := rfl
@[simp] theorem respond_polarK (e : ErrKind) (rel : Bool) (p : Option Path) (L : Nat) (r1 r2 r3 r4 : Word) (s : State) :
    (respond e rel p L r1 r2 r3 r4 s).polarK = s.polarK := rfl
@[simp] theorem respond_polarE (e : ErrKind) (rel : Bool) (p : Option Path) (L : Nat) (r1 r2 r3 r4 : Word) (s : State) :
    (respond e rel p L r1 r2 r3 r4 s).polarE = s.polarE := rfl
@[simp] theorem respond_polarN (e : ErrKind) (rel : Bool) (p : Option Path) (L : Nat) (r1 r2 r3 r4 : Word) (s : State) :
    (respond e rel p L r1 r2 r3 r4 s).polarN = s.polarN := rfl
@[simp] theorem respond_crc6 (e : ErrKind) (rel : Bool) (p : Option Path) (L : Nat) (r1 r2 r3 r4 : Word) (s : State) :
    (respond e rel p L r1 r2 r3 r4 s).crc6 = s.crc6 := rfl
@[simp] theorem respond_crc11 (e : ErrKind) (rel : Bool) (p : Option Path) (L : Nat) (r1 r2 r3 r4 : Word) (s : State) :
    (respond e rel p L r1 r2 r3 r4 s).crc11 = s.crc11 := rfl
@[simp] theorem respond_mem (e : ErrKind) (rel : Bool) (p : Option Path) (L : Nat) (r1 r2 r3 r4 : Word) (s : State) :
    (respond e rel p L r1 r2 r3 r4 s).mem = s.mem := rfl
@[simp] theorem respond_host (e : ErrKind) (rel : Bool) (p : Option Path) (L : Nat) (r1 r2 r3 r4 : Word) (s : State) :
    (respond e rel p L r1 r2 r3 r4 s).host = s.host := rfl
@[simp] theorem respond_seen (e : ErrKind) (rel : Bool) (p : Option Path) (L : Nat) (r1 r2 r3 r4 : Word) (s : State) :
    (respond e rel p L r1 r2 r3 r4 s).seen = s.seen := rfl
@[simp] theorem respond_freeCount (e : ErrKind) (rel : Bool) (p : Option Path) (L : Nat) (r1 r2 r3 r4 : Word) (s : State) :
    (respond e rel p L r1 r2 r3 r4 s).freeCount = s.freeCount := rfl

@[simp] theorem raise_life (e : ErrKind) (s : State) :
    (raise e s).life = s.life := rfl
@[simp] theorem raise_arg (e : ErrKind) (s : State) :
    (raise e s).arg = s.arg := rfl
@[simp] theorem raise_cmd (e : ErrKind) (s : State) :
    (raise e s).cmd = s.cmd := rfl
@[simp] theorem raise_resp (e : ErrKind) (s : State) :
    (raise e s).resp = ⟨resp0Word e false none 0 (slice s.cmd 0 4), 0, 0, 0, 0⟩ := rfl
@[simp] theorem raise_thr1 (e : ErrKind) (s : State) :
    (raise e s).thr1 = s.thr1 := rfl
@[simp] theorem raise_thrb (e : ErrKind) (s : State) :
    (raise e s).thrb = s.thrb := rfl
@[simp] theorem raise_carrier (e : ErrKind) (s : State) :
    (raise e s).carrier = s.carrier := rfl
@[simp] theorem raise_capA (e : ErrKind) (s : State) :
    (raise e s).capA = s.capA := rfl
@[simp] theorem raise_capE (e : ErrKind) (s : State) :
    (raise e s).capE = s.capE := rfl
@[simp] theorem raise_polarValid (e : ErrKind) (s : State) :
    (raise e s).polarValid = s.polarValid := rfl
@[simp] theorem raise_polarK (e : ErrKind) (s : State) :
    (raise e s).polarK = s.polarK := rfl
@[simp] theorem raise_polarE (e : ErrKind) (s : State) :
    (raise e s).polarE = s.polarE := rfl
@[simp] theorem raise_polarN (e : ErrKind) (s : State) :
    (raise e s).polarN = s.polarN := rfl
@[simp] theorem raise_crc6 (e : ErrKind) (s : State) :
    (raise e s).crc6 = s.crc6 := rfl
@[simp] theorem raise_crc11 (e : ErrKind) (s : State) :
    (raise e s).crc11 = s.crc11 := rfl
@[simp] theorem raise_mem (e : ErrKind) (s : State) :
    (raise e s).mem = s.mem := rfl
@[simp] theorem raise_host (e : ErrKind) (s : State) :
    (raise e s).host = s.host := rfl
@[simp] theorem raise_seen (e : ErrKind) (s : State) :
    (raise e s).seen = s.seen := rfl
@[simp] theorem raise_freeCount (e : ErrKind) (s : State) :
    (raise e s).freeCount = s.freeCount := rfl

@[simp] theorem respondOk_life (s : State) :
    (respondOk s).life = s.life := rfl
@[simp] theorem respondOk_arg (s : State) :
    (respondOk s).arg = s.arg := rfl
@[simp] theorem respondOk_cmd (s : State) :
    (respondOk s).cmd = s.cmd := rfl
@[simp] theorem respondOk_resp (s : State) :
    (respondOk s).resp = ⟨resp0Word .ok true none 0 (slice s.cmd 0 4), 0, 0, 0, 0⟩ := rfl
@[simp] theorem respondOk_thr1 (s : State) :
    (respondOk s).thr1 = s.thr1 := rfl
@[simp] theorem respondOk_thrb (s : State) :
    (respondOk s).thrb = s.thrb := rfl
@[simp] theorem respondOk_carrier (s : State) :
    (respondOk s).carrier = s.carrier := rfl
@[simp] theorem respondOk_capA (s : State) :
    (respondOk s).capA = s.capA := rfl
@[simp] theorem respondOk_capE (s : State) :
    (respondOk s).capE = s.capE := rfl
@[simp] theorem respondOk_polarValid (s : State) :
    (respondOk s).polarValid = s.polarValid := rfl
@[simp] theorem respondOk_polarK (s : State) :
    (respondOk s).polarK = s.polarK := rfl
@[simp] theorem respondOk_polarE (s : State) :
    (respondOk s).polarE = s.polarE := rfl
@[simp] theorem respondOk_polarN (s : State) :
    (respondOk s).polarN = s.polarN := rfl
@[simp] theorem respondOk_crc6 (s : State) :
    (respondOk s).crc6 = s.crc6 := rfl
@[simp] theorem respondOk_crc11 (s : State) :
    (respondOk s).crc11 = s.crc11 := rfl
@[simp] theorem respondOk_mem (s : State) :
    (respondOk s).mem = s.mem := rfl
@[simp] theorem respondOk_host (s : State) :
    (respondOk s).host = s.host := rfl
@[simp] theorem respondOk_seen (s : State) :
    (respondOk s).seen = s.seen := rfl
@[simp] theorem respondOk_freeCount (s : State) :
    (respondOk s).freeCount = s.freeCount := rfl

@[simp] theorem respondQuery_life (L r1 r2 : Nat) (s : State) :
    (respondQuery L r1 r2 s).life = s.life := rfl
@[simp] theorem respondQuery_arg (L r1 r2 : Nat) (s : State) :
    (respondQuery L r1 r2 s).arg = s.arg := rfl
@[simp] theorem respondQuery_cmd (L r1 r2 : Nat) (s : State) :
    (respondQuery L r1 r2 s).cmd = s.cmd := rfl
@[simp] theorem respondQuery_resp (L r1 r2 : Nat) (s : State) :
    (respondQuery L r1 r2 s).resp = ⟨resp0Word .ok true none L (slice s.cmd 0 4), BitVec.ofNat 32 r1, BitVec.ofNat 32 r2, 0, 0⟩ := rfl
@[simp] theorem respondQuery_thr1 (L r1 r2 : Nat) (s : State) :
    (respondQuery L r1 r2 s).thr1 = s.thr1 := rfl
@[simp] theorem respondQuery_thrb (L r1 r2 : Nat) (s : State) :
    (respondQuery L r1 r2 s).thrb = s.thrb := rfl
@[simp] theorem respondQuery_carrier (L r1 r2 : Nat) (s : State) :
    (respondQuery L r1 r2 s).carrier = s.carrier := rfl
@[simp] theorem respondQuery_capA (L r1 r2 : Nat) (s : State) :
    (respondQuery L r1 r2 s).capA = s.capA := rfl
@[simp] theorem respondQuery_capE (L r1 r2 : Nat) (s : State) :
    (respondQuery L r1 r2 s).capE = s.capE := rfl
@[simp] theorem respondQuery_polarValid (L r1 r2 : Nat) (s : State) :
    (respondQuery L r1 r2 s).polarValid = s.polarValid := rfl
@[simp] theorem respondQuery_polarK (L r1 r2 : Nat) (s : State) :
    (respondQuery L r1 r2 s).polarK = s.polarK := rfl
@[simp] theorem respondQuery_polarE (L r1 r2 : Nat) (s : State) :
    (respondQuery L r1 r2 s).polarE = s.polarE := rfl
@[simp] theorem respondQuery_polarN (L r1 r2 : Nat) (s : State) :
    (respondQuery L r1 r2 s).polarN = s.polarN := rfl
@[simp] theorem respondQuery_crc6 (L r1 r2 : Nat) (s : State) :
    (respondQuery L r1 r2 s).crc6 = s.crc6 := rfl
@[simp] theorem respondQuery_crc11 (L r1 r2 : Nat) (s : State) :
    (respondQuery L r1 r2 s).crc11 = s.crc11 := rfl
@[simp] theorem respondQuery_mem (L r1 r2 : Nat) (s : State) :
    (respondQuery L r1 r2 s).mem = s.mem := rfl
@[simp] theorem respondQuery_host (L r1 r2 : Nat) (s : State) :
    (respondQuery L r1 r2 s).host = s.host := rfl
@[simp] theorem respondQuery_seen (L r1 r2 : Nat) (s : State) :
    (respondQuery L r1 r2 s).seen = s.seen := rfl
@[simp] theorem respondQuery_freeCount (L r1 r2 : Nat) (s : State) :
    (respondQuery L r1 r2 s).freeCount = s.freeCount := rfl

@[simp] theorem hardReset_life (s : State) :
    (hardReset s).life = State.reset.life := rfl
@[simp] theorem hardReset_arg (s : State) :
    (hardReset s).arg = State.reset.arg := rfl
@[simp] theorem hardReset_cmd (s : State) :
    (hardReset s).cmd = State.reset.cmd := rfl
@[simp] theorem hardReset_resp (s : State) :
    (hardReset s).resp = State.reset.resp := rfl
@[simp] theorem hardReset_thr1 (s : State) :
    (hardReset s).thr1 = State.reset.thr1 := rfl
@[simp] theorem hardReset_thrb (s : State) :
    (hardReset s).thrb = State.reset.thrb := rfl
@[simp] theorem hardReset_carrier (s : State) :
    (hardReset s).carrier = State.reset.carrier := rfl
@[simp] theorem hardReset_capA (s : State) :
    (hardReset s).capA = State.reset.capA := rfl
@[simp] theorem hardReset_capE (s : State) :
    (hardReset s).capE = State.reset.capE := rfl
@[simp] theorem hardReset_polarValid (s : State) :
    (hardReset s).polarValid = State.reset.polarValid := rfl
@[simp] theorem hardReset_polarK (s : State) :
    (hardReset s).polarK = State.reset.polarK := rfl
@[simp] theorem hardReset_polarE (s : State) :
    (hardReset s).polarE = State.reset.polarE := rfl
@[simp] theorem hardReset_polarN (s : State) :
    (hardReset s).polarN = State.reset.polarN := rfl
@[simp] theorem hardReset_crc6 (s : State) :
    (hardReset s).crc6 = State.reset.crc6 := rfl
@[simp] theorem hardReset_crc11 (s : State) :
    (hardReset s).crc11 = State.reset.crc11 := rfl
@[simp] theorem hardReset_mem (s : State) :
    (hardReset s).mem = State.reset.mem := rfl
@[simp] theorem hardReset_host (s : State) :
    (hardReset s).host = s.host := rfl
@[simp] theorem hardReset_seen (s : State) :
    (hardReset s).seen = s.seen := rfl
@[simp] theorem hardReset_freeCount (s : State) :
    (hardReset s).freeCount = s.freeCount := rfl

@[simp] theorem placeFrame_life (f : Frame) (s : State) :
    (placeFrame f s).life = s.life := rfl
@[simp] theorem placeFrame_arg (f : Frame) (s : State) :
    (placeFrame f s).arg = f.arg := rfl
@[simp] theorem placeFrame_cmd (f : Frame) (s : State) :
    (placeFrame f s).cmd = s.cmd := rfl
@[simp] theorem placeFrame_resp (f : Frame) (s : State) :
    (placeFrame f s).resp = s.resp := rfl
@[simp] theorem placeFrame_thr1 (f : Frame) (s : State) :
    (placeFrame f s).thr1 = s.thr1 := rfl
@[simp] theorem placeFrame_thrb (f : Frame) (s : State) :
    (placeFrame f s).thrb = s.thrb := rfl
@[simp] theorem placeFrame_carrier (f : Frame) (s : State) :
    (placeFrame f s).carrier = s.carrier := rfl
@[simp] theorem placeFrame_capA (f : Frame) (s : State) :
    (placeFrame f s).capA = s.capA := rfl
@[simp] theorem placeFrame_capE (f : Frame) (s : State) :
    (placeFrame f s).capE = s.capE := rfl
@[simp] theorem placeFrame_polarValid (f : Frame) (s : State) :
    (placeFrame f s).polarValid = s.polarValid := rfl
@[simp] theorem placeFrame_polarK (f : Frame) (s : State) :
    (placeFrame f s).polarK = s.polarK := rfl
@[simp] theorem placeFrame_polarE (f : Frame) (s : State) :
    (placeFrame f s).polarE = s.polarE := rfl
@[simp] theorem placeFrame_polarN (f : Frame) (s : State) :
    (placeFrame f s).polarN = s.polarN := rfl
@[simp] theorem placeFrame_crc6 (f : Frame) (s : State) :
    (placeFrame f s).crc6 = s.crc6 := rfl
@[simp] theorem placeFrame_crc11 (f : Frame) (s : State) :
    (placeFrame f s).crc11 = s.crc11 := rfl
@[simp] theorem placeFrame_mem (f : Frame) (s : State) :
    (placeFrame f s).mem = s.mem := rfl
@[simp] theorem placeFrame_host (f : Frame) (s : State) :
    (placeFrame f s).host = .write 0 0 f.h :: s.host := rfl
@[simp] theorem placeFrame_seen (f : Frame) (s : State) :
    (placeFrame f s).seen = s.seen := rfl
@[simp] theorem placeFrame_freeCount (f : Frame) (s : State) :
    (placeFrame f s).freeCount = s.freeCount := rfl

end Sys2Proof.Machine
end

