-- ==== Sys2Proof/Laws/Units.lean ====
section
/-! SUPPORT. One lemma per unit function, saying what it answers: the bit budget, the CRC selector, the small-block codec and
its scan, the reference CRC engine. -/

namespace Sys2Proof.Machine

/-! Bit budget. -/

theorem crcLength_small {A : Nat} (h : A ≤ 11) : crcLength A = 0 := by simp [crcLength, h]

theorem crcLength_mid {A : Nat} (h1 : 12 ≤ A) (h2 : A ≤ 19) : crcLength A = 6 := by
  simp [crcLength, show ¬ A ≤ 11 by omega, h2]

theorem crcLength_large {A : Nat} (h : 20 ≤ A) : crcLength A = 11 := by
  simp [crcLength, show ¬ A ≤ 11 by omega, show ¬ A ≤ 19 by omega]

theorem crcLength_le (A : Nat) : crcLength A ≤ 11 := by unfold crcLength; split <;> [omega; split <;> omega]

theorem puschGate_eq_ok (c : Config) (p : PuschCfg) (E : Int) (n : Nat) :
    puschGate c p E = .ok n ↔ puschLegal p = true ∧ 1 ≤ n ∧ (n : Int) = E ∧ E ≤ c.puschAlloc p := by
  unfold puschGate
  split
  · next h => simp [h]
  · next h =>
    have hl : puschLegal p = true := by simpa using h
    split
    · next h' =>
      simp only [hl, true_and, reduceCtorEq, false_iff]
      rintro ⟨h1, h2, h3⟩; omega
    · next h' =>
      simp only [hl, true_and, Except.ok.injEq]
      constructor
      · intro e; omega
      · rintro ⟨h1, h2, h3⟩; omega

theorem puschGate_error (c : Config) (p : PuschCfg) (E : Int) (e : ErrKind) (h : puschGate c p E = .error e) :
    e = .invalidConfig := by
  unfold puschGate at h
  split at h
  · cases h; rfl
  · split at h
    · cases h; rfl
    · cases h

/-- The length function's own error: InvalidResource for PUCCH, InvalidConfig for PUSCH (R285). -/
theorem codedLength_error (c : Config) (cfg : UciCfg) (ch : Chan) (e : ErrKind) (h : codedLength c cfg ch = .error e) :
    (e = .invalidResource ∧ ∃ res, ch = .pucch res ∧ c.pucchE res = none) ∨
    (e = .invalidConfig ∧ ∀ res, ch ≠ .pucch res) := by
  cases ch with
  | pucch res =>
    left
    simp only [codedLength, pucchOutputLength] at h
    split at h
    · next hn => cases h; exact ⟨rfl, res, rfl, hn⟩
    · cases h
  | puschAck p => exact .inr ⟨puschGate_error _ _ _ _ h, by simp⟩
  | puschCsi1 p => exact .inr ⟨puschGate_error _ _ _ _ h, by simp⟩

/-- Every length function answers a positive E, given the contract R123 (b). -/
theorem codedLength_pos (c : Config) (hp : ∀ res E, c.pucchE res = some E → 1 ≤ E) (cfg : UciCfg) (ch : Chan) (E : Nat)
    (h : codedLength c cfg ch = .ok E) : 1 ≤ E := by
  cases ch with
  | pucch res =>
    simp only [codedLength, pucchOutputLength] at h
    split at h
    · cases h
    · next hn => cases h; exact hp res _ hn
  | puschAck p => exact ((puschGate_eq_ok _ _ _ _).mp h).2.1
  | puschCsi1 p => exact ((puschGate_eq_ok _ _ _ _).mp h).2.1

/-! Path. -/

/-- The four regimes (R243). -/
theorem codePath_cases (A : Nat) :
    (A = 0 ∧ codePath A = none) ∨ (A = 1 ∧ codePath A = some .oneBit) ∨ (A = 2 ∧ codePath A = some .twoBit) ∨
    (3 ≤ A ∧ A ≤ 11 ∧ codePath A = some .rm) ∨ (12 ≤ A ∧ codePath A = some .polar) := by
  unfold codePath
  by_cases h0 : A = 0
  · simp [h0]
  by_cases h1 : A = 1
  · simp [h1]
  by_cases h2 : A = 2
  · simp [h2]
  by_cases h3 : A ≤ 11
  · simp [h0, h1, h2, h3]; omega
  · simp [h0, h1, h2, h3]; omega

/-! CRC. -/

theorem crcAttach_eq (c : Config) (s : State) (a : List Bool) (h : 12 ≤ a.length) :
    ∃ p, crcSelect s a.length = some (p, crcLength a.length) ∧ crcAttach c s a = c.crc.attach p (crcLength a.length) a := by
  have key : ∃ p, crcSelect s a.length = some (p, crcLength a.length) := by
    unfold crcSelect crcLength
    simp only [show ¬ a.length ≤ 11 by omega, if_false]
    split
    · exact ⟨_, rfl⟩
    · exact ⟨_, rfl⟩
  obtain ⟨p, hp⟩ := key
  exact ⟨p, hp, by simp [crcAttach, hp]⟩

theorem crcAttach_length (c : Config) (hc : CrcLawful c.crc) (s : State) (a : List Bool) (h : 12 ≤ a.length) :
    (crcAttach c s a).length = a.length + crcLength a.length := by
  obtain ⟨p, -, he⟩ := crcAttach_eq c s a h
  rw [he, hc.attach_length]

theorem crcCheckSplit_fst (c : Config) (s : State) (A : Nat) (bits : List Bool) :
    (crcCheckSplit c s A bits).1 = bits.take A := by
  unfold crcCheckSplit; split <;> rfl

theorem xorPrefix_length (r ts : List Bool) : (xorPrefix r ts).length = r.length := by
  induction r generalizing ts with
  | nil => cases ts <;> rfl
  | cons b r ih => cases ts with
    | nil => rfl
    | cons t ts => simp [xorPrefix, ih]

theorem crcDivide_length (taps : List Bool) (n : Nat) (r : List Bool) : (crcDivide taps n r).length = r.length - n := by
  induction n generalizing r with
  | zero => simp [crcDivide]
  | succ n ih =>
    cases r with
    | nil => simp [crcDivide]
    | cons b r =>
      simp only [crcDivide, ih, List.length_cons]
      split
      · rw [xorPrefix_length]; omega
      · omega

theorem refAttach_length (g : Word) (L : Nat) (a : List Bool) : (refAttach g L a).length = a.length + L := by
  simp [refAttach, crcDivide_length]

/-- The reference CRC engine has the properties R153 asks for. -/
theorem refCrc_lawful : CrcLawful refCrc where
  attach_length := refAttach_length
  attach_prefix p L a := by simp [refCrc, refAttach]
  check_attach p L a := by
    have : (refAttach p L a).take ((refAttach p L a).length - L) = a := by
      rw [refAttach_length]; simp [refAttach]
    simp [refCrc, refCheck, this]

/-! Small-block codec. -/

@[simp] theorem cand_length (A g : Nat) : (cand A g).length = A := by simp [cand]

@[simp] theorem enc1_length (c : Config) (b : Bool) (E : Nat) : (enc1 c b E).length = E := by simp [enc1]

@[simp] theorem enc2_length (c : Config) (b b' : Bool) (E : Nat) : (enc2 c b b' E).length = E := by simp [enc2]

@[simp] theorem encRM_length (c : Config) (a : List Bool) (E : Nat) : (encRM c a E).length = E := by simp [encRM]

@[simp] theorem smallEncode_length (c : Config) (a : List Bool) (E : Nat) : (smallEncode c a E).length = E := by
  unfold smallEncode; split <;> simp

theorem smallEncode_one (c : Config) (a0 : Bool) (E : Nat) : smallEncode c [a0] E = enc1 c a0 E := rfl

theorem smallEncode_two (c : Config) (a0 a1 : Bool) (E : Nat) : smallEncode c [a0, a1] E = enc2 c a0 a1 E := rfl

theorem smallEncode_rm (c : Config) (a : List Bool) (E : Nat) (h : 3 ≤ a.length) : smallEncode c a E = encRM c a E := by
  match a, h with
  | _ :: _ :: _ :: _, _ => rfl

@[simp] theorem noiseless_length (e : List Bool) (M : Int) : (noiseless e M).length = e.length := by simp [noiseless]

/-- The scan answers the smallest index of a maximum over 0 to n, with its value (R180). -/
theorem scanMax_spec (f : Nat → Int) (n : Nat) :
    (scanMax f n).1 ≤ n ∧ (scanMax f n).2 = f (scanMax f n).1 ∧ (∀ g, g ≤ n → f g ≤ (scanMax f n).2) ∧
    (∀ g, g < (scanMax f n).1 → f g < (scanMax f n).2) := by
  induction n with
  | zero =>
    refine ⟨le_refl _, rfl, ?_, ?_⟩
    · intro g hg; have : g = 0 := by omega
      subst this; exact le_refl _
    · intro g hg; exact absurd hg (Nat.not_lt_zero g)
  | succ n ih =>
    obtain ⟨h1, h2, h3, h4⟩ := ih
    have hu : scanMax f (n + 1) = if (scanMax f n).2 < f (n + 1) then (n + 1, f (n + 1)) else scanMax f n := rfl
    rw [hu]
    split
    · next hlt =>
      refine ⟨le_refl _, rfl, ?_, ?_⟩
      · intro g hg
        rcases Nat.lt_or_ge g (n + 1) with h | h
        · exact le_of_lt (lt_of_le_of_lt (h3 g (by omega)) hlt)
        · have : g = n + 1 := by omega
          subst this; exact le_refl _
      · intro g hg
        exact lt_of_le_of_lt (h3 g (by simp only at hg; omega)) hlt
    · next hge =>
      refine ⟨by omega, h2, ?_, h4⟩
      intro g hg
      rcases Nat.lt_or_ge g (n + 1) with h | h
      · exact h3 g (by omega)
      · have : g = n + 1 := by omega
        subst this; omega

theorem smallDecode_one (c : Config) (llr : List Int) (E : Nat) (t1 tb : Int) :
    smallDecode c 1 llr E t1 tb = dec1 c llr E t1 := by simp [smallDecode]

/-- A block decode's result, by its parts (R184). -/
theorem smallDecode_block (c : Config) (A : Nat) (llr : List Int) (E : Nat) (t1 tb : Int) (h : A ≠ 1) :
    ∃ g, g < 2 ^ A ∧ (∀ g', g' < 2 ^ A → corr c A llr E g' ≤ corr c A llr E g) ∧
      (∀ g', g' < g → corr c A llr E g' < corr c A llr E g) ∧
      smallDecode c A llr E t1 tb =
        { aHat := cand A g, rel := accepts (corr c A llr E g) (magnitudeSum llr) tb
          err := if accepts (corr c A llr E g) (magnitudeSum llr) tb then .ok else .lowConfidence
          num := corr c A llr E g, den := magnitudeSum llr } := by
  obtain ⟨h1, h2, h3, h4⟩ := scanMax_spec (corr c A llr E) (2 ^ A - 1)
  have hpos : 0 < 2 ^ A := Nat.two_pow_pos A
  refine ⟨(scanMax (corr c A llr E) (2 ^ A - 1)).1, by omega, ?_, ?_, ?_⟩
  · intro g' hg'; rw [← h2]; exact h3 g' (by omega)
  · intro g' hg'; rw [← h2]; exact h4 g' hg'
  · simp only [smallDecode, h, if_false, ← h2]

@[simp] theorem smallDecode_aHat_length (c : Config) (A : Nat) (llr : List Int) (E : Nat) (t1 tb : Int) :
    (smallDecode c A llr E t1 tb).aHat.length = A := by
  by_cases h : A = 1
  · subst h; simp [smallDecode, dec1]
  · simp [smallDecode, h]

theorem signedOf_range (w : Nat) (hw : 1 ≤ w) (data : Word) : inSigned w (signedOf w data) := by
  have h1 := BitVec.le_two_mul_toInt (x := data.setWidth w)
  have h2 := BitVec.two_mul_toInt_lt (x := data.setWidth w)
  obtain ⟨m, rfl⟩ : ∃ m, w = m + 1 := ⟨w - 1, by omega⟩
  simp only [signedOf, inSigned, Nat.add_sub_cancel]
  push_cast [pow_succ] at h1 h2
  constructor <;> omega

end Sys2Proof.Machine
end

