-- ==== Sys2Proof/Laws/Operands.lean ====
section
/-! SUPPORT. Packing reads exactly the payload the VAL spaces hold, unpacking writes it there and nothing else (spec R242). -/

namespace Sys2Proof.Machine

theorem getElem?_append_left' {α : Type} (a b : List α) (k : Nat) (h : k < a.length) : (a ++ b)[k]? = a[k]? :=
  List.getElem?_append_left h

theorem getElem?_append_right' {α : Type} (a b : List α) (n k : Nat) (h : a.length = n) : (a ++ b)[n + k]? = b[k]? := by
  subst h; rw [List.getElem?_append_right (by omega)]; simp

/-- A payload list is its three fields (R242, either order). -/
theorem splitPucch_append (c : Config) (cfg : UciCfg) (a : List Bool) (h : a.length = totalUciBits cfg) :
    let f := splitPucch c cfg a
    f.1.length = cfg.oAck ∧ f.2.1.length = cfg.oCsi1 ∧ f.2.2.length = cfg.sr.toNat ∧
    a = match c.packOrder with
      | .ackCsi1Sr => f.1 ++ f.2.1 ++ f.2.2
      | .ackSrCsi1 => f.1 ++ f.2.2 ++ f.2.1 := by
  have hsr : (if cfg.sr = true then 1 else 0) = cfg.sr.toNat := by cases cfg.sr <;> rfl
  unfold totalUciBits at h
  unfold splitPucch
  cases ho : c.packOrder with
  | ackCsi1Sr =>
    simp only [hsr] at h ⊢
    refine ⟨by simp; omega, by simp; omega, by simp; omega, ?_⟩
    have : List.take cfg.sr.toNat (List.drop cfg.oCsi1 (List.drop cfg.oAck a)) = List.drop cfg.oCsi1 (List.drop cfg.oAck a) :=
      List.take_of_length_le (by simp; omega)
    rw [this, List.append_assoc, List.take_append_drop, List.take_append_drop]
  | ackSrCsi1 =>
    simp only [hsr] at h ⊢
    refine ⟨by simp; omega, by simp; omega, by simp; omega, ?_⟩
    have : List.take cfg.oCsi1 (List.drop cfg.sr.toNat (List.drop cfg.oAck a)) = List.drop cfg.sr.toNat (List.drop cfg.oAck a) :=
      List.take_of_length_le (by simp; omega)
    rw [this, List.append_assoc, List.take_append_drop, List.take_append_drop]

theorem readSr_eq_ok (cfg : UciCfg) (m : Memory) (sr : List Bool) :
    readSr cfg m = .ok sr ↔ sr.length = cfg.sr.toNat ∧ (cfg.sr = true → Buf.read m.valMisc 0 = sr[0]?) := by
  unfold readSr
  cases h : cfg.sr with
  | false =>
    simp only [Bool.false_eq_true, if_false, Except.ok.injEq, Bool.toNat_false, false_implies, and_true]
    rw [List.length_eq_zero_iff, eq_comm]
  | true =>
    simp only [if_true, memRead_eq_ok, Bool.toNat_true, true_implies]
    constructor
    · rintro ⟨h1, h2⟩; exact ⟨h1, by simpa using h2 0 (by omega)⟩
    · rintro ⟨h1, h2⟩
      refine ⟨h1, fun k hk => ?_⟩
      have : k = 0 := by omega
      subst this; simpa using h2

theorem holds_iff {α : Type} (b : Buf α) (vs : List α) (n : Nat) (h : vs.length = n) :
    Buf.holds b 0 vs ↔ ∀ i, i < n → Buf.read b i = vs[i]? := by
  subst h
  constructor
  · intro hh i hi; simpa using hh i hi
  · intro hh i hi; simpa using hh i hi

theorem pack_pucch_eq_ok (c : Config) (cfg : UciCfg) (res : PucchRes) (m : Memory) (a : List Bool) :
    pack c cfg (.pucch res) m = .ok a ↔
      ∃ ack csi1 sr, memRead .valAck m.valAck 0 cfg.oAck = .ok ack ∧ memRead .valCsi1 m.valCsi1 0 cfg.oCsi1 = .ok csi1 ∧
        readSr cfg m = .ok sr ∧
        a = match c.packOrder with
          | .ackCsi1Sr => ack ++ csi1 ++ sr
          | .ackSrCsi1 => ack ++ sr ++ csi1 := by
  simp only [pack]
  split
  · next ack csi1 sr h1 h2 h3 =>
    rw [h1, h2, h3]
    constructor
    · intro h; exact ⟨ack, csi1, sr, rfl, rfl, rfl, (Except.ok.inj h).symm⟩
    · rintro ⟨x, y, z, hx, hy, hz, rfl⟩
      cases hx; cases hy; cases hz; rfl
  · next r h1 => simp [h1]
  · next r h1 _ => simp [h1]
  · next r h1 _ _ => simp [h1]

/-- Pack answers a payload exactly when the VAL spaces hold it (R242). -/
theorem pack_eq_ok (c : Config) (cfg : UciCfg) (ch : Chan) (m : Memory) (a : List Bool) :
    pack c cfg ch m = .ok a ↔ HoldsPayload c.packOrder cfg ch m a := by
  cases ch with
  | puschAck p =>
    simp only [pack, memRead_eq_ok, HoldsPayload, payloadLength]
    exact and_congr_right (fun h => holds_iff _ _ _ h)
  | puschCsi1 p =>
    simp only [pack, memRead_eq_ok, HoldsPayload, payloadLength]
    exact and_congr_right (fun h => holds_iff _ _ _ h)
  | pucch res =>
    rw [pack_pucch_eq_ok]
    simp only [HoldsPayload, payloadLength]
    have hsr : (if cfg.sr = true then 1 else 0) = cfg.sr.toNat := by cases cfg.sr <;> rfl
    constructor
    · rintro ⟨ack, csi1, sr, h1, h2, h3, rfl⟩
      obtain ⟨l1, h1⟩ := (memRead_eq_ok _ _ _ _ _).mp h1
      obtain ⟨l2, h2⟩ := (memRead_eq_ok _ _ _ _ _).mp h2
      obtain ⟨l3, h3⟩ := (readSr_eq_ok _ _ _).mp h3
      rw [holds_iff _ _ _ l1] at h1
      rw [holds_iff _ _ _ l2] at h2
      cases c.packOrder with
      | ackCsi1Sr =>
        simp only [List.append_assoc]
        refine ⟨by simp [totalUciBits, l1, l2, l3, hsr]; omega, ?_, ?_, ?_⟩
        · intro i hi; rw [h1 i hi, List.getElem?_append_left (by omega)]
        · intro i hi
          rw [h2 i hi, getElem?_append_right' _ _ _ _ l1, List.getElem?_append_left (by omega)]
        · intro hs
          rw [h3 hs, getElem?_append_right' _ _ _ _ l1, ← Nat.add_zero cfg.oCsi1, getElem?_append_right' _ _ _ _ l2]
      | ackSrCsi1 =>
        simp only [List.append_assoc]
        refine ⟨by simp [totalUciBits, l1, l2, l3, hsr]; omega, ?_, ?_, ?_⟩
        · intro i hi; rw [h1 i hi, List.getElem?_append_left (by omega)]
        · intro i hi
          rw [h2 i hi, Nat.add_assoc, getElem?_append_right' _ _ _ _ l1, getElem?_append_right' _ _ _ _ l3]
        · intro hs
          rw [h3 hs, ← Nat.add_zero cfg.oAck, getElem?_append_right' _ _ _ _ l1, List.getElem?_append_left (by simp [l3, hs])]
    · rintro ⟨hl, h1, h23⟩
      obtain ⟨l1, l2, l3, ha⟩ := splitPucch_append c cfg a hl
      generalize splitPucch c cfg a = f at l1 l2 l3 ha
      obtain ⟨ack, csi1, sr⟩ := f
      simp only at l1 l2 l3 ha
      refine ⟨ack, csi1, sr, ?_, ?_, ?_, ha⟩
      · rw [memRead_eq_ok, holds_iff _ _ _ l1]
        refine ⟨l1, fun i hi => ?_⟩
        rw [h1 i hi, ha]
        cases c.packOrder <;> simp only [List.append_assoc] <;> rw [List.getElem?_append_left (by omega)]
      · rw [memRead_eq_ok, holds_iff _ _ _ l2]
        refine ⟨l2, fun i hi => ?_⟩
        cases ho : c.packOrder with
        | ackCsi1Sr =>
          simp only [ho, List.append_assoc] at ha h23
          rw [h23.1 i hi, ha, getElem?_append_right' _ _ _ _ l1, List.getElem?_append_left (by omega)]
        | ackSrCsi1 =>
          simp only [ho, List.append_assoc] at ha h23
          rw [h23.1 i hi, ha, Nat.add_assoc, getElem?_append_right' _ _ _ _ l1, getElem?_append_right' _ _ _ _ l3]
      · rw [readSr_eq_ok]
        refine ⟨l3, fun hs => ?_⟩
        cases ho : c.packOrder with
        | ackCsi1Sr =>
          simp only [ho, List.append_assoc] at ha h23
          rw [h23.2 hs, ha, getElem?_append_right' _ _ _ _ l1, ← Nat.add_zero cfg.oCsi1, getElem?_append_right' _ _ _ _ l2]
        | ackSrCsi1 =>
          simp only [ho, List.append_assoc] at ha h23
          rw [h23.2 hs, ha, ← Nat.add_zero cfg.oAck, getElem?_append_right' _ _ _ _ l1,
            List.getElem?_append_left (by simp [l3, hs])]

/-- Pack refuses only by naming an unspecified element (R33). -/
theorem pack_error (c : Config) (cfg : UciCfg) (ch : Chan) (m : Memory) (r : Refusal) (h : pack c cfg ch m = .error r) :
    ∃ sp, r = .unspecifiedElement sp := by
  cases ch with
  | puschAck p => exact ⟨_, ((memRead_eq_error _ _ _ _ _).mp h).2⟩
  | puschCsi1 p => exact ⟨_, ((memRead_eq_error _ _ _ _ _).mp h).2⟩
  | pucch res =>
    simp only [pack] at h
    split at h
    · cases h
    · next h1 => cases h; exact ⟨_, ((memRead_eq_error _ _ _ _ _).mp h1).2⟩
    · next h1 _ => cases h; exact ⟨_, ((memRead_eq_error _ _ _ _ _).mp h1).2⟩
    · next h1 _ _ =>
      cases h
      unfold readSr at h1
      split at h1
      · exact ⟨_, ((memRead_eq_error _ _ _ _ _).mp h1).2⟩
      · cases h1

/-- Unpack writes nothing but the VAL spaces (R242, R68). -/
theorem unpack_frame (c : Config) (cfg : UciCfg) (ch : Chan) (a : List Bool) (m : Memory) :
    (unpack c cfg ch a m).cod = m.cod ∧ (unpack c cfg ch a m).llr = m.llr ∧
    (unpack c cfg ch a m).bitSequence = m.bitSequence ∧ (unpack c cfg ch a m).c = m.c ∧
    (unpack c cfg ch a m).allocated = m.allocated ∧ (unpack c cfg ch a m).d = m.d := by
  cases ch <;> exact ⟨rfl, rfl, rfl, rfl, rfl, rfl⟩

/-- Which elements of the VAL spaces Unpack leaves (R242, R68). -/
theorem unpack_val_frame (c : Config) (cfg : UciCfg) (ch : Chan) (a : List Bool) (m : Memory)
    (h : a.length = payloadLength cfg ch) :
    (∀ k, (∃ p, ch = .puschCsi1 p) ∨ cfg.oAck ≤ k → Buf.read (unpack c cfg ch a m).valAck k = Buf.read m.valAck k) ∧
    (∀ k, (∃ p, ch = .puschAck p) ∨ cfg.oCsi1 ≤ k → Buf.read (unpack c cfg ch a m).valCsi1 k = Buf.read m.valCsi1 k) ∧
    (∀ k, 1 ≤ k ∨ cfg.sr = false ∨ (∀ res, ch ≠ .pucch res) →
      Buf.read (unpack c cfg ch a m).valMisc k = Buf.read m.valMisc k) := by
  cases ch with
  | puschAck p =>
    simp only [payloadLength] at h
    refine ⟨fun k hk => Buf.read_write_outside _ _ _ _ (.inr ?_), fun k _ => rfl, fun k _ => rfl⟩
    rcases hk with hk | hk
    · exact absurd hk (by simp)
    · omega
  | puschCsi1 p =>
    simp only [payloadLength] at h
    refine ⟨fun k _ => rfl, fun k hk => Buf.read_write_outside _ _ _ _ (.inr ?_), fun k _ => rfl⟩
    rcases hk with hk | hk
    · exact absurd hk (by simp)
    · omega
  | pucch res =>
    obtain ⟨l1, l2, l3, -⟩ := splitPucch_append c cfg a h
    refine ⟨fun k hk => Buf.read_write_outside _ _ _ _ (.inr ?_), fun k hk => Buf.read_write_outside _ _ _ _ (.inr ?_),
      fun k hk => Buf.read_write_outside _ _ _ _ (.inr ?_)⟩
    · rcases hk with hk | hk
      · exact absurd hk (by simp)
      · omega
    · rcases hk with hk | hk
      · exact absurd hk (by simp)
      · omega
    · rcases hk with hk | hk | hk
      · have := Bool.toNat_le cfg.sr; omega
      · rw [hk] at l3; simp only [Bool.toNat_false] at l3; omega
      · exact absurd rfl (hk res)

/-- After Unpack the VAL spaces hold the payload (R242). -/
theorem unpack_holds (c : Config) (cfg : UciCfg) (ch : Chan) (a : List Bool) (m : Memory)
    (h : a.length = payloadLength cfg ch) : HoldsPayload c.packOrder cfg ch (unpack c cfg ch a m) a := by
  cases ch with
  | puschAck p =>
    exact ⟨h, fun i hi => Buf.read_write_zero _ _ _ (by simp only [payloadLength] at h; omega)⟩
  | puschCsi1 p =>
    exact ⟨h, fun i hi => Buf.read_write_zero _ _ _ (by simp only [payloadLength] at h; omega)⟩
  | pucch res =>
    obtain ⟨l1, l2, l3, ha⟩ := splitPucch_append c cfg a h
    rw [← pack_eq_ok, pack_pucch_eq_ok]
    refine ⟨_, _, _, ?_, ?_, ?_, ha⟩
    · rw [memRead_eq_ok, holds_iff _ _ _ l1]
      exact ⟨l1, fun i hi => Buf.read_write_zero _ _ _ (by omega)⟩
    · rw [memRead_eq_ok, holds_iff _ _ _ l2]
      exact ⟨l2, fun i hi => Buf.read_write_zero _ _ _ (by omega)⟩
    · rw [readSr_eq_ok]
      refine ⟨l3, fun hs => Buf.read_write_zero _ _ _ ?_⟩
      rw [hs] at l3; simp only [Bool.toNat_true] at l3; omega

end Sys2Proof.Machine
end

