-- ==== Sys2Proof/Laws/Codec.lean ====
section
/-! SUPPORT. What the codec commands can do, said once: validation, the encode and decode procedures, their frames
(spec R244, R245, R252, R68). -/

namespace Sys2Proof.Machine

/-- A command is rejected by Sequence or it runs (R235, R237). -/
theorem whenAccepted_eq (k : CmdClass) (s : State) (run : Result) :
    (accept s.life k = false ∧ whenAccepted k s run = .next (raise .sequence s)) ∨
    (accept s.life k = true ∧ whenAccepted k s run = run) := by
  unfold whenAccepted
  cases accept s.life k <;> simp

theorem accept_codec (l : Life) : accept l .codec = true ↔ l = .ready := by cases l <;> simp [accept]

theorem accept_query (l : Life) : accept l .query = true := by cases l <;> rfl

theorem polarPlan_eq_ok (c : Config) (A E : Nat) (code : PolarCode) :
    polarPlan c A E = .ok code ↔ c.polar.construct (A + crcLength A) E = some code ∧ code.N ≤ c.nMax := by
  unfold polarPlan
  split
  · next h => simp [h]
  · next code' h =>
    rw [h]
    split
    · next hn =>
      simp only [reduceCtorEq, Option.some.injEq, false_iff]
      rintro ⟨rfl, h2⟩; omega
    · next hn =>
      simp only [Except.ok.injEq, Option.some.injEq]
      constructor
      · rintro rfl; exact ⟨rfl, by omega⟩
      · rintro ⟨h, -⟩; exact h

theorem polarPlan_error (c : Config) (A E : Nat) (e : ErrKind) (h : polarPlan c A E = .error e) : e = .invalidConfig := by
  unfold polarPlan at h
  split at h
  · cases h; rfl
  · split at h <;> cases h; rfl

/-- Step 4 of validation: the coding by the regime of A (R243, R245). -/
theorem chooseCoding_eq_ok (c : Config) (A E : Nat) (k : Coding) (h : chooseCoding c A E = .ok k) :
    (A = 1 ∧ k = .small .oneBit) ∨ (A = 2 ∧ k = .small .twoBit) ∨ (3 ≤ A ∧ A ≤ 11 ∧ k = .small .rm) ∨
    (12 ≤ A ∧ ∃ code, k = .polar code ∧ c.polar.construct (A + crcLength A) E = some code ∧ code.N ≤ c.nMax) := by
  unfold chooseCoding at h
  rcases codePath_cases A with ⟨rfl, hp⟩ | ⟨rfl, hp⟩ | ⟨rfl, hp⟩ | ⟨h1, h2, hp⟩ | ⟨h1, hp⟩ <;> simp only [hp] at h
  · cases h
  · cases h; simp
  · cases h; simp
  · cases h; simp; omega
  · split at h
    · cases h
    · next code hc =>
      cases h
      exact .inr (.inr (.inr ⟨h1, code, rfl, (polarPlan_eq_ok _ _ _ _).mp hc⟩))

theorem chooseCoding_small (c : Config) (A E : Nat) (h1 : 1 ≤ A) (h2 : A ≤ 11) :
    ∃ p, codePath A = some p ∧ p ≠ .polar ∧ chooseCoding c A E = .ok (.small p) := by
  unfold chooseCoding
  rcases codePath_cases A with ⟨rfl, hp⟩ | ⟨rfl, hp⟩ | ⟨rfl, hp⟩ | ⟨-, -, hp⟩ | ⟨h, hp⟩
  · omega
  · exact ⟨_, hp, by simp, by simp [hp]⟩
  · exact ⟨_, hp, by simp, by simp [hp]⟩
  · exact ⟨_, hp, by simp, by simp [hp]⟩
  · omega

theorem chooseCoding_polar (c : Config) (A E : Nat) (h : 12 ≤ A) :
    chooseCoding c A E = (match polarPlan c A E with | .error e => .error e | .ok code => .ok (.polar code)) := by
  unfold chooseCoding
  rcases codePath_cases A with ⟨rfl, _⟩ | ⟨rfl, _⟩ | ⟨rfl, _⟩ | ⟨_, _, _⟩ | ⟨_, hp⟩
  · omega
  · omega
  · omega
  · omega
  · cases hq : polarPlan c A E <;> simp only [hp]

/-- The path a coding reports is the path of A (R243). -/
theorem chooseCoding_path (c : Config) (A E : Nat) (k : Coding) (h : chooseCoding c A E = .ok k) :
    codePath A = some (codingPath k) := by
  rcases chooseCoding_eq_ok c A E k h with ⟨rfl, rfl⟩ | ⟨rfl, rfl⟩ | ⟨h1, h2, rfl⟩ | ⟨h1, code, rfl, _⟩
  · rfl
  · rfl
  · rcases codePath_cases A with ⟨_, _⟩ | ⟨_, _⟩ | ⟨_, _⟩ | ⟨_, _, hp⟩ | ⟨_, _⟩ <;> first | omega | exact hp
  · rcases codePath_cases A with ⟨_, _⟩ | ⟨_, _⟩ | ⟨_, _⟩ | ⟨_, _, _⟩ | ⟨_, hp⟩ <;> first | omega | exact hp

theorem chooseCoding_error (c : Config) (A E : Nat) (e : ErrKind) (h : chooseCoding c A E = .error e) :
    e = .invalidConfig := by
  unfold chooseCoding at h
  split at h
  · cases h; rfl
  · split at h
    · next h' => cases h; exact polarPlan_error _ _ _ _ h'
    · cases h
  · cases h

/-- What validation answers when it passes (R245). -/
theorem validate_eq_ok (c : Config) (s : State) (cfg : UciCfg) (ch : Chan) (plan : Plan) :
    validate c s cfg ch = .ok plan ↔
      codedLength c cfg ch = .ok plan.E ∧ plan.E ≤ s.capE ∧ plan.A = payloadLength cfg ch ∧ 1 ≤ plan.A ∧
      plan.A ≤ s.capA ∧ chooseCoding c plan.A plan.E = .ok plan.coding ∧ plan.L = crcLength plan.A := by
  unfold validate
  constructor
  · intro h
    split at h
    · cases h
    · next E hE =>
      split at h
      · cases h
      · simp only at h
        split at h
        · cases h
        · split at h
          · cases h
          · split at h
            · cases h
            · next k hk =>
              cases h
              refine ⟨hE, ?_, rfl, ?_, ?_, hk, rfl⟩ <;> simp only <;> omega
  · rintro ⟨h1, h2, h3, h4, h5, h6, h7⟩
    obtain ⟨A, E, L, k⟩ := plan
    simp only at h1 h2 h3 h4 h5 h6 h7
    subst h3 h7
    simp only [h1, show ¬ s.capE < E by omega, if_false, show ¬ payloadLength cfg ch = 0 by omega,
      show ¬ s.capA < payloadLength cfg ch by omega, h6]

/-- Validation fails with InvalidResource only from the PUCCH length function, else with InvalidConfig (R245, R285). -/
theorem validate_error (c : Config) (s : State) (cfg : UciCfg) (ch : Chan) (e : ErrKind)
    (h : validate c s cfg ch = .error e) :
    (e = .invalidResource ∧ ∃ res, ch = .pucch res ∧ c.pucchE res = none) ∨ e = .invalidConfig := by
  unfold validate at h
  split at h
  · next e' he =>
    cases h
    rcases codedLength_error c cfg ch _ he with h | h
    · exact .inl h
    · exact .inr h.1
  · split at h
    · cases h; exact .inr rfl
    · simp only at h
      split at h
      · cases h; exact .inr rfl
      · split at h
        · cases h; exact .inr rfl
        · split at h
          · next h' => cases h; exact .inr (chooseCoding_error _ _ _ _ h')
          · cases h

/-- Validation reads nothing of the state but the two capacities (R256). -/
theorem validate_congr (c : Config) (s s' : State) (cfg : UciCfg) (ch : Chan) (hA : s'.capA = s.capA)
    (hE : s'.capE = s.capE) : validate c s' cfg ch = validate c s cfg ch := by
  unfold validate; rw [hA, hE]

/-- Everything an encode can do (R244). -/
theorem codecEncode_cases (c : Config) (cfg : UciCfg) (ch : Chan) (s : State) :
    (s.life ≠ .ready ∧ codecEncode c cfg ch s = .next (raise .sequence s)) ∨
    (s.life = .ready ∧ ∃ e, validate c s cfg ch = .error e ∧ codecEncode c cfg ch s = .next (raise e s)) ∨
    (s.life = .ready ∧ ∃ plan r, validate c s cfg ch = .ok plan ∧ pack c cfg ch s.mem = .error r ∧
      codecEncode c cfg ch s = .refused r) ∨
    (s.life = .ready ∧ ∃ plan a, validate c s cfg ch = .ok plan ∧ pack c cfg ch s.mem = .ok a ∧
      codecEncode c cfg ch s = .next (finishEncode c plan a s)) := by
  unfold codecEncode
  rcases whenAccepted_eq .codec s (encodeRun c cfg ch s) with ⟨ha, he⟩ | ⟨ha, he⟩
  · left
    refine ⟨fun h => ?_, he⟩
    rw [(accept_codec _).mpr h] at ha; cases ha
  · right
    rw [he]
    have hr := (accept_codec _).mp ha
    unfold encodeRun
    cases hv : validate c s cfg ch with
    | error e => exact .inl ⟨hr, e, rfl, rfl⟩
    | ok plan =>
      cases hp : pack c cfg ch s.mem with
      | error r => exact .inr (.inl ⟨hr, plan, r, rfl, rfl, rfl⟩)
      | ok a => exact .inr (.inr ⟨hr, plan, a, rfl, rfl, rfl⟩)

/-- Everything a decode can do (R244). -/
theorem codecDecode_cases (c : Config) (cfg : UciCfg) (ch : Chan) (s : State) :
    (s.life ≠ .ready ∧ codecDecode c cfg ch s = .next (raise .sequence s)) ∨
    (s.life = .ready ∧ ∃ e, validate c s cfg ch = .error e ∧ codecDecode c cfg ch s = .next (raise e s)) ∨
    (s.life = .ready ∧ ∃ plan, validate c s cfg ch = .ok plan ∧ Buf.readRange s.mem.llr 0 plan.E = none ∧
      codecDecode c cfg ch s = .refused (.unspecifiedElement .llr)) ∨
    (s.life = .ready ∧ ∃ plan llr, validate c s cfg ch = .ok plan ∧ llr.length = plan.E ∧ Buf.holds s.mem.llr 0 llr ∧
      codecDecode c cfg ch s = .next (finishDecode c cfg ch plan llr s)) := by
  unfold codecDecode
  rcases whenAccepted_eq .codec s (decodeRun c cfg ch s) with ⟨ha, he⟩ | ⟨ha, he⟩
  · left
    refine ⟨fun h => ?_, he⟩
    rw [(accept_codec _).mpr h] at ha; cases ha
  · right
    rw [he]
    have hr := (accept_codec _).mp ha
    unfold decodeRun
    cases hv : validate c s cfg ch with
    | error e => exact .inl ⟨hr, e, rfl, rfl⟩
    | ok plan =>
      simp only
      cases hp : memRead .llr s.mem.llr 0 plan.E with
      | error r =>
        obtain ⟨h1, rfl⟩ := (memRead_eq_error _ _ _ _ _).mp hp
        exact .inr (.inl ⟨hr, plan, rfl, h1, rfl⟩)
      | ok llr =>
        obtain ⟨h1, h2⟩ := (memRead_eq_ok _ _ _ _ _).mp hp
        exact .inr (.inr ⟨hr, plan, llr, rfl, h1, h2, rfl⟩)

theorem codecEncode_run (c : Config) (cfg : UciCfg) (ch : Chan) (s : State) (plan : Plan) (a : List Bool)
    (hr : s.life = .ready) (hv : validate c s cfg ch = .ok plan) (hp : HoldsPayload c.packOrder cfg ch s.mem a) :
    codecEncode c cfg ch s = .next (finishEncode c plan a s) := by
  rw [← pack_eq_ok] at hp
  unfold codecEncode whenAccepted encodeRun
  rw [(accept_codec _).mpr hr]
  simp [hv, hp]

theorem codecDecode_run (c : Config) (cfg : UciCfg) (ch : Chan) (s : State) (plan : Plan) (llr : List Int)
    (hr : s.life = .ready) (hv : validate c s cfg ch = .ok plan) (hl : llr.length = plan.E)
    (hh : Buf.holds s.mem.llr 0 llr) :
    codecDecode c cfg ch s = .next (finishDecode c cfg ch plan llr s) := by
  have hm : memRead .llr s.mem.llr 0 plan.E = .ok llr := (memRead_eq_ok _ _ _ _ _).mpr ⟨hl, hh⟩
  unfold codecDecode whenAccepted decodeRun
  rw [(accept_codec _).mpr hr]
  simp [hv, hm]

/-! The two finishing procedures, by the coding. -/

theorem finishEncode_small (c : Config) (plan : Plan) (a : List Bool) (s : State) (p : Path)
    (h : plan.coding = .small p) :
    finishEncode c plan a s =
      respond .ok true (some p) plan.L (BitVec.ofNat 32 plan.E) (BitVec.ofNat 32 plan.A) 0 0
        { s with mem := { s.mem with
          bitSequence := s.mem.bitSequence.write 0 a, cod := s.mem.cod.write 0 (smallEncode c a plan.E) } } := by
  simp [finishEncode, encodeBits, h, codingPath]

theorem finishEncode_polar (c : Config) (plan : Plan) (a : List Bool) (s : State) (code : PolarCode)
    (h : plan.coding = .polar code) :
    finishEncode c plan a s =
      respond .ok true (some .polar) plan.L (BitVec.ofNat 32 plan.E) (BitVec.ofNat 32 plan.A) 0 0
        { s with
          polarValid := true, polarK := code.K, polarE := code.E, polarN := code.N
          mem := { s.mem with
            bitSequence := s.mem.bitSequence.write 0 a
            c := s.mem.c.write 0 (crcAttach c s a)
            allocated := s.mem.allocated.write 0 (c.polar.allocate code (crcAttach c s a))
            d := s.mem.d.write 0 ((c.polar.encode code (c.polar.allocate code (crcAttach c s a))).map bitInt)
            cod := s.mem.cod.write 0
              (c.polar.rateMatch code (c.polar.encode code (c.polar.allocate code (crcAttach c s a)))) } } := by
  simp [finishEncode, encodeBits, h, codingPath, polarEncode, setPolar, crcAttach, crcSelect]

theorem finishDecode_small (c : Config) (cfg : UciCfg) (ch : Chan) (plan : Plan) (llr : List Int) (s : State) (p : Path)
    (h : plan.coding = .small p) :
    finishDecode c cfg ch plan llr s =
      let r := smallDecode c plan.A llr plan.E s.thr1.toInt s.thrb.toInt
      let m := unpack c cfg ch r.aHat { s.mem with bitSequence := s.mem.bitSequence.write 0 r.aHat }
      respond r.err r.rel (some p) plan.L (BitVec.ofNat 32 plan.E) (BitVec.ofNat 32 plan.A)
        (BitVec.ofInt 32 r.num) (BitVec.ofNat 32 r.den)
        { s with mem := { m with valMisc := m.valMisc.write 1 [r.rel] } } := by
  simp [finishDecode, decodeBits, h, codingPath]

theorem finishDecode_polar (c : Config) (cfg : UciCfg) (ch : Chan) (plan : Plan) (llr : List Int) (s : State)
    (code : PolarCode) (h : plan.coding = .polar code) :
    finishDecode c cfg ch plan llr s =
      let y := c.polar.derate code llr
      let cHat := c.polar.decode code y
      let pass := (crcCheckSplit c s plan.A cHat).2
      let m := unpack c cfg ch (cHat.take plan.A)
        { s.mem with
          d := s.mem.d.write 0 y, c := s.mem.c.write 0 cHat, bitSequence := s.mem.bitSequence.write 0 (cHat.take plan.A) }
      respond (if pass then .ok else .crcMismatch) pass (some .polar) plan.L (BitVec.ofNat 32 plan.E)
        (BitVec.ofNat 32 plan.A) 0 0
        { s with
          polarValid := true, polarK := code.K, polarE := code.E, polarN := code.N
          mem := { m with valMisc := m.valMisc.write 1 [pass] } } := by
  have hs : crcCheckSplit c (setPolar code s) plan.A = crcCheckSplit c s plan.A := rfl
  simp only [finishDecode, decodeBits, h, codingPath, polarDecode, hs, crcCheckSplit_fst]
  rfl

/-- An encode never writes the session registers (R68). -/
theorem finishEncode_same (c : Config) (plan : Plan) (a : List Bool) (s : State) :
    SessionSame s (finishEncode c plan a s) := by
  cases h : plan.coding with
  | small p => rw [finishEncode_small c plan a s p h]; exact ⟨rfl, rfl, rfl, rfl, rfl, rfl, rfl, rfl, rfl, rfl, rfl, rfl, rfl⟩
  | polar code => rw [finishEncode_polar c plan a s code h]; exact ⟨rfl, rfl, rfl, rfl, rfl, rfl, rfl, rfl, rfl, rfl, rfl, rfl, rfl⟩

/-- A decode never writes the session registers (R68). -/
theorem finishDecode_same (c : Config) (cfg : UciCfg) (ch : Chan) (plan : Plan) (llr : List Int) (s : State) :
    SessionSame s (finishDecode c cfg ch plan llr s) := by
  cases h : plan.coding with
  | small p =>
    rw [finishDecode_small c cfg ch plan llr s p h]
    exact ⟨rfl, rfl, rfl, rfl, rfl, rfl, rfl, rfl, rfl, rfl, rfl, rfl, rfl⟩
  | polar code =>
    rw [finishDecode_polar c cfg ch plan llr s code h]
    exact ⟨rfl, rfl, rfl, rfl, rfl, rfl, rfl, rfl, rfl, rfl, rfl, rfl, rfl⟩

end Sys2Proof.Machine
end

