-- ==== Sys2Proof/Laws/Decode.lean ====
section
/-! SUPPORT. The frame decoder, header by header, and the slices it takes (spec R9, R91, R92, R100). -/

namespace Sys2Proof

/-- A slice of a word made from a number. -/
theorem slice_ofNat (n lo len : Nat) (h : n < 2 ^ 32) : slice (BitVec.ofNat 32 n) lo len = n / 2 ^ lo % 2 ^ len := by
  rw [slice, BitVec.toNat_ofNat, Nat.mod_eq_of_lt h]

/-- A slice of `len` bits is below 2^len. -/
theorem slice_lt (w : Word) (lo len : Nat) : slice w lo len < 2 ^ len := Nat.mod_lt _ (Nat.two_pow_pos len)

/-- A slice is the bits hi down to lo (R9). -/
theorem slice_eq_bitsOf (w : Word) (lo len : Nat) : slice w lo (len + 1) = Machine.bitsOf w (lo + len) lo := by
  simp [Machine.bitsOf, slice, BitVec.extractLsb, BitVec.extractLsb', Nat.shiftRight_eq_div_pow]

/-- A one-bit field is the bit. -/
theorem sliceBit_eq (w : Word) (lo : Nat) : sliceBit w lo = w.getLsbD lo := by
  simp only [sliceBit, slice, BitVec.getLsbD, Nat.testBit, Nat.shiftRight_eq_div_pow, pow_one, Nat.one_and_eq_mod_two]
  rcases Nat.mod_two_eq_zero_or_one (w.toNat / 2 ^ lo) with h | h <;> simp [h]

/-- A header with a reserved bit set is illegal (R91). -/
theorem decode_reservedHeader (h : Word) (a : Args) (hh : slice h 4 28 ≠ 0) :
    decode ⟨h, a⟩ = .error .reservedHeaderBits := by simp [decode, hh]

/-- A header with no reserved bit set is its opcode. -/
theorem header_eq_opcode (h : Word) (hh : slice h 4 28 = 0) : h = BitVec.ofNat 32 (slice h 0 4) ∧ slice h 0 4 < 16 := by
  have hlt := h.isLt
  refine ⟨?_, slice_lt h 0 4⟩
  apply BitVec.eq_of_toNat_eq
  simp only [slice] at hh ⊢
  rw [BitVec.toNat_ofNat]
  omega

theorem decode_header0 (a : Args) : decode ⟨0, a⟩ = .error .reservedOpcode := by simp [decode, slice]

theorem decode_header1 (a : Args) : decode ⟨1, a⟩ = .ok (.init a.a0 a.a1) := by simp [decode, slice]

theorem decode_header2 (a : Args) : decode ⟨2, a⟩ = .ok .free := by simp [decode, slice]

theorem decode_header3 (a : Args) : decode ⟨3, a⟩ = decodeC a := by simp [decode, slice]

theorem decode_header4 (a : Args) : decode ⟨4, a⟩ = decodeP .encPucch a := by simp [decode, slice]

theorem decode_header5 (a : Args) : decode ⟨5, a⟩ = decodeP .decPucch a := by simp [decode, slice]

theorem decode_header6 (a : Args) : decode ⟨6, a⟩ = decodeS .encPuschAck a := by simp [decode, slice]

theorem decode_header7 (a : Args) : decode ⟨7, a⟩ = decodeS .decPuschAck a := by simp [decode, slice]

theorem decode_header8 (a : Args) : decode ⟨8, a⟩ = decodeS .encPuschCsi1 a := by simp [decode, slice]

theorem decode_header9 (a : Args) : decode ⟨9, a⟩ = decodeS .decPuschCsi1 a := by simp [decode, slice]

theorem decode_header10 (a : Args) : decode ⟨10, a⟩ = decodeU a := by simp [decode, slice]

theorem decode_header11 (a : Args) : decode ⟨11, a⟩ = .ok (.qCrcLen a.a0.toNat) := by simp [decode, slice]

theorem decode_header12 (a : Args) : decode ⟨12, a⟩ = decodeR a := by simp [decode, slice]

theorem decode_header13 (a : Args) : decode ⟨13, a⟩ = decodeS .qPuschAckE a := by simp [decode, slice]

theorem decode_header14 (a : Args) : decode ⟨14, a⟩ = decodeS .qPuschCsi1E a := by simp [decode, slice]

theorem decode_header15 (a : Args) : decode ⟨15, a⟩ = .error .reservedOpcode := by simp [decode, slice]

end Sys2Proof
end

