-- ==== Sys2Proof/Laws/Engine.lean ====
section
/-! SUPPORT. The machine's Polar engine has every property the spec asks of an instance, whatever the uninterpreted
constants are (spec R211, log 9), and the machine's record keeps the bounds of R7. -/

namespace Sys2Proof.Machine

/-! The uninterpreted engine: the shape of its answers. -/

theorem freePolar_construct (w K E : Nat) (code : PolarCode) (h : (freePolar w).construct K E = some code) :
    code.K = K ∧ code.E = E ∧ (∃ n, code.N = 2 ^ n) ∧ K ≤ code.N := by
  simp only [freePolar] at h
  split at h
  · cases h
  · next n _ =>
    split at h
    · next hK => cases h; exact ⟨rfl, rfl, ⟨n, rfl⟩, hK⟩
    · cases h

theorem freePolar_derate_range (w : Nat) (hw : 1 ≤ w) (code : PolarCode) (llr : List Int) :
    ∀ v ∈ (freePolar w).derate code llr, inSigned w v := by
  intro v hv
  simp only [freePolar, List.mem_map] at hv
  obtain ⟨k, -, rfl⟩ := hv
  exact signedOf_range w hw (Config.freePolarDerate code llr k)

/-! The plain engine. -/

theorem plainPolar_construct (K E : Nat) (code : PolarCode) (h : plainPolar.construct K E = some code) :
    K ≤ E ∧ code.K = K ∧ code.E = E ∧ (∃ n, code.N = 2 ^ n) ∧ K ≤ code.N := by
  simp only [plainPolar] at h
  split at h
  · next hE =>
    cases h
    refine ⟨hE, rfl, rfl, ?_, ?_⟩ <;> dsimp only <;> split
    · exact ⟨5, rfl⟩
    · exact ⟨K, rfl⟩
    · assumption
    · exact Nat.le_of_lt Nat.lt_two_pow_self
  · cases h

theorem plainPolar_derate_range (v w : Nat) (hvw : v ≤ w) (code : PolarCode) (llr : List Int)
    (h : ∀ x ∈ llr, inSigned v x) : ∀ x ∈ plainPolar.derate code llr, inSigned w x := by
  intro x hx
  simp only [plainPolar, List.mem_map, List.mem_range] at hx
  obtain ⟨k, -, rfl⟩ := hx
  have hp : (2 : Int) ^ (v - 1) ≤ 2 ^ (w - 1) := pow_le_pow_right₀ (by omega) (by omega)
  have h0 : (0 : Int) < 2 ^ (w - 1) := by positivity
  by_cases hk : k < llr.length
  · have := h (llr.getD k 0) (by simp [List.getD, hk])
    simp only [inSigned] at this ⊢
    omega
  · simp only [List.getD, List.getElem?_eq_none (Nat.le_of_not_lt hk), Option.getD_none, inSigned]
    omega

/-- The plain engine gives a noiseless word back at every code that holds its K bits. -/
theorem plainPolar_noiseless (code : PolarCode) (M : Int) (bits : List Bool) (hb : bits.length = code.K)
    (hE : code.K ≤ code.E) (hN : code.K ≤ code.N) (hM : 1 ≤ M) : noiselessDecode plainPolar code M bits = bits := by
  apply List.ext_getElem
  · simp [noiselessDecode, plainPolar, hb]
  · intro k hk _
    have hk' : k < code.K := by simpa [noiselessDecode, plainPolar] using hk
    have e : k < code.E := by omega
    have n : k < code.N := by omega
    have l : k < bits.length := by omega
    simp only [noiselessDecode, plainPolar, noiseless, List.getElem_map, List.getElem_range, List.getD,
      List.getElem?_map, e, n, l, Option.map_some, Option.getD_some, List.getElem?_eq_getElem, List.length_range]
    cases bits[k] <;> simp [pm] <;> omega

/-! The check of P-POL2. -/

theorem mem_bitStrings (bits : List Bool) : bits ∈ bitStrings bits.length := by
  induction bits with
  | nil => simp [bitStrings]
  | cons b bits ih =>
    simp only [List.length_cons, bitStrings, List.mem_flatMap]
    exact ⟨bits, ih, by cases b <;> simp⟩

theorem roundTrips_noiseless (e : PolarEngine) (v : Nat) (code : PolarCode) (h : roundTrips e v code = true) (M : Int)
    (bits : List Bool) (hb : bits.length = code.K) (h1 : 1 ≤ M) (h2 : M ≤ 2 ^ (v - 1) - 1) :
    noiselessDecode e code M bits = bits := by
  simp only [roundTrips, List.all_eq_true, List.mem_range, beq_iff_eq] at h
  have hp : ((2 ^ (v - 1) : Nat) : Int) = 2 ^ (v - 1) := by push_cast; rfl
  have := h bits (hb ▸ mem_bitStrings bits) (M - 1).toNat (by omega)
  rwa [show ((M - 1).toNat : Int) + 1 = M by omega] at this

/-! The engine of the machine. -/

/-- One of the two engines serves a code. -/
theorem engineFor_cases (v w : Nat) (code : PolarCode) :
    (roundTrips (freePolar w) v code = true ∧ engineFor v w code = freePolar w) ∨ engineFor v w code = plainPolar := by
  unfold engineFor
  split
  · next h => exact .inl ⟨h, rfl⟩
  · exact .inr rfl

theorem polarDefault_construct (v w K E : Nat) (code : PolarCode) (h : (polarDefault v w).construct K E = some code) :
    K ≤ E ∧ code.K = K ∧ code.E = E ∧ (∃ n, code.N = 2 ^ n) ∧ K ≤ code.N := by
  simp only [polarDefault] at h
  split at h
  · cases h
  · next hE =>
    split at h
    · next code' hc =>
      cases h
      exact ⟨by omega, freePolar_construct w K E code hc⟩
    · split at h
      · exact plainPolar_construct K E code h
      · cases h

/-- P-POL1 (R211). -/
theorem polarDefault_shaped (v w : Nat) (hw : 1 ≤ w) (hvw : v ≤ w) : PolarShaped (polarDefault v w) v w where
  construct_shape K E code h := (polarDefault_construct v w K E code h).2
  allocate_length K E code bits _ _ := by
    rcases engineFor_cases v w code with ⟨-, h⟩ | h <;> simp [polarDefault, h, freePolar, plainPolar]
  encode_length K E code bits _ _ := by
    rcases engineFor_cases v w code with ⟨-, h⟩ | h <;> simp [polarDefault, h, freePolar, plainPolar]
  rateMatch_length K E code bits hc _ := by
    have hE := (polarDefault_construct v w K E code hc).2.2.1
    rcases engineFor_cases v w code with ⟨-, h⟩ | h <;> simp [polarDefault, h, freePolar, plainPolar, hE]
  derate_length K E code llr _ _ _ := by
    rcases engineFor_cases v w code with ⟨-, h⟩ | h <;> simp [polarDefault, h, freePolar, plainPolar]
  derate_range K E code llr _ _ hv := by
    rcases engineFor_cases v w code with ⟨-, h⟩ | h <;> simp only [polarDefault, h]
    · exact freePolar_derate_range w hw code llr
    · exact plainPolar_derate_range v w hvw code llr hv
  decode_length K E code soft hc _ _ := by
    have hK := (polarDefault_construct v w K E code hc).2.1
    rcases engineFor_cases v w code with ⟨-, h⟩ | h <;> simp [polarDefault, h, freePolar, plainPolar, hK]

/-- P-POL1, P-POL2 and P-POL4 (R211): the engine of the machine is one the spec admits. -/
theorem polarDefault_lawful (v w : Nat) (hw : 1 ≤ w) (hvw : v ≤ w) : PolarLawful (polarDefault v w) v w where
  shaped := polarDefault_shaped v w hw hvw
  round_trip K E code bits M hc hb h1 h2 := by
    obtain ⟨hE, hK, hE', -, hN⟩ := polarDefault_construct v w K E code hc
    have key : noiselessDecode (engineFor v w code) code M bits = bits := by
      rcases engineFor_cases v w code with ⟨hr, h⟩ | h <;> rw [h]
      · exact roundTrips_noiseless _ v code hr M bits (by omega) h1 h2
      · exact plainPolar_noiseless code M bits (by omega) (by omega) (by omega) h1
    exact key
  serves_31_100 := by
    simp only [polarDefault]
    split
    · omega
    · split
      · rfl
      · simp [plainPolar]

/-- The plain engine is one the spec admits. -/
theorem plainPolar_lawful (v w : Nat) (hvw : v ≤ w) : PolarLawful plainPolar v w where
  shaped :=
    { construct_shape := fun K E code h => (plainPolar_construct K E code h).2
      allocate_length := fun _ _ _ _ _ _ => by simp [plainPolar]
      encode_length := fun _ _ _ _ _ _ => by simp [plainPolar]
      rateMatch_length := fun K E code _ h _ => by simp [plainPolar, (plainPolar_construct K E code h).2.2.1]
      derate_length := fun _ _ _ _ _ _ _ => by simp [plainPolar]
      derate_range := fun _ _ code llr _ _ hv => plainPolar_derate_range v w hvw code llr hv
      decode_length := fun K E code _ h _ _ => by simp [plainPolar, (plainPolar_construct K E code h).2.1] }
  round_trip K E code bits M hc hb h1 _ := by
    obtain ⟨hE, hK, hE', -, hN⟩ := plainPolar_construct K E code hc
    exact plainPolar_noiseless code M bits (by omega) (by omega) (by omega) h1
  serves_31_100 := by simp [plainPolar]

/-! The record of the machine. -/

/-- The default record keeps the bounds and the contracts the spec gives a configuration record (R7, R123, R152, R241). -/
theorem config_legal : ConfigLegal config where
  aMax_low := by decide
  aMax_high := by decide
  eMax_low := by decide
  eMax_high := by decide
  nMax_pow := ⟨13, rfl⟩
  nMax_low := by decide
  llrW_low := by decide
  llrW_high := by decide
  softW_low := by decide
  softW_high := by decide
  poly6_degree := by decide
  poly11_degree := by decide
  pucch_no_prb res h := by
    simp only [config, pucchEDefault]
    split <;> simp [h]
  pucch_positive res E h := by
    simp only [config, pucchEDefault] at h
    split at h
    · split at h
      · rename_i _ hc
        obtain ⟨h1, h2, _, h4⟩ := hc
        cases h
        rw [h4]
        rcases h1 with h1 | h1 <;> rw [h1] <;> omega
      · cases h
    · split at h
      · rename_i _ hc
        obtain ⟨h1, _, h2, _, h4⟩ := hc
        cases h
        have : 0 < res.nsym * res.nprb := Nat.mul_pos (by omega) (by omega)
        rcases h4 with h4 | h4 <;> rw [h4, Nat.mul_assoc] <;> omega
      · cases h
    · split at h
      · rename_i _ hc
        obtain ⟨h1, _, h2, h4, h5⟩ := hc
        cases h
        rcases h4 with h4 | h4 <;> rcases h5 with h5 | h5 <;> rw [h4, h5] <;> omega
      · cases h
    · cases h
  pucch_format res h2 h3 h4 := by
    simp only [config, pucchEDefault]
  carrier_caps mu nprb a e h := by
    simp only [config, carrierCapDefault] at h
    split at h
    · cases h
    · cases h; decide

end Sys2Proof.Machine
end

