-- ==== Sys2Proof/Laws/Exec.lean ====
section
/-! SUPPORT. The session and query commands, said once, and exec as the commands at the machine's configuration record. -/

namespace Sys2Proof.Machine

/-- exec is execIn at the machine's configuration record. -/
theorem exec_eq_execIn (i : Instr) (s : State) : exec i s = execIn config i s := by cases i <;> rfl

theorem execIn_encodeInstr (c : Config) (cfg : UciCfg) (ch : Chan) (s : State) :
    execIn c (encodeInstr cfg ch) s = codecEncode c cfg ch s := by cases ch <;> rfl

theorem execIn_decodeInstr (c : Config) (cfg : UciCfg) (ch : Chan) (s : State) :
    execIn c (decodeInstr cfg ch) s = codecDecode c cfg ch s := by cases ch <;> rfl

theorem exec_encodeInstr (cfg : UciCfg) (ch : Chan) (s : State) :
    exec (encodeInstr cfg ch) s = codecEncode config cfg ch s := by cases ch <;> rfl

theorem exec_decodeInstr (cfg : UciCfg) (ch : Chan) (s : State) :
    exec (decodeInstr cfg ch) s = codecDecode config cfg ch s := by cases ch <;> rfl

/-- INIT: in UNINIT it latches, elsewhere it is rejected (R238). -/
theorem initIn_cases (c : Config) (thr1 thrb : Word) (s : State) :
    (s.life = .uninit ∧ initIn c thr1 thrb s = .next (respondOk { dropScratch s with
      thr1 := thr1, thrb := thrb, crc6 := c.poly6, crc11 := c.poly11, life := .noCarrier })) ∨
    (s.life ≠ .uninit ∧ initIn c thr1 thrb s = .next (raise .sequence s)) := by
  unfold initIn whenAccepted
  cases h : s.life <;> simp [accept]

/-- FREE: with a session it clears, in UNINIT it is rejected (R239). -/
theorem freeIn_cases (s : State) :
    (s.life ≠ .uninit ∧ freeIn s = .next (respondOk { clearPolar (dropScratch s) with
      thr1 := 0, thrb := 0, crc6 := 0, crc11 := 0, carrier := 0, capA := 0, capE := 0, life := .uninit })) ∨
    (s.life = .uninit ∧ freeIn s = .next (raise .sequence s)) := by
  unfold freeIn whenAccepted
  cases h : s.life <;> simp [accept]

/-- SETCARRIER: rejected in UNINIT, rejected for an illegal carrier, else the carrier is set (R240). -/
theorem setCarrierIn_cases (c : Config) (mu nprb : Nat) (s : State) :
    (s.life = .uninit ∧ setCarrierIn c mu nprb s = .next (raise .sequence s)) ∨
    (s.life ≠ .uninit ∧ c.carrierCap mu nprb = none ∧ setCarrierIn c mu nprb s = .next (raise .invalidConfig s)) ∨
    (s.life ≠ .uninit ∧ ∃ a e, c.carrierCap mu nprb = some (a, e) ∧
      setCarrierIn c mu nprb s = .next (respondOk { clearPolar (dropScratch s) with
        carrier := s.arg.a0, capA := a, capE := e, life := .ready })) := by
  have key : setCarrierIn c mu nprb s = whenAccepted .setCarrier s (.next (setCarrierRun c mu nprb s)) := rfl
  rcases whenAccepted_eq .setCarrier s (.next (setCarrierRun c mu nprb s)) with ⟨ha, he⟩ | ⟨ha, he⟩
  · left
    refine ⟨?_, by rw [key, he]⟩
    revert ha; cases s.life <;> simp [accept]
  · right
    have hl : s.life ≠ .uninit := by intro h; rw [h] at ha; cases ha
    rw [key, he]
    unfold setCarrierRun
    cases hc : c.carrierCap mu nprb with
    | none => exact .inl ⟨hl, rfl, rfl⟩
    | some p => exact .inr ⟨hl, p.1, p.2, rfl, rfl⟩

theorem whenAccepted_query (s : State) (run : Result) : whenAccepted .query s run = run := by
  unfold whenAccepted; rw [accept_query]; rfl

theorem qTotalIn_eq (cfg : UciCfg) (s : State) : qTotalIn cfg s = .next (respondQuery 0 (totalUciBits cfg) 0 s) :=
  whenAccepted_query _ _

theorem qCrcLenIn_eq (a : Nat) (s : State) : qCrcLenIn a s = .next (respondQuery (crcLength a) (crcLength a) a s) :=
  whenAccepted_query _ _

theorem qPucchEIn_eq (c : Config) (res : PucchRes) (s : State) :
    qPucchEIn c res s = .next (respondLength (pucchOutputLength c res) 0 s) := whenAccepted_query _ _

theorem qPuschAckEIn_eq (c : Config) (cfg : UciCfg) (p : PuschCfg) (s : State) :
    qPuschAckEIn c cfg p s = .next (respondLength (puschAckOutputLength c p cfg.oAck) cfg.oAck s) := whenAccepted_query _ _

theorem qPuschCsi1EIn_eq (c : Config) (cfg : UciCfg) (p : PuschCfg) (s : State) :
    qPuschCsi1EIn c cfg p s = .next (respondLength (puschCsi1OutputLength c p cfg) cfg.oCsi1 s) := whenAccepted_query _ _

/-- A query's length response changes nothing but RESP (R137). -/
theorem respondLength_eq (E : Except ErrKind Nat) (r2 : Nat) (s : State) :
    ∃ r, respondLength E r2 s = { s with resp := r } := by
  unfold respondLength; cases E <;> exact ⟨_, rfl⟩

end Sys2Proof.Machine
end

