-- ==== Sys2Proof/Laws/Response.lean ====
section
/-! SUPPORT. The response word: what Respond writes, as a number, and its fields read back (spec R28, R283). -/

namespace Sys2Proof.Machine

/-- A number below 2^i and one shifted past it join to their sum. -/
theorem or_shift (x i a : Nat) (hx : x < 2 ^ i) (h : 2 ^ i * a + x < 2 ^ 32) :
    BitVec.ofNat 32 x ||| (BitVec.ofNat 32 a <<< i) = BitVec.ofNat 32 (x + 2 ^ i * a) := by
  apply BitVec.eq_of_toNat_eq
  have ha : a * 2 ^ i < 2 ^ 32 := by rw [Nat.mul_comm]; omega
  have ha' : a < 2 ^ 32 := lt_of_le_of_lt (Nat.le_mul_of_pos_right a (Nat.two_pow_pos i)) ha
  rw [BitVec.toNat_or, BitVec.toNat_shiftLeft, BitVec.toNat_ofNat, BitVec.toNat_ofNat, BitVec.toNat_ofNat,
    Nat.mod_eq_of_lt (a := x) (by omega), Nat.mod_eq_of_lt ha', Nat.shiftLeft_eq, Nat.mod_eq_of_lt ha,
    Nat.mod_eq_of_lt (a := x + _) (by omega), Nat.or_comm, Nat.mul_comm a, ← Nat.two_pow_add_eq_or_of_lt hx, Nat.add_comm]

/-- RESP0 is the sum of its fields at their places (R28). -/
theorem resp0Word_eq (err : ErrKind) (rel : Bool) (path : Option Path) (L opc : Nat) (hL : L < 16) (ho : opc < 16) :
    resp0Word err rel path L opc =
      BitVec.ofNat 32 (err.code + 16 * rel.toNat + 32 * pathCode path + 256 * L + 4096 * opc) := by
  have h1 : err.code < 16 := by cases err <;> simp [ErrKind.code]
  have h2 := Bool.toNat_le rel
  have h3 : pathCode path < 8 := by rcases path with _ | p <;> [skip; cases p] <;> simp [pathCode]
  unfold resp0Word
  rw [or_shift _ 4 _ (by omega) (by omega), or_shift _ 5 _ (by omega) (by omega), or_shift _ 8 _ (by omega) (by omega),
    or_shift _ 12 _ (by omega) (by omega)]
  simp only [Nat.reducePow]

/-- Respond writes the five response registers, RESP0 by its fields, and nothing else (R283). -/
theorem respond_eq (err : ErrKind) (rel : Bool) (path : Option Path) (L : Nat) (r1 r2 r3 r4 : Word) (s : State)
    (hL : L < 16) :
    respond err rel path L r1 r2 r3 r4 s =
      { s with resp := respOf s err.code rel.toNat (pathCode path) L r1 r2 r3 r4 } := by
  have : slice s.cmd 0 4 = s.cmd.toNat % 16 := by simp [slice]
  unfold respond respOf
  rw [resp0Word_eq _ _ _ _ _ hL (by rw [this]; omega), this]

/-- The fields of a response word read back (R28). -/
theorem respOf_fields (s : State) (err rel path L : Nat) (r1 r2 r3 r4 : Word) (h1 : err < 16) (h2 : rel < 2)
    (h3 : path < 8) (h4 : L < 16) :
    errField (respOf s err rel path L r1 r2 r3 r4).r0 = err ∧ relField (respOf s err rel path L r1 r2 r3 r4).r0 = rel ∧
    pathField (respOf s err rel path L r1 r2 r3 r4).r0 = path ∧
    crcLenField (respOf s err rel path L r1 r2 r3 r4).r0 = L ∧
    opcField (respOf s err rel path L r1 r2 r3 r4).r0 = s.cmd.toNat % 16 ∧
    slice (respOf s err rel path L r1 r2 r3 r4).r0 16 16 = 0 := by
  have ho : s.cmd.toNat % 16 < 16 := Nat.mod_lt _ (by omega)
  have hlt : err + 16 * rel + 32 * path + 256 * L + 4096 * (s.cmd.toNat % 16) < 2 ^ 32 := by omega
  simp only [respOf, errField, relField, pathField, crcLenField, opcField, slice, BitVec.toNat_ofNat,
    Nat.mod_eq_of_lt hlt]
  refine ⟨?_, ?_, ?_, ?_, ?_, ?_⟩ <;> omega

/-- `raise` writes RESP, with every field but `err` and `opc` zero, and nothing else (R283). -/
theorem raise_eq (e : ErrKind) (s : State) : raise e s = { s with resp := respOf s e.code 0 0 0 0 0 0 0 } :=
  respond_eq e false none 0 0 0 0 0 s (by omega)

theorem respondOk_eq (s : State) : respondOk s = { s with resp := respOf s 0 1 0 0 0 0 0 0 } :=
  respond_eq .ok true none 0 0 0 0 0 s (by omega)

end Sys2Proof.Machine
end

