-- ==== Sys2Proof/Laws/Outcome.lean ====
section
/-! SUPPORT. Everything a command can end in, said once, for an arbitrary configuration record (spec R235 to R252, R280).
Later proofs take `execIn_commandEnd` apart and unfold no meaning. -/

namespace Sys2Proof.Machine

/-- The ways a command ends, with what is known in each. -/
inductive CommandEnd (c : Config) (i : Instr) (s : State) : Result → Prop where
  /-- a rejection: RESP and nothing else -/
  | rejection (e : ErrKind) (he : e = .sequence ∨ e = .invalidResource ∨ e = .invalidConfig)
      (hp : e.code ∈ possibleErrors i) (ha : e = .sequence ↔ acceptedIn i s.life = false) :
      CommandEnd c i s (.next { s with resp := respOf s e.code 0 0 0 0 0 0 0 })
  | inited (thr1 thrb : Word) (hi : i = .init thr1 thrb) (hl : s.life = .uninit) :
      CommandEnd c i s (.next (respondOk { dropScratch s with
        thr1 := thr1, thrb := thrb, crc6 := c.poly6, crc11 := c.poly11, life := .noCarrier }))
  | freed (hi : i = .free) (hl : s.life ≠ .uninit) :
      CommandEnd c i s (.next (respondOk { clearPolar (dropScratch s) with
        thr1 := 0, thrb := 0, crc6 := 0, crc11 := 0, carrier := 0, capA := 0, capE := 0, life := .uninit }))
  | carrierSet (mu nprb a e : Nat) (hi : i = .setCarrier mu nprb) (hl : s.life ≠ .uninit)
      (hc : c.carrierCap mu nprb = some (a, e)) :
      CommandEnd c i s (.next (respondOk { clearPolar (dropScratch s) with
        carrier := s.arg.a0, capA := a, capE := e, life := .ready }))
  | queried (L : Nat) (r1 r2 : Word) (hL : L = 0 ∨ L = 6 ∨ L = 11) (ha : ∀ l, acceptedIn i l = true) (hp : 0 ∈ possibleErrors i) :
      CommandEnd c i s (.next { s with resp := respOf s 0 1 0 L r1 r2 0 0 })
  | encoded (cfg : UciCfg) (ch : Chan) (plan : Plan) (a : List Bool) (hi : i = encodeInstr cfg ch) (hl : s.life = .ready)
      (hv : validate c s cfg ch = .ok plan) (ha : HoldsPayload c.packOrder cfg ch s.mem a) :
      CommandEnd c i s (.next (finishEncode c plan a s))
  | decoded (cfg : UciCfg) (ch : Chan) (plan : Plan) (llr : List Int) (hi : i = decodeInstr cfg ch) (hl : s.life = .ready)
      (hv : validate c s cfg ch = .ok plan) (hn : llr.length = plan.E) (hh : Buf.holds s.mem.llr 0 llr) :
      CommandEnd c i s (.next (finishDecode c cfg ch plan llr s))
  | encodeRefused (cfg : UciCfg) (ch : Chan) (plan : Plan) (r : Refusal) (hi : i = encodeInstr cfg ch)
      (hl : s.life = .ready) (hv : validate c s cfg ch = .ok plan) (hr : pack c cfg ch s.mem = .error r) :
      CommandEnd c i s (.refused r)
  | decodeRefused (cfg : UciCfg) (ch : Chan) (plan : Plan) (hi : i = decodeInstr cfg ch) (hl : s.life = .ready)
      (hv : validate c s cfg ch = .ok plan) (hr : Buf.readRange s.mem.llr 0 plan.E = none) :
      CommandEnd c i s (.refused (.unspecifiedElement .llr))

theorem crcLength_value (A : Nat) : crcLength A = 0 ∨ crcLength A = 6 ∨ crcLength A = 11 := by
  unfold crcLength; split <;> [simp; (split <;> simp)]

theorem crcLength_lt (A : Nat) : crcLength A < 16 := by have := crcLength_le A; omega

/-- A query's response, by its length function (R133, R134, R135). -/
theorem respondLength_cases (E : Except ErrKind Nat) (r2 : Nat) (s : State) :
    (∃ e, E = .error e ∧ respondLength E r2 s = { s with resp := respOf s e.code 0 0 0 0 0 0 0 }) ∨
    (∃ n, E = .ok n ∧ respondLength E r2 s =
      { s with resp := respOf s 0 1 0 0 (BitVec.ofNat 32 n) (BitVec.ofNat 32 r2) 0 0 }) := by
  cases E with
  | error e => exact .inl ⟨e, rfl, raise_eq e s⟩
  | ok n => exact .inr ⟨n, rfl, respond_eq .ok true none 0 _ _ _ _ s (by omega)⟩

theorem commandEnd_of_encode (c : Config) (cfg : UciCfg) (ch : Chan) (s : State) :
    CommandEnd c (encodeInstr cfg ch) s (execIn c (encodeInstr cfg ch) s) := by
  rw [execIn_encodeInstr]
  have hacc : acceptedIn (encodeInstr cfg ch) s.life = decide (s.life = .ready) := by cases ch <;> rfl
  rcases codecEncode_cases c cfg ch s with ⟨hl, he⟩ | ⟨hl, e, hv, he⟩ | ⟨hl, plan, r, hv, hr, he⟩ | ⟨hl, plan, a, hv, ha, he⟩
  · rw [he, raise_eq]
    refine .rejection .sequence (.inl rfl) ?_ (by simp [hacc, hl])
    cases ch <;> simp [possibleErrors, encodeInstr, ErrKind.code]
  · rw [he, raise_eq]
    rcases validate_error c s cfg ch e hv with ⟨rfl, res, rfl, -⟩ | rfl
    · exact .rejection _ (.inr (.inl rfl)) (by simp [possibleErrors, encodeInstr, ErrKind.code]) (by rw [hacc]; simp [hl])
    · refine .rejection _ (.inr (.inr rfl)) ?_ (by rw [hacc]; simp [hl])
      cases ch <;> simp [possibleErrors, encodeInstr, ErrKind.code]
  · rw [he]; exact .encodeRefused cfg ch plan r rfl hl hv hr
  · rw [he]; exact .encoded cfg ch plan a rfl hl hv ((pack_eq_ok _ _ _ _ _).mp ha)

theorem commandEnd_of_decode (c : Config) (cfg : UciCfg) (ch : Chan) (s : State) :
    CommandEnd c (decodeInstr cfg ch) s (execIn c (decodeInstr cfg ch) s) := by
  rw [execIn_decodeInstr]
  have hacc : acceptedIn (decodeInstr cfg ch) s.life = decide (s.life = .ready) := by cases ch <;> rfl
  rcases codecDecode_cases c cfg ch s with ⟨hl, he⟩ | ⟨hl, e, hv, he⟩ | ⟨hl, plan, hv, hr, he⟩ | ⟨hl, plan, llr, hv, hn, hh, he⟩
  · rw [he, raise_eq]
    refine .rejection .sequence (.inl rfl) ?_ (by simp [hacc, hl])
    cases ch <;> simp [possibleErrors, decodeInstr, ErrKind.code]
  · rw [he, raise_eq]
    rcases validate_error c s cfg ch e hv with ⟨rfl, res, rfl, -⟩ | rfl
    · exact .rejection _ (.inr (.inl rfl)) (by simp [possibleErrors, decodeInstr, ErrKind.code]) (by rw [hacc]; simp [hl])
    · refine .rejection _ (.inr (.inr rfl)) ?_ (by rw [hacc]; simp [hl])
      cases ch <;> simp [possibleErrors, decodeInstr, ErrKind.code]
  · rw [he]; exact .decodeRefused cfg ch plan rfl hl hv hr
  · rw [he]; exact .decoded cfg ch plan llr rfl hl hv hn hh

theorem commandEnd_of_length (c : Config) (i : Instr) (s : State) (E : Except ErrKind Nat) (r2 : Nat)
    (he : execIn c i s = .next (respondLength E r2 s)) (ha : ∀ l, acceptedIn i l = true) (hp : 0 ∈ possibleErrors i)
    (hE : ∀ e, E = .error e → (e = .invalidResource ∨ e = .invalidConfig) ∧ e.code ∈ possibleErrors i) :
    CommandEnd c i s (execIn c i s) := by
  rw [he]
  rcases respondLength_cases E r2 s with ⟨e, h1, h2⟩ | ⟨n, h1, h2⟩
  · rw [h2]
    obtain ⟨h3, h4⟩ := hE e h1
    exact .rejection e (.inr h3) h4 (by rcases h3 with rfl | rfl <;> simp [ha])
  · rw [h2]; exact .queried 0 _ _ (.inl rfl) ha hp

/-- Everything a command can end in. -/
theorem execIn_commandEnd (c : Config) (i : Instr) (s : State) : CommandEnd c i s (execIn c i s) := by
  cases i with
  | init thr1 thrb =>
    rcases initIn_cases c thr1 thrb s with ⟨hl, he⟩ | ⟨hl, he⟩
    · show CommandEnd _ _ _ (initIn c thr1 thrb s)
      rw [he]; exact .inited thr1 thrb rfl hl
    · show CommandEnd _ _ _ (initIn c thr1 thrb s)
      rw [he, raise_eq]
      exact .rejection _ (.inl rfl) (by simp [possibleErrors, ErrKind.code]) (by simp [acceptedIn, hl])
  | free =>
    rcases freeIn_cases s with ⟨hl, he⟩ | ⟨hl, he⟩
    · show CommandEnd _ _ _ (freeIn s)
      rw [he]; exact .freed rfl hl
    · show CommandEnd _ _ _ (freeIn s)
      rw [he, raise_eq]
      exact .rejection _ (.inl rfl) (by simp [possibleErrors, ErrKind.code]) (by simp [acceptedIn, hl])
  | setCarrier mu nprb =>
    rcases setCarrierIn_cases c mu nprb s with ⟨hl, he⟩ | ⟨hl, hc, he⟩ | ⟨hl, a, e, hc, he⟩
    · show CommandEnd _ _ _ (setCarrierIn c mu nprb s)
      rw [he, raise_eq]
      exact .rejection _ (.inl rfl) (by simp [possibleErrors, ErrKind.code]) (by simp [acceptedIn, hl])
    · show CommandEnd _ _ _ (setCarrierIn c mu nprb s)
      rw [he, raise_eq]
      exact .rejection _ (.inr (.inr rfl)) (by simp [possibleErrors, ErrKind.code]) (by simp [acceptedIn, hl])
    · show CommandEnd _ _ _ (setCarrierIn c mu nprb s)
      rw [he]; exact .carrierSet mu nprb a e rfl hl hc
  | encPucch cfg res => exact commandEnd_of_encode c cfg (.pucch res) s
  | encPuschAck cfg p => exact commandEnd_of_encode c cfg (.puschAck p) s
  | encPuschCsi1 cfg p => exact commandEnd_of_encode c cfg (.puschCsi1 p) s
  | decPucch cfg res => exact commandEnd_of_decode c cfg (.pucch res) s
  | decPuschAck cfg p => exact commandEnd_of_decode c cfg (.puschAck p) s
  | decPuschCsi1 cfg p => exact commandEnd_of_decode c cfg (.puschCsi1 p) s
  | qTotal cfg =>
    show CommandEnd _ _ _ (qTotalIn cfg s)
    rw [qTotalIn_eq, respondQuery, respond_eq _ _ _ _ _ _ _ _ _ (by omega)]
    exact .queried 0 _ _ (.inl rfl) (fun _ => rfl) (by simp [possibleErrors])
  | qCrcLen a =>
    show CommandEnd _ _ _ (qCrcLenIn a s)
    rw [qCrcLenIn_eq, respondQuery, respond_eq _ _ _ _ _ _ _ _ _ (crcLength_lt a)]
    exact .queried _ _ _ (crcLength_value a) (fun _ => rfl) (by simp [possibleErrors])
  | qPucchE res =>
    refine commandEnd_of_length c _ s _ _ (qPucchEIn_eq c res s) (fun _ => rfl) (by simp [possibleErrors]) ?_
    intro e he
    rcases codedLength_error c ⟨0, 0, false⟩ (.pucch res) e he with ⟨rfl, -⟩ | ⟨rfl, h⟩
    · exact ⟨.inl rfl, by simp [possibleErrors, ErrKind.code]⟩
    · exact absurd rfl (h res)
  | qPuschAckE cfg p =>
    refine commandEnd_of_length c _ s _ _ (qPuschAckEIn_eq c cfg p s) (fun _ => rfl) (by simp [possibleErrors]) ?_
    intro e he
    have := puschGate_error _ _ _ e he; subst this
    exact ⟨.inr rfl, by simp [possibleErrors, ErrKind.code]⟩
  | qPuschCsi1E cfg p =>
    refine commandEnd_of_length c _ s _ _ (qPuschCsi1EIn_eq c cfg p s) (fun _ => rfl) (by simp [possibleErrors]) ?_
    intro e he
    have := puschGate_error _ _ _ e he; subst this
    exact ⟨.inr rfl, by simp [possibleErrors, ErrKind.code]⟩

/-- The same of the machine's own exec. -/
theorem exec_commandEnd (i : Instr) (s : State) : CommandEnd config i s (exec i s) := by
  rw [exec_eq_execIn]; exact execIn_commandEnd config i s

/-- What an encode writes outside the buffer spaces: OK, its path, L, E and A, and on the Polar path the Polar context. -/
theorem finishEncode_response (c : Config) (plan : Plan) (a : List Bool) (s : State) (hL : plan.L < 16) :
    ∃ m v k e n, finishEncode c plan a s = { s with
      resp := respOf s 0 1 (pathCode (some (codingPath plan.coding))) plan.L (BitVec.ofNat 32 plan.E)
        (BitVec.ofNat 32 plan.A) 0 0
      mem := m, polarValid := v, polarK := k, polarE := e, polarN := n } := by
  cases h : plan.coding with
  | small p => rw [finishEncode_small c plan a s p h, respond_eq _ _ _ _ _ _ _ _ _ hL]; exact ⟨_, _, _, _, _, rfl⟩
  | polar code =>
    rw [finishEncode_polar c plan a s code h, respond_eq _ _ _ _ _ _ _ _ _ hL]; exact ⟨_, _, _, _, _, rfl⟩

theorem smallDecode_err (c : Config) (A : Nat) (llr : List Int) (E : Nat) (t1 tb : Int) :
    ((smallDecode c A llr E t1 tb).rel = true ∧ (smallDecode c A llr E t1 tb).err = .ok) ∨
    ((smallDecode c A llr E t1 tb).rel = false ∧ (smallDecode c A llr E t1 tb).err = .lowConfidence) := by
  unfold smallDecode
  split
  · exact .inl ⟨rfl, rfl⟩
  · simp only; split <;> simp_all

/-- What a decode writes outside the buffer spaces: OK with rel 1, or a flagged completion with rel 0, with its path, L, E
and A. -/
theorem finishDecode_response (c : Config) (cfg : UciCfg) (ch : Chan) (plan : Plan) (llr : List Int) (s : State)
    (hL : plan.L < 16) :
    ∃ err rel r3 r4 m v k e n,
      ((err = 0 ∧ rel = 1) ∨ (err = 3 ∧ rel = 0 ∧ ∃ code, plan.coding = .polar code) ∨
        (err = 4 ∧ rel = 0 ∧ ∃ p, plan.coding = .small p)) ∧
      finishDecode c cfg ch plan llr s = { s with
        resp := respOf s err rel (pathCode (some (codingPath plan.coding))) plan.L (BitVec.ofNat 32 plan.E)
          (BitVec.ofNat 32 plan.A) r3 r4
        mem := m, polarValid := v, polarK := k, polarE := e, polarN := n } := by
  cases h : plan.coding with
  | small p =>
    rw [finishDecode_small c cfg ch plan llr s p h]
    simp only [respond_eq _ _ _ _ _ _ _ _ _ hL]
    refine ⟨_, _, _, _, _, _, _, _, _, ?_, rfl⟩
    rcases smallDecode_err c plan.A llr plan.E s.thr1.toInt s.thrb.toInt with ⟨h1, h2⟩ | ⟨h1, h2⟩ <;>
      simp [h1, h2, ErrKind.code]
  | polar code =>
    rw [finishDecode_polar c cfg ch plan llr s code h]
    simp only [respond_eq _ _ _ _ _ _ _ _ _ hL]
    refine ⟨_, _, _, _, _, _, _, _, _, ?_, rfl⟩
    cases (crcCheckSplit c s plan.A (c.polar.decode code (c.polar.derate code llr))).2 <;> simp [ErrKind.code]

end Sys2Proof.Machine
end

