-- ==== Sys2Proof/Laws/Frames.lean ====
section
/-! SUPPORT. What a write from index 0 holds and leaves, and what a decode's writes of the VAL spaces hold and leave
(spec R10, R242, R68). -/

namespace Sys2Proof.Machine

variable {α : Type}

theorem Buf.holds_write_zero (b : Buf α) (vs : List α) : Buf.holds (b.write 0 vs) 0 vs := by
  intro k hk; rw [Nat.zero_add]; exact Buf.read_write_zero b vs k hk

theorem Buf.agreeFrom_write_zero (b : Buf α) (vs : List α) (n : Nat) (h : vs.length ≤ n) :
    Buf.agreeFrom b (b.write 0 vs) n := by
  intro k hk; exact Buf.read_write_outside _ _ _ _ (.inr (by omega))

/-- A response depends on the state through CMD alone (R283). -/
theorem respOf_congr (s t : State) (h : t.cmd = s.cmd) (err rel path L : Nat) (r1 r2 r3 r4 : Word) :
    respOf t err rel path L r1 r2 r3 r4 = respOf s err rel path L r1 r2 r3 r4 := by
  unfold respOf; rw [h]

/-- The path code of a path is the path number of its payload length (R28, R243). -/
theorem pathCode_eq_pathNumber (A : Nat) (p : Path) (h : codePath A = some p) : pathCode (some p) = pathNumber A := by
  unfold codePath at h; unfold pathNumber
  split_ifs at h ⊢ <;> cases h <;> rfl

/-- A validated plan's CRC length and path are its payload length's (R245). -/
theorem validate_plan (c : Config) (s : State) (cfg : UciCfg) (ch : Chan) (plan : Plan)
    (h : validate c s cfg ch = .ok plan) :
    plan.A = payloadLength cfg ch ∧ plan.L = crcLength plan.A ∧ plan.L < 16 ∧
    codePath plan.A = some (codingPath plan.coding) := by
  obtain ⟨_, _, hA, _, _, hc, hL⟩ := (validate_eq_ok _ _ _ _ _).mp h
  exact ⟨hA, hL, hL ▸ crcLength_lt _, chooseCoding_path _ _ _ _ hc⟩

/-- The valid flag's write touches no payload element (R37). -/
theorem HoldsPayload.write_valid (o : PackOrder) (cfg : UciCfg) (ch : Chan) (m : Memory) (a : List Bool) (v : Bool)
    (h : HoldsPayload o cfg ch m a) : HoldsPayload o cfg ch { m with valMisc := m.valMisc.write 1 [v] } a := by
  have key : Buf.read (m.valMisc.write 1 [v]) 0 = Buf.read m.valMisc 0 := by
    apply Buf.read_write_outside; omega
  cases ch with
  | pucch res =>
    refine ⟨h.1, h.2.1, ?_⟩
    cases o with
    | ackCsi1Sr => exact ⟨h.2.2.1, fun hs => key.trans (h.2.2.2 hs)⟩
    | ackSrCsi1 => exact ⟨h.2.2.1, fun hs => key.trans (h.2.2.2 hs)⟩
  | puschAck p => exact h
  | puschCsi1 p => exact h

/-- What a decode's writes of the VAL spaces leave (R242, R244, R68). -/
theorem unpack_valFrame (c : Config) (cfg : UciCfg) (ch : Chan) (a : List Bool) (m : Memory) (v : Bool)
    (h : a.length = payloadLength cfg ch) :
    ValFrame cfg ch m
      { unpack c cfg ch a m with valMisc := (unpack c cfg ch a m).valMisc.write 1 [v] } := by
  obtain ⟨h1, h2, h3⟩ := unpack_val_frame c cfg ch a m h
  have key : ∀ k, k ≠ 1 →
      Buf.read ((unpack c cfg ch a m).valMisc.write 1 [v]) k = Buf.read (unpack c cfg ch a m).valMisc k := by
    intro k hk; apply Buf.read_write_outside; simp only [List.length_cons, List.length_nil]; omega
  cases ch with
  | pucch res =>
    refine ⟨fun k hk => h1 k (.inr hk), fun k hk => h2 k (.inr hk), fun hs => ?_, fun k hk => ?_⟩
    · exact (key 0 (by omega)).trans (h3 0 (.inr (.inl hs)))
    · exact (key k (by omega)).trans (h3 k (.inl (by omega)))
  | puschAck p =>
    refine ⟨fun k hk => h1 k (.inr hk), rfl, ?_, fun k hk => ?_⟩
    · exact (key 0 (by omega)).trans (h3 0 (.inr (.inr (by simp))))
    · exact (key k (by omega)).trans (h3 k (.inl (by omega)))
  | puschCsi1 p =>
    refine ⟨rfl, fun k hk => h2 k (.inr hk), ?_, fun k hk => ?_⟩
    · exact (key 0 (by omega)).trans (h3 0 (.inr (.inr (by simp))))
    · exact (key k (by omega)).trans (h3 k (.inl (by omega)))

end Sys2Proof.Machine
end

