-- ==== Sys2Proof/Laws/PerInstr.lean ====
section
/-! SUPPORT. A statement about every instruction as syntax, made per instruction. -/

namespace Sys2Proof.Laws.OperandFormat

/-- The header of an instruction's frame is its opcode with the reserved bits zero, the opcode is one of 1 to 14, and the
ARG words outside its format are zero (spec R91, R92, R93). -/
def Statement (i : Instr) : Prop :=
  (encode i).h.toNat = opcode i ∧ 1 ≤ opcode i ∧ opcode i ≤ 14 ∧
  ∀ k, k ∉ operandIndices i → (encode i).arg.get k = 0

/-- The words ARG0 to ARG7 are enough: an index above 7 names none. -/
theorem unusedArgs (i : Instr) (h : ∀ k, k < 8 → k ∈ operandIndices i ∨ (encode i).arg.get k = 0) :
    ∀ k, k ∉ operandIndices i → (encode i).arg.get k = 0 := by
  intro k hk
  by_cases h8 : k < 8
  · exact (h k h8).resolve_left hk
  · match k, h8 with
    | 0, h8 | 1, h8 | 2, h8 | 3, h8 | 4, h8 | 5, h8 | 6, h8 | 7, h8 => omega
    | _ + 8, _ => rfl

/-- The eight words one by one. -/
theorem eightWords {P : Nat → Prop} (h0 : P 0) (h1 : P 1) (h2 : P 2) (h3 : P 3) (h4 : P 4) (h5 : P 5) (h6 : P 6)
    (h7 : P 7) : ∀ k, k < 8 → P k := by
  intro k hk
  match k, hk with
  | 0, _ => exact h0
  | 1, _ => exact h1
  | 2, _ => exact h2
  | 3, _ => exact h3
  | 4, _ => exact h4
  | 5, _ => exact h5
  | 6, _ => exact h6
  | 7, _ => exact h7

theorem init (a b : Word) : Statement (.init a b) :=
  ⟨rfl, by simp [opcode], by simp [opcode], unusedArgs _ (eightWords
    (.inl (by simp [operandIndices])) (.inl (by simp [operandIndices])) (.inr rfl) (.inr rfl) (.inr rfl) (.inr rfl) (.inr rfl) (.inr rfl))⟩

theorem free : Statement .free :=
  ⟨rfl, by simp [opcode], by simp [opcode], unusedArgs _ (eightWords
    (.inr rfl) (.inr rfl) (.inr rfl) (.inr rfl) (.inr rfl) (.inr rfl) (.inr rfl) (.inr rfl))⟩

theorem setCarrier (a b : Nat) : Statement (.setCarrier a b) :=
  ⟨rfl, by simp [opcode], by simp [opcode], unusedArgs _ (eightWords
    (.inl (by simp [operandIndices])) (.inr rfl) (.inr rfl) (.inr rfl) (.inr rfl) (.inr rfl) (.inr rfl) (.inr rfl))⟩

theorem encPucch (a : UciCfg) (b : PucchRes) : Statement (.encPucch a b) :=
  ⟨rfl, by simp [opcode], by simp [opcode], unusedArgs _ (eightWords
    (.inl (by simp [operandIndices])) (.inl (by simp [operandIndices])) (.inr rfl) (.inr rfl) (.inr rfl) (.inr rfl) (.inr rfl) (.inr rfl))⟩

theorem decPucch (a : UciCfg) (b : PucchRes) : Statement (.decPucch a b) :=
  ⟨rfl, by simp [opcode], by simp [opcode], unusedArgs _ (eightWords
    (.inl (by simp [operandIndices])) (.inl (by simp [operandIndices])) (.inr rfl) (.inr rfl) (.inr rfl) (.inr rfl) (.inr rfl) (.inr rfl))⟩

theorem encPuschAck (a : UciCfg) (b : PuschCfg) : Statement (.encPuschAck a b) :=
  ⟨rfl, by simp [opcode], by simp [opcode], unusedArgs _ (eightWords
    (.inl (by simp [operandIndices])) (.inl (by simp [operandIndices])) (.inl (by simp [operandIndices])) (.inl (by simp [operandIndices])) (.inl (by simp [operandIndices])) (.inr rfl) (.inr rfl) (.inr rfl))⟩

theorem decPuschAck (a : UciCfg) (b : PuschCfg) : Statement (.decPuschAck a b) :=
  ⟨rfl, by simp [opcode], by simp [opcode], unusedArgs _ (eightWords
    (.inl (by simp [operandIndices])) (.inl (by simp [operandIndices])) (.inl (by simp [operandIndices])) (.inl (by simp [operandIndices])) (.inl (by simp [operandIndices])) (.inr rfl) (.inr rfl) (.inr rfl))⟩

theorem encPuschCsi1 (a : UciCfg) (b : PuschCfg) : Statement (.encPuschCsi1 a b) :=
  ⟨rfl, by simp [opcode], by simp [opcode], unusedArgs _ (eightWords
    (.inl (by simp [operandIndices])) (.inl (by simp [operandIndices])) (.inl (by simp [operandIndices])) (.inl (by simp [operandIndices])) (.inl (by simp [operandIndices])) (.inr rfl) (.inr rfl) (.inr rfl))⟩

theorem decPuschCsi1 (a : UciCfg) (b : PuschCfg) : Statement (.decPuschCsi1 a b) :=
  ⟨rfl, by simp [opcode], by simp [opcode], unusedArgs _ (eightWords
    (.inl (by simp [operandIndices])) (.inl (by simp [operandIndices])) (.inl (by simp [operandIndices])) (.inl (by simp [operandIndices])) (.inl (by simp [operandIndices])) (.inr rfl) (.inr rfl) (.inr rfl))⟩

theorem qTotal (a : UciCfg) : Statement (.qTotal a) :=
  ⟨rfl, by simp [opcode], by simp [opcode], unusedArgs _ (eightWords
    (.inl (by simp [operandIndices])) (.inr rfl) (.inr rfl) (.inr rfl) (.inr rfl) (.inr rfl) (.inr rfl) (.inr rfl))⟩

theorem qCrcLen (a : Nat) : Statement (.qCrcLen a) :=
  ⟨rfl, by simp [opcode], by simp [opcode], unusedArgs _ (eightWords
    (.inl (by simp [operandIndices])) (.inr rfl) (.inr rfl) (.inr rfl) (.inr rfl) (.inr rfl) (.inr rfl) (.inr rfl))⟩

theorem qPucchE (a : PucchRes) : Statement (.qPucchE a) :=
  ⟨rfl, by simp [opcode], by simp [opcode], unusedArgs _ (eightWords
    (.inr rfl) (.inl (by simp [operandIndices])) (.inr rfl) (.inr rfl) (.inr rfl) (.inr rfl) (.inr rfl) (.inr rfl))⟩

theorem qPuschAckE (a : UciCfg) (b : PuschCfg) : Statement (.qPuschAckE a b) :=
  ⟨rfl, by simp [opcode], by simp [opcode], unusedArgs _ (eightWords
    (.inl (by simp [operandIndices])) (.inl (by simp [operandIndices])) (.inl (by simp [operandIndices])) (.inl (by simp [operandIndices])) (.inl (by simp [operandIndices])) (.inr rfl) (.inr rfl) (.inr rfl))⟩

theorem qPuschCsi1E (a : UciCfg) (b : PuschCfg) : Statement (.qPuschCsi1E a b) :=
  ⟨rfl, by simp [opcode], by simp [opcode], unusedArgs _ (eightWords
    (.inl (by simp [operandIndices])) (.inl (by simp [operandIndices])) (.inl (by simp [operandIndices])) (.inl (by simp [operandIndices])) (.inl (by simp [operandIndices])) (.inr rfl) (.inr rfl) (.inr rfl))⟩

end Sys2Proof.Laws.OperandFormat
end

