-- ==== Sys2Proof/Laws/Port.lean ====
section
/-! SUPPORT. What one act of HOST can do, said once (spec R62, R66, R235). -/

namespace Sys2Proof.Machine

variable (c : Config) (run : Instr → State → Result)

/-- Issue: an illegal frame is rejected, a decoded command runs (R235, R281). -/
theorem issue_cases (h : Word) (s : State) :
    (∃ e, decode ⟨h, s.arg⟩ = .error e ∧ issue run h s = .next (raise .illegalCommand { s with cmd := h })) ∨
    (∃ i, decode ⟨h, s.arg⟩ = .ok i ∧ issue run h s = run i { s with cmd := h }) := by
  unfold issue
  cases hd : decode ⟨h, s.arg⟩ with
  | error e => exact .inl ⟨e, rfl, rfl⟩
  | ok i => exact .inr ⟨i, rfl, rfl⟩

/-- The buffer element a host write stores: one of the five I/O spaces, below its element count (R62). -/
inductive HostStore (c : Config) (s : State) (i : Nat) (data : Word) : Memory → Prop where
  | valAck (h : i < c.aMax) : HostStore c s i data { s.mem with valAck := s.mem.valAck.write i [dataBit data] }
  | valCsi1 (h : i < c.aMax) : HostStore c s i data { s.mem with valCsi1 := s.mem.valCsi1.write i [dataBit data] }
  | valMisc (h : i < 2) : HostStore c s i data { s.mem with valMisc := s.mem.valMisc.write i [dataBit data] }
  | cod (h : i < c.eMax) : HostStore c s i data { s.mem with cod := s.mem.cod.write i [dataBit data] }
  | llr (h : i < c.eMax) :
    HostStore c s i data { s.mem with llr := s.mem.llr.write i [signedOf c.llrW data] }

/-- A host write issues a command, is ignored, writes an operand register or stores one buffer element (R62, R66). -/
theorem hostWrite_cases (space : BitVec 4) (index : BitVec 16) (data : Word) (s : State) :
    (space = 0 ∧ index = 0 ∧ hostWrite c run space index data s = issue run data s) ∨
    hostWrite c run space index data s = .next s ∨
    (∃ k, k < 8 ∧ hostWrite c run space index data s = .next { s with arg := writeArg k data s.arg }) ∨
    (∃ m, HostStore c s index.toNat data m ∧ hostWrite c run space index data s = .next { s with mem := m }) := by
  unfold hostWrite
  cases hsp : spaceOf space with
  | none => exact .inr (.inl rfl)
  | some sp =>
    simp only
    split
    · next hlt =>
      cases sp with
      | csr =>
        simp only [elementWrite, csrWrite]
        split
        · next h0 =>
          left
          refine ⟨?_, by simpa [BitVec.toNat_eq] using h0, rfl⟩
          revert hsp; clear hlt h0
          revert space; decide
        · split
          · next h => exact .inr (.inr (.inl ⟨index.toNat - 8, by omega, rfl⟩))
          · exact .inr (.inl rfl)
      | valAck => exact .inr (.inr (.inr ⟨_, .valAck hlt, rfl⟩))
      | valCsi1 => exact .inr (.inr (.inr ⟨_, .valCsi1 hlt, rfl⟩))
      | valMisc => exact .inr (.inr (.inr ⟨_, .valMisc hlt, rfl⟩))
      | cod => exact .inr (.inr (.inr ⟨_, .cod hlt, rfl⟩))
      | llr => exact .inr (.inr (.inr ⟨_, .llr hlt, rfl⟩))
      | bitSequence => exact .inr (.inl rfl)
      | c => exact .inr (.inl rfl)
      | allocated => exact .inr (.inl rfl)
      | d => exact .inr (.inl rfl)
    · exact .inr (.inl rfl)

/-- A host read changes nothing but the model's count of arbitrary values (R67). -/
theorem hostRead_state (space : BitVec 4) (index : BitVec 16) (s : State) :
    (hostRead c space index s).1 = s ∨ (hostRead c space index s).1 = { s with freeCount := s.freeCount + 1 } := by
  unfold hostRead
  split
  · exact .inl rfl
  · split
    · split
      · exact .inl rfl
      · exact .inr rfl
    · exact .inl rfl

theorem readAct_eq (space : BitVec 4) (index : BitVec 16) (f : Word → HostData) (s : State) :
    ∃ n x, readAct c space index f s = { s with freeCount := n, seen := x } := by
  have hs := hostRead_state c space index s
  unfold readAct
  generalize hostRead c space index s = r at hs ⊢
  obtain ⟨t, w⟩ := r
  simp only at hs
  rcases hs with rfl | rfl
  · exact ⟨t.freeCount, _, rfl⟩
  · exact ⟨s.freeCount + 1, _, rfl⟩

/-- One act: a read, a write, the reset, or a bus access that is no transaction (R62, R64, R65, R310). -/
theorem performAct_cases (act : HostAct) (s : State) :
    performAct c run act s = .refused .notATransaction ∨
    (∃ space index data, performAct c run act s = hostWrite c run space index data s) ∨
    (∃ n x, performAct c run act s = .next { s with freeCount := n, seen := x }) ∨
    performAct c run act s = .next (hardReset s) := by
  cases act with
  | write sp i w => exact .inr (.inl ⟨sp, i, w, rfl⟩)
  | read sp i =>
    obtain ⟨n, x, h⟩ := readAct_eq c sp i .word s
    exact .inr (.inr (.inl ⟨n, x, congrArg Host.Outcome.next h⟩))
  | busWrite a bs =>
    cases h : busElement a bs.length with
    | none => exact .inl (by simp only [performAct, h])
    | some e => exact .inr (.inl ⟨e.1, e.2, wordOfBytes bs, by simp only [performAct, h]⟩)
  | busRead a n =>
    cases h : busElement a n with
    | none => exact .inl (by simp only [performAct, h])
    | some e =>
      obtain ⟨k, x, hx⟩ := readAct_eq c e.1 e.2 (fun w => .bytes (bytesOfWord w)) s
      exact .inr (.inr (.inl ⟨k, x, by simp only [performAct, h, hx]⟩))
  | reset => exact .inr (.inr (.inr rfl))

/-- With no act left the block holds its state; else the first act is performed (R71, R300). -/
theorem runHost_idle (s : State) (h : s.host = []) : runHost c run s = .next s := by simp [runHost, h]

theorem runHost_act (s : State) (act : HostAct) (rest : List HostAct) (h : s.host = act :: rest) :
    runHost c run s = performAct c run act { s with host := rest } := by simp [runHost, h]

theorem step_idle (s : State) (h : s.host = []) : step s = .next s := runHost_idle _ _ s h

theorem step_act (s : State) (act : HostAct) (rest : List HostAct) (h : s.host = act :: rest) :
    step s = performAct config exec act { s with host := rest } := runHost_act _ _ s act rest h

/-- The machine's step is the step at the machine's record (R16). -/
theorem step_eq_stepIn (s : State) : step s = stepIn config s := by
  have h : exec = execIn config := by funext i s; exact exec_eq_execIn i s
  rw [step, stepIn, h]

end Sys2Proof.Machine
end

