-- ==== Sys2Proof/Tests/Slice0.lean ====
section
/-! SUPPORT. Tests. Every expected value is from the spec's vectors (95_test_vectors.md; the section stands in each test's
docstring) or computed by hand from a rule. After them, one theorem per statement of Certificates/Slice0/Obligations.lean
that has hypotheses, showing concrete states and operands that meet them, clause by clause at the boundary values. -/

namespace Sys2Proof.Tests

open Sys2Proof.Machine

/-! Helpers. -/

/-- A bit string, index 0 first. -/
def bits (s : String) : List Bool := s.toList.map (· == '1')

/-- Whether an outcome is a next state. -/
def isNext : Result → Bool
  | .next _ => true
  | .fault _ => false
  | .refused _ => false

/-- The next state of an outcome. -/
def stateAfter : Result → State
  | .next t => t
  | .fault _ => State.reset
  | .refused _ => State.reset

theorem eq_next (r : Result) (h : isNext r = true) : r = .next (stateAfter r) := by
  cases r <;> simp_all [isNext, stateAfter]

/-- RESP0 to RESP4 after an outcome. -/
def respAfter (r : Result) : List Nat :=
  let p := (stateAfter r).resp
  if isNext r then [p.r0.toNat, p.r1.toNat, p.r2.toNat, p.r3.toNat, p.r4.toNat] else []

/-- RESP0 after an outcome. -/
def resp0After (r : Result) : Nat := (respAfter r).headD 0xFFFFFFFF

/-- The state with the commands' thresholds and carrier of the vectors: after INIT thr1=0, thrb=16384 and SETCARRIER mu=0,
nprb=52, HOST's own writes aside (section 0, section 2.7). -/
def ready : State :=
  { State.reset with
    life := .ready, thrb := 0x4000, carrier := 0x1A0, capA := 1706, capE := 8192, crc6 := 0x61, crc11 := 0xE21 }

/-- `ready` with a payload in the VAL spaces. -/
def readyWith (ack csi1 sr : List Bool) : State :=
  { ready with mem := { Memory.empty with
      valAck := Buf.layout 0 ack, valCsi1 := Buf.layout 0 csi1, valMisc := Buf.layout 0 sr } }

/-- `ready` with LLRs. -/
def readyLlr (llr : List Int) : State := { ready with mem := { Memory.empty with llr := Buf.layout 0 llr } }

/-- The operand words of a frame. -/
def argsOf (ws : List Word) : Args :=
  ⟨ws.getD 0 0, ws.getD 1 0, ws.getD 2 0, ws.getD 3 0, ws.getD 4 0, ws.getD 5 0, ws.getD 6 0, ws.getD 7 0⟩

/-- A frame from its header and operand words. -/
def frame (h : Word) (ws : List Word) : Frame := ⟨h, argsOf ws⟩

/-- What issuing a frame at a state does. -/
def issued (h : Word) (ws : List Word) (s : State) : Result := step (placeFrame (frame h ws) s)

/-- HOST's acts, one after another. -/
def performed (s : State) (acts : List HostAct) : Result := Host.Core.run core acts.length { s with host := acts }

/-- The PUCCH resource of the vectors, format 2, E = 16 per PRB (section 2.1). -/
def res2 (nprb : Nat) : PucchRes := ⟨2, 1, nprb, 2, 0⟩

/-- The base PUSCH configuration B (section 2.2). -/
def pB : PuschCfg := ⟨100, 100, 1000, 160, 20, 10, 0, 2, 1, false⟩

/-! Well-formedness: each check refuses an ill-formed term. -/

theorem test_wf_accepts_the_largest_fields :
    (Instr.encPucch ⟨2047, 2047, true⟩ ⟨7, 15, 31, 3, 7⟩).wellFormed = true ∧
    (Instr.qPuschAckE ⟨2047, 2047, true⟩
      ⟨65535, 65535, 16777215, 1023, 1023, 31, 2047, 15, 7, true⟩).wellFormed = true ∧
    (Instr.setCarrier 7 511).wellFormed = true ∧ (Instr.qCrcLen 4294967295).wellFormed = true := by decide

theorem test_wf_refuses_wide_uciCfg :
    (Instr.qTotal ⟨2048, 0, false⟩).wellFormed = false ∧ (Instr.qTotal ⟨0, 2048, false⟩).wellFormed = false := by decide

theorem test_wf_refuses_wide_pucchRes :
    (Instr.qPucchE ⟨8, 0, 0, 0, 0⟩).wellFormed = false ∧ (Instr.qPucchE ⟨0, 16, 0, 0, 0⟩).wellFormed = false ∧
    (Instr.qPucchE ⟨0, 0, 32, 0, 0⟩).wellFormed = false ∧ (Instr.qPucchE ⟨0, 0, 0, 4, 0⟩).wellFormed = false ∧
    (Instr.qPucchE ⟨0, 0, 0, 0, 8⟩).wellFormed = false := by decide

theorem test_wf_refuses_wide_puschCfg :
    [(⟨65536, 0, 0, 0, 0, 0, 0, 0, 0, false⟩ : PuschCfg), ⟨0, 65536, 0, 0, 0, 0, 0, 0, 0, false⟩,
      ⟨0, 0, 16777216, 0, 0, 0, 0, 0, 0, false⟩, ⟨0, 0, 0, 1024, 0, 0, 0, 0, 0, false⟩,
      ⟨0, 0, 0, 0, 1024, 0, 0, 0, 0, false⟩, ⟨0, 0, 0, 0, 0, 32, 0, 0, 0, false⟩,
      ⟨0, 0, 0, 0, 0, 0, 2048, 0, 0, false⟩, ⟨0, 0, 0, 0, 0, 0, 0, 16, 0, false⟩,
      ⟨0, 0, 0, 0, 0, 0, 0, 0, 8, false⟩].all
        (fun p => !(Instr.qPuschAckE ⟨0, 0, false⟩ p).wellFormed && !(Instr.decPuschCsi1 ⟨0, 0, false⟩ p).wellFormed) =
      true := by decide

theorem test_wf_refuses_wide_carrier :
    (Instr.setCarrier 8 1).wellFormed = false ∧ (Instr.setCarrier 0 512).wellFormed = false := by decide

theorem test_wf_refuses_wide_aval : (Instr.qCrcLen 4294967296).wellFormed = false := by decide

/-! Decoding, on words written out from the spec's encoding (section 2.1). -/

theorem test_decode_init :
    decode (frame 1 [0x00000000, 0x00004000]) = .ok (.init 0 16384) ∧
    decode (frame 1 [0xFFFFFFFB, 0xFFFFFFFF]) = .ok (.init (-5) (-1)) := by decide

/-- CMD = 2 with any ARG values is legal. -/
theorem test_decode_free : decode (frame 2 [0xFFFFFFFF, 0xFFFFFFFF]) = .ok .free := by decide

/-- nprb in bits 11:3, mu in bits 2:0. -/
theorem test_decode_setCarrier :
    decode (frame 3 [0b0000000000000000000_0_100010001_001]) = .ok (.setCarrier 1 273) ∧
    decode (frame 3 [0x0000089C]) = .ok (.setCarrier 4 275) := by decide

/-- sf, qm, nprb, nsym, fmt from the top. -/
theorem test_decode_encPucch :
    decode (frame 4 [0b000000000_0_00000000000_00000000001, 0b000000000000000_000_10_00001_0001_010]) =
      .ok (.encPucch ⟨1, 0, false⟩ (res2 1)) := by decide

theorem test_decode_decPucch :
    decode (frame 5 [0x00000004, 0x0000210A]) = .ok (.decPucch ⟨4, 0, false⟩ (res2 2)) := by decide

theorem test_decode_encPuschAck :
    decode (frame 6 [0x00000014, 0x00640064, 0x000003E8, 0x00A050A0, 0x00009000]) =
      .ok (.encPuschAck ⟨20, 0, false⟩ pB) := by decide

/-- csi2, n_layers, qm, r_x1024 from the top of the last word; alpha, beta_csi1, beta_ack in the one before. -/
theorem test_decode_decPuschAck :
    decode (frame 7 [0b10100, 0b0000000001100100_0000000001100100, 0b000000000000001111101000,
      0b01010_0000010100_0010100000, 0b0_001_0010_00000000000]) = .ok (.decPuschAck ⟨20, 0, false⟩ pB) := by decide

theorem test_decode_encPuschCsi1 :
    decode (frame 8 [0x00002001, 0x00640064, 0x000003E8, 0x00A050A0, 0x00009000]) =
      .ok (.encPuschCsi1 ⟨1, 4, false⟩ pB) := by decide

theorem test_decode_decPuschCsi1 :
    decode (frame 9 [0x00002001, 0x00640064, 0x000003E8, 0x00A050A0, 0x00009000]) =
      .ok (.decPuschCsi1 ⟨1, 4, false⟩ pB) := by decide

/-- sr is bit 22, o_csi1 bits 21:11, o_ack bits 10:0. -/
theorem test_decode_qTotal :
    decode (frame 10 [0b000000000_1_00000000111_00000000100]) = .ok (.qTotal ⟨4, 7, true⟩) ∧
    decode (frame 10 [0x007FFFFF]) = .ok (.qTotal ⟨2047, 2047, true⟩) := by decide

theorem test_decode_qCrcLen : decode (frame 11 [0xFFFFFFFF]) = .ok (.qCrcLen 4294967295) := by decide

/-- Format R ignores ARG0. -/
theorem test_decode_qPucchE :
    decode (frame 12 [0xFFFFFFFF, 0x00002873]) = .ok (.qPucchE ⟨3, 14, 16, 2, 0⟩) ∧
    decode (frame 12 [0, 0x0000A0F4]) = .ok (.qPucchE ⟨4, 14, 1, 2, 2⟩) := by decide

theorem test_decode_qPuschAckE :
    decode (frame 13 [0x00000014, 0x00640064, 0x000003E8, 0x00A050A0, 0x00009000]) =
      .ok (.qPuschAckE ⟨20, 0, false⟩ pB) := by decide

theorem test_decode_qPuschCsi1E :
    decode (frame 14 [0x00002001, 0x00640064, 0x00000000, 0x00A050A0, 0x00009200]) =
      .ok (.qPuschCsi1E ⟨1, 4, false⟩ ⟨100, 100, 0, 160, 20, 10, 512, 2, 1, false⟩) := by decide

/-- The illegal frames of section 2.1, each with the name it is rejected by. -/
theorem test_decode_refuses_illegal_frames :
    decode (frame 0 []) = .error .reservedOpcode ∧ decode (frame 15 []) = .error .reservedOpcode ∧
    decode (frame 0x14 []) = .error .reservedHeaderBits ∧ decode (frame 0x80000002 []) = .error .reservedHeaderBits ∧
    decode (frame 3 [0x1000]) = .error (.reservedOperandBits 0) ∧
    decode (frame 4 [1, 0x2208A]) = .error (.reservedOperandBits 1) ∧
    decode (frame 10 [0x800000]) = .error (.reservedOperandBits 0) ∧
    decode (frame 6 [0x14, 0x640064, 0x1000000, 0xA050A0, 0x9000]) = .error (.reservedOperandBits 2) ∧
    decode (frame 13 [0x14, 0x640064, 0x3E8, 0x2000000, 0x9000]) = .error (.reservedOperandBits 3) ∧
    decode (frame 14 [0x14, 0x640064, 0x3E8, 0xA050A0, 0x80000]) = .error (.reservedOperandBits 4) := by decide

/-- The operand words of section 2.1, from their fields. -/
theorem test_encode_operand_words :
    pucchResWord ⟨2, 2, 16, 2, 0⟩ = 0x00002812 ∧ pucchResWord ⟨3, 4, 1, 1, 0⟩ = 0x000010A3 ∧
    pucchResWord ⟨4, 14, 1, 2, 2⟩ = 0x0000A0F4 ∧ pucchResWord ⟨4, 4, 1, 1, 4⟩ = 0x000110A4 ∧
    uciCfgWord ⟨11, 0, true⟩ = 0x0040000B ∧
    encode (.encPuschCsi1 ⟨1, 4, false⟩ pB) =
      frame 8 [0x00002001, 0x00640064, 0x000003E8, 0x00A050A0, 0x00009000] := by decide

/-- The host's numbering: the header in the low 32 bits, ARG0 above it. -/
theorem test_decodeTableWord :
    decodeTableWord 64 0x0000088900000003 = some (.setCarrier 1 273) ∧
    decodeTableWord 32 0x0000000A = some (.qTotal ⟨0, 0, false⟩) ∧ decodeTableWord 32 0x14 = none := by decide

/-! The port (section 2.9). -/

/-- HOST's newest datum after performing acts from reset. -/
def gives (acts : List HostAct) (w : Word) : Bool :=
  match performed State.reset acts with
  | .next t => t.seen.head? == some (.word w)
  | .fault _ => false
  | .refused _ => false

theorem test_port_registers :
    gives [.write 0 8 0xDEADBEEF, .read 0 8] 0xDEADBEEF = true ∧ gives [.write 0 2 0xFFFFFFFF, .read 0 2] 0 = true ∧
    gives [.write 0 16 5, .read 0 16] 0 = true ∧ gives [.write 0 7 1, .read 0 7] 0 = true ∧
    gives [.write 0 0 0x14, .read 0 0] 0x14 = true ∧ gives [.read 0 64] 0 = true ∧ gives [.read 6 0] 0 = true ∧
    gives [.read 12 3] 0 = true := by decide

theorem test_port_elements :
    gives [.write 1 0 0xFFFFFFFE, .read 1 0] 0 = true ∧ gives [.write 1 0 3, .read 1 0] 1 = true ∧
    gives [.write 5 0 0x1FF, .read 5 0] 0xFFFFFFFF = true ∧ gives [.write 5 1 0x80, .read 5 1] 0xFFFFFF80 = true ∧
    gives [.write 5 2 100, .read 5 2] 100 = true := by decide

/-- By hand from R64: element (space 5, index 1) is at base + 0x500004, its word little-endian. -/
theorem test_port_bus :
    busElement 0x500004 4 = some (5, 1) ∧ busElement 0x500004 2 = none ∧ busElement 0x500005 4 = none ∧
    bytesOfWord 0x11223344 = [0x44, 0x33, 0x22, 0x11] ∧ wordOfBytes [0x44, 0x33, 0x22, 0x11] = 0x11223344 := by
  decide

/-- Operand sampling: the write of ARG0 after the issue belongs to the next command. -/
theorem test_port_samples_operands :
    respAfter (performed State.reset [.write 0 8 11, .write 0 0 0xB, .write 0 8 12]) = [0xB010, 0, 11, 0, 0] ∧
    respAfter (performed State.reset [.write 0 8 11, .write 0 0 0xB, .write 0 8 12, .write 0 0 0xB]) =
      [0xB610, 6, 12, 0, 0] := by decide

/-- By hand from R62 at LLR_W = 4 and E_MAX = 100: 0x18 is stored as -8, and element 100 does not exist. -/
theorem test_port_takes_the_record :
    (stateAfter (stepIn { config with llrW := 4 } { ready with host := [.write 5 0 0x18] })).mem.llr = [(0, -8)] ∧
    (stateAfter (stepIn { config with eMax := 100 } { ready with host := [.write 5 100 1] })).mem.llr = [] := by decide

/-! Commands, one step each. -/

/-- Section 2.7 rows 5 and 6: INIT latches; a second one is Sequence and does not re-latch. -/
theorem test_init :
    resp0After (issued 1 [0, 0x4000] State.reset) = 0x1010 ∧
    (stateAfter (issued 1 [0, 0x4000] State.reset)).life = .noCarrier ∧
    csrRead (stateAfter (issued 1 [0, 0x4000] State.reset)) 17 = 0x4000 ∧
    csrRead (stateAfter (issued 1 [0, 0x4000] State.reset)) 25 = 0xE21 ∧
    resp0After (issued 1 [7, 7] ready) = 0x1005 ∧ (stateAfter (issued 1 [7, 7] ready)).thrb = 0x4000 := by decide

/-- Section 2.7 rows 1 and 15. -/
theorem test_free :
    resp0After (issued 2 [] State.reset) = 0x2005 ∧ resp0After (issued 2 [] ready) = 0x2010 ∧
    (stateAfter (issued 2 [] ready)).life = .uninit ∧ csrRead (stateAfter (issued 2 [] ready)) 19 = 0 ∧
    csrRead (stateAfter (issued 2 [] ready)) 24 = 0 := by decide

/-- Section 2.7 rows 11 and 13. -/
theorem test_setCarrier_legal :
    resp0After (issued 3 [0x889] ready) = 0x3010 ∧ (stateAfter (issued 3 [0x889] ready)).carrier = 0x889 ∧
    (stateAfter (issued 3 [0x889] ready)).capA = 1706 ∧ (stateAfter (issued 3 [0x889] ready)).capE = 8192 := by
  decide

/-- Section 2.7 rows 2, 9, 10 and 12. -/
theorem test_setCarrier_rejected :
    resp0After (issued 3 [0x1A0] State.reset) = 0x3005 ∧ resp0After (issued 3 [0] ready) = 0x3002 ∧
    resp0After (issued 3 [0x8A0] ready) = 0x3002 ∧ resp0After (issued 3 [0x55] ready) = 0x3002 ∧
    (stateAfter (issued 3 [0x55] ready)).carrier = 0x1A0 := by decide

/-- Section 2.10: the packed payload, the coded bits and the response. -/
theorem test_encPucch :
    let t := stateAfter (issued 4 [0x401802, 0x210A] (readyWith [true, false] [false, true, true] [true]))
    t.mem.bitSequence = Buf.layout 0 (bits "100111") ∧
    t.mem.cod = Buf.layout 0 (bits "11000001110011111000100010111001") ∧
    t.resp = ⟨0x4070, 32, 6, 0, 0⟩ := by decide

/-- Section 2.8, the rows of ENC_PUCCH: the order of the checks. -/
theorem test_encPucch_rejected :
    resp0After (issued 4 [0x800001, 0x208A] State.reset) = 0x4006 ∧
    resp0After (issued 4 [0, 0x200A] State.reset) = 0x4005 ∧
    resp0After (issued 4 [0, 0x200A] ready) = 0x4001 ∧ resp0After (issued 4 [0, 0x208A] ready) = 0x4002 ∧
    resp0After (issued 4 [0x6AB, 0x10A3] ready) = 0x4002 := by decide

/-- P1 and section 2.10: a decode's payload, valid flag, statistic and magnitude sum. -/
theorem test_decPucch :
    let t := stateAfter (issued 5 [1, 0x208A] (readyLlr (List.replicate 16 100)))
    t.resp = ⟨0x5030, 16, 1, 1600, 1600⟩ ∧ t.mem.valAck = [(0, true)] ∧ t.mem.valMisc = [(1, true)] ∧
    t.mem.bitSequence = [(0, true)] := by decide

/-- P4: the payload of a decode that ends LowConfidence is written, flagged; equality is not above the threshold. -/
theorem test_decPucch_lowConfidence :
    let t := stateAfter (issued 5 [2, 0x208A] (readyLlr [-4, 4, -4, -4, 4, -4, -4, 4, -4, -4, 4, -4, 4, 4, -4, 4]))
    t.resp = ⟨0x5044, 16, 2, 32, 64⟩ ∧ t.mem.valAck = [(0, true), (1, true)] ∧ t.mem.valMisc = [(1, false)] := by
  decide

/-- Sections 2.2 and 2.10: two ACK bits, E = 8, 2-bit code; the E above cap_E of section 2.8. -/
theorem test_encPuschAck :
    let t := stateAfter (issued 6 [0x2, 0x640064, 0x3E8, 0xA050A0, 0x9000] (readyWith [true, false] [] []))
    t.resp = ⟨0x6050, 8, 2, 0, 0⟩ ∧ t.mem.cod = Buf.layout 0 (bits "10110110") ∧
    resp0After (issued 6 [0x14, 0x3E803E8, 1, 0x14050A0, 0x24000] ready) = 0x6002 := by decide

/-- Section 2.5: the 2-bit vector 5, -3, 2, -7, 1, 0, -128, 127 decides 01 with num 257 and den 273. -/
theorem test_decPuschAck :
    let t := stateAfter (issued 7 [0x2, 0x640064, 0x3E8, 0xA050A0, 0x9000] (readyLlr [5, -3, 2, -7, 1, 0, -128, 127]))
    t.resp = ⟨0x7050, 8, 2, 257, 273⟩ ∧ t.mem.valAck = [(0, false), (1, true)] ∧ t.mem.valMisc = [(1, true)] := by
  decide

/-- Sections 2.2 and 2.4: four CSI bits 1011, E = 2. -/
theorem test_encPuschCsi1 :
    let t := stateAfter (issued 8 [0x2001, 0x640064, 0x3E8, 0xA050A0, 0x9000]
      (readyWith [] [true, false, true, true] []))
    t.resp = ⟨0x8070, 2, 4, 0, 0⟩ ∧ t.mem.cod = [(0, true), (1, false)] := by decide

/-- Section 2.5: +100, -100 at A = 4 decides 1010, the lowest of the candidates that tie. -/
theorem test_decPuschCsi1 :
    let t := stateAfter (issued 9 [0x2001, 0x640064, 0x3E8, 0xA050A0, 0x9000] (readyLlr [100, -100]))
    t.resp = ⟨0x9070, 2, 4, 200, 200⟩ ∧ t.mem.valCsi1 = Buf.layout 0 (bits "1010") ∧ t.mem.valAck = [] ∧
    t.mem.valMisc = [(1, true)] := by decide +kernel

/-- S4. -/
theorem test_qTotal :
    respAfter (issued 10 [0x403804] State.reset) = [0xA010, 12, 0, 0, 0] ∧
    respAfter (issued 10 [0x7FFFFF] ready) = [0xA010, 4095, 0, 0, 0] ∧
    respAfter (issued 10 [0x800000] State.reset) = [0xA006, 0, 0, 0, 0] := by decide

/-- S3. -/
theorem test_qCrcLen :
    [(0, 0xB010, 0), (1, 0xB010, 0), (11, 0xB010, 0), (12, 0xB610, 6), (19, 0xB610, 6), (20, 0xBB10, 11),
      (4294967295, 0xBB10, 11)].all
        (fun v => respAfter (issued 11 [BitVec.ofNat 32 v.1] State.reset) == [v.2.1, v.2.2, v.1, 0, 0]) = true := by
  decide

/-- The response of Q_PUCCH_E to a resource word with its length, 0 for none. -/
def pucchRow (v : Nat × Nat) : Bool :=
  respAfter (issued 12 [0, BitVec.ofNat 32 v.1] State.reset) == [if v.2 = 0 then 0xC001 else 0xC010, v.2, 0, 0, 0]

/-- Section 2.2, PUCCH_E, format 2. -/
theorem test_qPucchE_format2 :
    [(0x208A, 16), (0x210A, 32), (0x2812, 512), (0x1E08A, 16), (0x200A, 0), (0x209A, 0), (0x108A, 0), (0x288A, 0)].all
      pucchRow = true := by decide

/-- Section 2.2, PUCCH_E, the other formats. -/
theorem test_qPucchE_other_formats :
    [(0x10A3, 48), (0x21BB, 504), (0x2873, 5376), (0x109B, 0), (0x18A3, 0), (0x110A4, 12), (0xA0F4, 168), (0xD0A4, 0),
      (0x9124, 0), (0x2089, 0), (0, 0)].all pucchRow = true := by decide

/-- Section 2.2, the ACK rows: the configuration, O, and the length, 0 for InvalidConfig. -/
theorem test_qPuschAckE :
    [(pB, 20, 100), (pB, 12, 72), (pB, 11, 44), (pB, 2, 8), (pB, 1, 4), (pB, 0, 0), ({ pB with mL0Sum := 0 }, 20, 0),
      ({ pB with mL0Sum := 101 }, 20, 0), ({ pB with alphaX20 := 0 }, 20, 0), ({ pB with alphaX20 := 21 }, 20, 0),
      ({ pB with qm := 3 }, 20, 0), ({ pB with kSum := 0 }, 20, 0), ({ pB with kSum := 0, rX1024 := 512 }, 20, 100),
      ({ pB with kSum := 1, alphaX20 := 20 }, 20, 200), ({ pB with nLayers := 4, qm := 8 }, 20, 1600)].all
        (fun (v : PuschCfg × Nat × Nat) =>
          respAfter (exec (.qPuschAckE ⟨v.2.1, 0, false⟩ v.1) { State.reset with cmd := 13 }) ==
            if v.2.2 = 0 then [0xD002, 0, 0, 0, 0] else [0xD010, v.2.2, v.2.1, 0, 0]) = true := by decide

/-- Section 2.2, the CSI1 rows: the configuration, o_csi1, o_ack, and the length, 0 for InvalidConfig. -/
theorem test_qPuschCsi1E :
    [(pB, 4, 1, 2), (pB, 4, 0, 2), (pB, 20, 0, 16), (pB, 0, 1, 0), ({ pB with kSum := 1 }, 4, 1, 0),
      ({ pB with kSum := 0, rX1024 := 512 }, 4, 1, 120), ({ pB with kSum := 0, rX1024 := 512, csi2 := true }, 4, 1, 20)].all
        (fun (v : PuschCfg × Nat × Nat × Nat) =>
          respAfter (exec (.qPuschCsi1E ⟨v.2.2.1, v.2.1, false⟩ v.1) { State.reset with cmd := 14 }) ==
            if v.2.2.2 = 0 then [0xE002, 0, 0, 0, 0] else [0xE010, v.2.2.2, v.2.1, 0, 0]) = true := by decide

/-! Units. -/

/-- Section 2.3: payload, parity. -/
theorem test_refCrc6 :
    [("101100101110", "101110"), ("000000000001", "100001"), ("100000000000", "110101"), ("000000000000", "000000"),
      ("1111111111111111111", "101001"), ("1011001011101101001", "100110")].all
        (fun v => refAttach 0x61 6 (bits v.1) == bits v.1 ++ bits v.2) = true ∧
    refCheck 0x61 6 (bits "101100101110101111") = false ∧ refCheck 0x61 6 (bits "001100101110101110") = false := by
  decide

/-- Section 2.3: payload, parity. -/
theorem test_refCrc11 :
    [("11010010111000110101", "00110100000"), ("00000000000000000001", "11000100001"),
      ("11111111111111111111", "00101100000"), ("10110010111011010010", "00001011011")].all
        (fun v => refAttach 0xE21 11 (bits v.1) == bits v.1 ++ bits v.2 &&
          refCheck 0xE21 11 (bits v.1 ++ bits v.2)) = true := by
  decide

/-- Section 2.4: payload, coded bits. -/
theorem test_smallEncode :
    [("0", "00000"), ("1", "1"), ("00", "00000000"), ("10", "10110110"), ("01", "01101101"), ("11", "1101101101101101"),
      ("10", "1"), ("100", "11111111111111111111111111111111"), ("010", "11001100100101011010010111010010"),
      ("001", "01011010011100001000100110111110"), ("111", "01101001"), ("1011", "10"),
      ("1011", "1001110001000011000100101111011110011100"), ("100111", "11000001110011111000100010111001"),
      ("00000000001", "11111111111111110000111101000010"),
      ("10110010111", "000100000011100001100011011101110001000000111000")].all
        (fun v => smallEncode config (bits v.1) (bits v.2).length == bits v.2) = true := by decide

/-- Section 2.5, the 1-bit rows with ONE_BIT_AVG false: LLRs, thr1, T1, den, bit. -/
theorem test_oneBitDecision :
    [([3, -1, 2], 4, 4, 6, false), ([3, -1, 2], 3, 4, 6, true), ([0, 0, 0, 0], 0, 0, 0, false),
      ([0, 0, 0, 0], -1, 0, 0, true), ([-128, -128, -128, -128], -513, -512, 512, true),
      ([-128, -128, -128, -128], -512, -512, 512, false)].all
        (fun (v : List Int × Int × Int × Nat × Bool) =>
          smallDecode config 1 v.1 v.1.length v.2.1 0 == ⟨[v.2.2.2.2], true, .ok, v.2.2.1, v.2.2.2.1⟩) = true := by
  decide

/-- Section 2.5, the 1-bit rows with ONE_BIT_AVG true. -/
theorem test_oneBitDecision_average :
    (smallDecode { config with oneBitAvg := true } 1 [3, -1, 2] 3 1 0).aHat = [true] ∧
    (smallDecode { config with oneBitAvg := true } 1 [3, 0, 3] 3 2 0).aHat = [false] := by decide

/-- Section 2.5, the 2-bit rows: LLRs, thrb, payload, num, den, rel. -/
theorem test_twoBitDecision :
    [([10], 16384, "10", 10, 10, true), ([-10], 16384, "00", 10, 10, true), ([0, 0, 0], -1, "00", 0, 0, false),
      ([-4, 4, -4, 4, 4, -4], 21845, "11", 16, 24, true), ([-4, 4, -4, 4, 4, -4], 21846, "11", 16, 24, false),
      ([-4, 4, -4, 4], 16384, "11", 8, 16, false), ([-4, 4, -4, 4], 16383, "11", 8, 16, true),
      ([4, 4, -4, 0], 32767, "11", 12, 12, true), ([4, 4, -4, 0], 32768, "11", 12, 12, false)].all
        (fun (v : List Int × Int × String × Int × Nat × Bool) =>
          smallDecode config 2 v.1 v.1.length 0 v.2.1 ==
            ⟨bits v.2.2.1, v.2.2.2.2.2, if v.2.2.2.2.2 then .ok else .lowConfidence, v.2.2.2.1, v.2.2.2.2.1⟩) = true := by
  decide

/-- Section 2.5, rows of the RM path: silence, ties and one that is decided. -/
theorem test_rmDecision :
    smallDecode config 3 (List.replicate 32 (-128)) 32 0 16384 = ⟨bits "000", true, .ok, 4096, 4096⟩ ∧
    smallDecode config 3 (List.replicate 32 127) 32 0 16384 = ⟨bits "100", true, .ok, 4064, 4064⟩ ∧
    smallDecode config 4 (List.replicate 20 0) 20 0 16384 = ⟨bits "0000", false, .lowConfidence, 0, 0⟩ ∧
    smallDecode config 3 (noiseless (smallEncode config (bits "011") 32) 10) 32 0 16384 =
      ⟨bits "011", true, .ok, 320, 320⟩ := by decide +kernel

/-- Section 2.10: the two orders of packing. -/
theorem test_pack_orders :
    (match pack { config with packOrder := .ackSrCsi1 } ⟨2, 3, true⟩ (.pucch (res2 2))
        (readyWith [true, false] [false, true, true] [true]).mem with
      | .ok a => a
      | .error _ => []) = bits "101011" ∧
    (splitPucch { config with packOrder := .ackSrCsi1 } ⟨2, 3, true⟩ (bits "101011")) =
      (bits "10", bits "011", bits "1") := by decide

/-! UCI-ASM (sections 2.1 and P1, P4). -/

/-- A statement's text and the writes it makes. -/
def asmWrites (text : String) : List HostAct :=
  match parseLine text with
  | some (.statement i) => assemble i
  | _ => []

theorem test_asm_statements :
    asmWrites "INIT thr1=-5, thrb=-1" = [.write 0 8 0xFFFFFFFB, .write 0 9 0xFFFFFFFF, .write 0 0 1] ∧
    asmWrites "FREE  # release" = [.write 0 0 2] ∧
    asmWrites "SETCARRIER nprb=273, mu=1" = [.write 0 8 0x889, .write 0 0 3] ∧
    asmWrites "Q_PUCCH_E fmt=3, nsym=14, nprb=16, qm=2" = [.write 0 9 0x2873, .write 0 0 0xC] ∧
    asmWrites "ENC_PUSCH_CSI1 ack=1, csi1=4, msum=100, ml0=100, ksum=1000, back=160, bcsi=20, alpha=10, qm=2, nl=1" =
      [.write 0 8 0x2001, .write 0 9 0x640064, .write 0 10 0x3E8, .write 0 11 0xA050A0, .write 0 12 0x9000,
        .write 0 0 8] := by decide

theorem test_asm_directives :
    parseLine ".ack 1,0,1,1" = some (.directive (.ack [true, false, true, true])) ∧
    expand config (.llr [-4, 4]) ready = [.write 5 0 0xFFFFFFFC, .write 5 1 4] ∧
    expand config (.flip 1) (readyLlr [100, -100]) = [.read 5 1, .write 5 1 100] ∧
    expand config (.noiseless 100) { ready with
        resp := ⟨0, 2, 0, 0, 0⟩, mem := { Memory.empty with cod := [(0, true), (1, false)] } } =
      [.read 0 3, .read 4 0, .write 5 0 100, .read 4 1, .write 5 1 0xFFFFFF9C] := by decide

/-- The raw line of P3 is no line of UCI-ASM (log 22); as the transaction it names it is answered as P3 says. -/
theorem test_asm_raw_line :
    parseLine "HostWrite(0, 0, 0x00000014)                       # raw illegal header" = none ∧
    resp0After (performed { ready with cmd := 4 } [.write 0 0 0x14]) = 0x00004006 := by decide

/-! A lawful configuration record, for the witnesses of the statements about the Polar path. -/

/-- The machine's record with the plain Polar engine, which can be evaluated. -/
def toy : Config := { config with polar := plainPolar }

theorem toy_shaped : PolarShaped toy.polar toy.llrW toy.softW := (plainPolar_lawful 8 16 (by decide)).shaped

theorem toy_lawful : ConfigLawful toy where
  legal := { config_legal with }
  crc := refCrc_lawful
  polar := plainPolar_lawful 8 16 (by decide)

/-! Witnesses: for each statement with hypotheses, concrete states and operands that meet them. -/

/-- An outcome that is a next state, as the statements write it. -/
theorem next_exists {r : Result} (h : isNext r = true) : ∃ t, r = .next t := ⟨_, eq_next r h⟩

/-- The largest PUSCH configuration a frame carries. -/
def pMax : PuschCfg := ⟨65535, 65535, 16777215, 1023, 1023, 31, 2047, 15, 7, true⟩

theorem witness_DecodeReadsBackEveryEncoding :
    (Instr.init 0xFFFFFFFF 0).WellFormed ∧ Instr.free.WellFormed ∧ (Instr.setCarrier 7 511).WellFormed ∧
    (Instr.encPucch ⟨2047, 2047, true⟩ ⟨7, 15, 31, 3, 7⟩).WellFormed ∧
    (Instr.decPuschCsi1 ⟨2047, 2047, true⟩ pMax).WellFormed ∧ (Instr.qCrcLen 4294967295).WellFormed := by decide

/-- Each operand format with its reserved bits clear and with the lowest and the highest of them set. -/
theorem witness_DecodeFollowsTheFrameTable :
    bitsOf 0x10 31 4 ≠ 0 ∧ bitsOf 0x80000000 31 4 ≠ 0 ∧ bitsOf 0xFFF 31 12 = 0 ∧ bitsOf 0x1000 31 12 ≠ 0 ∧
    ¬ reservedP (argsOf [0x7FFFFF, 0x1FFFF]) ∧ reservedP (argsOf [0x800000, 0]) ∧ reservedP (argsOf [0, 0x20000]) ∧
    ¬ reservedS (argsOf [0x7FFFFF, 0xFFFFFFFF, 0xFFFFFF, 0x1FFFFFF, 0x7FFFF]) ∧ reservedS (argsOf [0x80000000]) ∧
    reservedS (argsOf [0, 0, 0x1000000]) ∧ reservedS (argsOf [0, 0, 0, 0x2000000]) ∧
    reservedS (argsOf [0, 0, 0, 0, 0x80000]) := by decide

theorem witness_DecodedFramesEncodeBack :
    decode (frame 14 [0x7FFFFF, 0xFFFFFFFF, 0xFFFFFF, 0x1FFFFFF, 0x7FFFF, 1, 2, 3]) =
      .ok (.qPuschCsi1E ⟨2047, 2047, true⟩ pMax) := by decide

theorem witness_StepRunsTheDecodedCommand :
    ({ ready with host := [.write 0 0 2, .reset] } : State).host = .write 0 0 2 :: [.reset] ∧
    decode ⟨2, ready.arg⟩ = .ok .free ∧ decode (frame 1 [7, 9]) = .ok (.init 7 9) := by decide

/-- One state for each of the three ends of Issue. -/
theorem witness_IssueDecodesAcceptsThenRuns :
    ({ ready with host := [.write 0 0 0] } : State).host = .write 0 0 0 :: [] ∧
    decode ⟨0, ready.arg⟩ = .error .reservedOpcode ∧
    ({ ready with host := [.write 0 0 1] } : State).host = .write 0 0 1 :: [] ∧
    decode ⟨1, ready.arg⟩ = .ok (.init 0 0) ∧ acceptedIn (.init 0 0) ready.life = false ∧
    ({ ready with host := [.write 0 0 2] } : State).host = .write 0 0 2 :: [] ∧
    decode ⟨2, ready.arg⟩ = .ok .free ∧ acceptedIn .free ready.life = true ∧
    isNext (step { ready with host := [.write 0 0 2] }) = true := by decide

/-- The first and the last element of each space, written. -/
theorem witness_HostWritesStoreOneElement :
    (0 : Nat) < 8 ∧ 7 < 8 ∧ ({ ready with host := [.write 0 15 9] } : State).host = .write 0 (BitVec.ofNat 16 (8 + 7)) 9 :: [] ∧
    (BitVec.ofNat 16 1705).toNat < config.aMax ∧ (1 : BitVec 16).toNat < 2 ∧ (BitVec.ofNat 16 8191).toNat < config.eMax ∧
    ({ ready with host := [.write 1 1705 1] } : State).host = .write 1 1705 1 :: [] ∧
    ({ ready with host := [.write 2 1705 1] } : State).host = .write 2 1705 1 :: [] ∧
    ({ ready with host := [.write 3 1 1] } : State).host = .write 3 1 1 :: [] ∧
    ({ ready with host := [.write 4 8191 1] } : State).host = .write 4 8191 1 :: [] ∧
    ({ ready with host := [.write 5 8191 0x80] } : State).host = .write 5 8191 0x80 :: [] := by decide

theorem witness_ReadOnlyElementsIgnoreWrites :
    ({ ready with host := [.write 0 7 1] } : State).host = .write 0 7 1 :: [] ∧
    (1 : BitVec 16) ≠ 0 ∧ ¬ (8 ≤ (7 : BitVec 16).toNat ∧ (7 : BitVec 16).toNat ≤ 15) ∧
    ¬ (8 ≤ (16 : BitVec 16).toNat ∧ (16 : BitVec 16).toNat ≤ 15) ∧
    ({ ready with host := [.write 8 0 1] } : State).host = .write 8 0 1 :: [] ∧
    ({ ready with host := [.write 11 0 1] } : State).host = .write 11 0 1 :: [] := by decide

/-- The first index past each space. -/
theorem witness_MissingElementsAreInert :
    64 ≤ (64 : BitVec 16).toNat ∧ config.aMax ≤ (BitVec.ofNat 16 1706).toNat ∧ 2 ≤ (2 : BitVec 16).toNat ∧
    config.eMax ≤ (BitVec.ofNat 16 8192).toNat ∧ config.aMax + 11 ≤ (BitVec.ofNat 16 1717).toNat ∧
    config.nMax ≤ (BitVec.ofNat 16 8192).toNat ∧ (6 : BitVec 4) ∈ ([6, 7, 12, 13, 14, 15] : List (BitVec 4)) ∧
    ({ ready with host := [.write 6 0 1] } : State).host = .write 6 0 1 :: [] ∧
    ({ ready with host := [.read 15 0xFFFF] } : State).host = .read 15 0xFFFF :: [] := by decide

/-- A state with one specified element in each space, at a boundary index. -/
def filled : State :=
  { ready with mem :=
    { valAck := [(1705, true)], valCsi1 := [(1705, false)], valMisc := [(1, true)], cod := [(8191, true)]
      llr := [(8191, -128)], bitSequence := [(1705, true)], c := [(1716, true)], allocated := [(8191, false)]
      d := [(8191, 32767)] } }

theorem witness_HostReadsGiveTheElement :
    (63 : BitVec 16).toNat < 64 ∧ Buf.read filled.mem.valAck (1705 : BitVec 16).toNat = some true ∧
    Buf.read filled.mem.valCsi1 (1705 : BitVec 16).toNat = some false ∧
    Buf.read filled.mem.valMisc (1 : BitVec 16).toNat = some true ∧
    Buf.read filled.mem.cod (8191 : BitVec 16).toNat = some true ∧
    Buf.read filled.mem.llr (8191 : BitVec 16).toNat = some (-128) ∧
    Buf.read filled.mem.bitSequence (1705 : BitVec 16).toNat = some true ∧
    Buf.read filled.mem.c (1716 : BitVec 16).toNat = some true ∧ (1716 : BitVec 16).toNat < config.aMax + 11 ∧
    Buf.read filled.mem.allocated (8191 : BitVec 16).toNat = some false ∧
    Buf.read filled.mem.d (8191 : BitVec 16).toNat = some 32767 ∧ (8191 : BitVec 16).toNat < config.nMax ∧
    ({ filled with host := [.read 11 8191] } : State).host = .read 11 8191 :: [] := by decide

theorem witness_WrittenElementsReadBack :
    ({ ready with host := [.write 0 15 5, .read 0 15] } : State).host = .write 0 15 5 :: .read 0 15 :: [] ∧
    8 ≤ (15 : BitVec 16).toNat ∧ (15 : BitVec 16).toNat ≤ 15 ∧ (1705 : BitVec 16).toNat < config.aMax ∧
    ({ ready with host := [.write 5 8191 0x80, .read 5 8191] } : State).host = .write 5 8191 0x80 :: .read 5 8191 :: [] ∧
    (8191 : BitVec 16).toNat < config.eMax := by decide

/-- Reset leaves every element unspecified. -/
theorem witness_UnspecifiedReadsKeepTheElementType :
    ({ State.reset with host := [.read 5 8191] } : State).host = .read 5 8191 :: [] ∧
    Buf.read State.reset.mem.llr (8191 : BitVec 16).toNat = none ∧ (8191 : BitVec 16).toNat < config.eMax ∧
    Buf.read State.reset.mem.valAck (1705 : BitVec 16).toNat = none ∧ (1705 : BitVec 16).toNat < config.aMax ∧
    Buf.read State.reset.mem.d (8191 : BitVec 16).toNat = none ∧
    Buf.read State.reset.mem.c (1716 : BitVec 16).toNat = none := by decide

theorem witness_BusAccessesAreWordTransactions :
    ({ ready with host := [.busWrite 0x53FFFC [1, 2, 3, 4]] } : State).host =
      .busWrite (((5 : BitVec 4).setWidth 24 <<< 20) ||| ((0xFFFF : BitVec 16).setWidth 24 <<< 2)) [1, 2, 3, 4] :: [] ∧
    ({ ready with host := [.busRead 0x000004 4] } : State).host =
      .busRead (((0 : BitVec 4).setWidth 24 <<< 20) ||| ((1 : BitVec 16).setWidth 24 <<< 2)) 4 :: [] ∧
    (3 : Nat) ≠ 4 ∧ (0x000003 : BitVec 24).toNat % 4 ≠ 0 := by decide

theorem witness_ResetClearsEverything : ({ filled with host := [.reset] } : State).host = .reset :: [] := by decide

/-- The clause about a block that has had no command: HOST writes an operand register. -/
theorem witness_ResetClearsEverything_no_command :
    let s : State := { State.reset with host := [.write 0 8 5] }
    s.life = .uninit ∧ (∀ i, i < 8 ∨ 15 < i → csrRead s i = 0) ∧
    (∀ k, Buf.read s.mem.bitSequence k = none ∧ Buf.read s.mem.c k = none ∧ Buf.read s.mem.allocated k = none ∧
      Buf.read s.mem.d k = none) ∧
    (∀ h rest, s.host ≠ .write 0 0 h :: rest) ∧ (∀ bytes rest, s.host ≠ .busWrite 0 bytes :: rest) ∧
    ∃ t, step s = .next t := by
  refine ⟨rfl, ?_, fun k => ⟨rfl, rfl, rfl, rfl⟩, ?_, ?_, next_exists (by decide)⟩
  · intro i _
    simp only [csrRead]
    split <;> rfl
  · simp
  · simp

theorem witness_AssembledStatementsRun :
    (Instr.encPucch ⟨1, 0, false⟩ (res2 1)).WellFormed ∧
    ({ ready with host := assemble (.encPucch ⟨1, 0, false⟩ (res2 1)) } : State).host =
      assemble (.encPucch ⟨1, 0, false⟩ (res2 1)) ++ [] := by decide

theorem witness_InitLatchesTheSession : State.reset.life = .uninit := by decide

theorem witness_FreeReleasesTheSession :
    ready.life ≠ .uninit ∧ ({ State.reset with life := .noCarrier } : State).life ≠ .uninit := by decide

theorem witness_SetCarrierSetsOrRejectsTheCarrier :
    ready.life ≠ .uninit ∧ legalCarrier 0 1 ∧ legalCarrier 4 275 ∧ ¬ legalCarrier 5 1 ∧ ¬ legalCarrier 0 0 ∧
    ¬ legalCarrier 0 276 := by decide

theorem witness_LifecycleFollowsTheTable :
    (∃ t, exec .free ready = .next t) ∧ ∃ t, step { ready with host := [.reset] } = .next t :=
  ⟨next_exists (by decide), next_exists (by decide)⟩

theorem witness_AcceptanceFollowsTheTable :
    acceptedIn .free State.reset.life = false ∧ acceptedIn (.setCarrier 0 1) ready.life = true ∧
    ∃ t, exec (.setCarrier 0 1) ready = .next t := ⟨by decide, by decide, next_exists (by decide)⟩

theorem witness_EveryCommandWritesAWholeResponse :
    ∃ t, exec (.encPucch ⟨1, 0, false⟩ (res2 1)) (readyWith [true] [] []) = .next t := next_exists (by decide)

theorem witness_RejectionsLeaveTheState :
    ∃ t, exec (.encPucch ⟨0, 0, false⟩ (res2 0)) ready = .next t ∧ rejected t.resp :=
  ⟨_, eq_next _ (by decide), by decide⟩

theorem witness_CommandsEndInTheirOwnErrors :
    ∃ t, exec (.decPucch ⟨1, 0, false⟩ (res2 1)) (readyLlr (List.replicate 16 1)) = .next t := next_exists (by decide)

theorem witness_CommandsKeepTheOperandRegisters :
    ∃ t, exec (.decPucch ⟨1, 0, false⟩ (res2 1)) (readyLlr (List.replicate 16 1)) = .next t := next_exists (by decide)

/-- An encode whose VAL_ACK element is unspecified, and a decode with no LLRs. -/
theorem witness_RefusalsNameAnUnspecifiedElement :
    exec (.encPucch ⟨1, 0, false⟩ (res2 1)) ready = .refused (.unspecifiedElement .valAck) ∧
    exec (.decPucch ⟨1, 0, false⟩ (res2 1)) ready = .refused (.unspecifiedElement .llr) := ⟨rfl, rfl⟩

theorem witness_SuppliedCodecCommandsAnswer :
    ready.life = .ready ∧
    (∀ sp, ¬ EncodeReadUnspecified ⟨0, 0, true⟩ (.pucch (res2 1)) (readyWith [] [] [true]).mem sp) ∧
    ¬ DecodeReadUnspecified config ⟨1, 0, false⟩ (.pucch (res2 0)) ready.mem := by
  refine ⟨rfl, ?_, ?_⟩
  · rintro sp (⟨_, _, k, hk, _⟩ | ⟨_, _, k, hk, _⟩ | ⟨_, _, _, h⟩)
    · exact absurd hk (by simp)
    · exact absurd hk (by simp)
    · exact absurd h (by decide)
  · rintro ⟨E, h, _⟩
    exact absurd h (by simp [codedLength, pucchOutputLength, config, pucchEDefault, res2])

theorem witness_QTotalRespondsWithTheSum : UciCfg.WellFormed ⟨2047, 2047, true⟩ := by decide

theorem witness_QCrcLenRespondsWithTheCrcLength : (11 : Nat) ≤ 11 ∧ 12 ≤ 12 ∧ 12 ≤ 19 ∧ 19 ≤ 19 ∧ 20 ≤ 20 := by decide

theorem witness_QPucchERespondsByTheTable :
    LegalFormat2 ⟨2, 1, 1, 2, 0⟩ ∧ LegalFormat2 ⟨2, 2, 16, 2, 7⟩ ∧ LegalFormat3 ⟨3, 4, 1, 1, 0⟩ ∧
    LegalFormat3 ⟨3, 14, 16, 2, 0⟩ ∧ LegalFormat4 ⟨4, 4, 1, 1, 4⟩ ∧ LegalFormat4 ⟨4, 14, 1, 2, 2⟩ ∧
    ¬ LegalFormat2 (res2 0) ∧ ¬ LegalFormat3 (res2 0) ∧ ¬ LegalFormat4 (res2 0) := by decide

/-- The vectors' row with E equal to the allocation, and one with E = 0 (section 2.2). -/
theorem witness_QPuschAckERespondsByTheFormula :
    LegalPuschFields { pB with kSum := 1, alphaX20 := 20 } ∧
    (1 * 2 * min (ceilDiv ((20 + 11) * 160 * 100) (8 * 1)) (ceilDiv (20 * 100) 20) : Nat) = 200 ∧ 1 * 2 * 100 = 200 ∧
    (1 * 2 * min (ceilDiv ((0 + 0) * 160 * 100) (8 * 1000)) (ceilDiv (10 * 100) 20) : Nat) = 0 := by decide

/-- The first CSI row of section 2.2: Qa = 4, cap = 46, q1 = 1, E = 2. -/
theorem witness_QPuschCsi1ERespondsByTheFormula :
    LegalPuschFields pB ∧ ceilDiv ((2 + 0) * 160 * 100) (8 * 1000) = 4 ∧ ceilDiv (10 * 100) 20 = 50 ∧
    ceilDiv ((4 + 0) * 20 * 100) (8 * 1000) = 1 ∧ (1 * 2 * min (1 : Int) (50 - 4) = 2) ∧
    ¬ LegalPuschFields { pB with qm := 3 } := by decide

theorem witness_CeilDivIsTheExactCeiling : 0 < 1 := by decide

theorem witness_PuschLengthsPassTheTwoSidedGate :
    puschAckOutputLength config pB 20 = .ok 100 ∧ puschAckOutputLength config pB 0 = .error .invalidConfig ∧
    puschCsi1OutputLength config pB ⟨1, 4, false⟩ = .ok 2 ∧
    puschCsi1OutputLength config pB ⟨1, 0, false⟩ = .error .invalidConfig := ⟨rfl, rfl, rfl, rfl⟩

theorem witness_PathFollowsThePayloadLength : (0 : Nat) = 0 ∧ 3 ≤ 3 ∧ 3 ≤ 11 ∧ 11 ≤ 11 ∧ 12 ≤ 12 := by decide

theorem witness_CrcSelectorFollowsTheBoundaries :
    11 ≤ 11 ∧ 12 ≤ 12 ∧ 12 ≤ 19 ∧ 19 ≤ 19 ∧ 20 ≤ 20 ∧ crcSelect ready 20 = some (0xE21, 11) ∧ ready.life = .ready ∧
    SessionInv config ready := by
  refine ⟨?_, ?_, ?_, ?_, ?_, ?_, ?_, ⟨?_, ?_, ?_, ?_, ?_, ?_⟩⟩ <;> decide

theorem witness_ReferenceCrcDetectsSingleBitErrors :
    (bits "101100101110").length = 12 ∧ (bits "1011001011101101001").length = 19 ∧ 24 < 19 + 6 ∧
    (bits "11010010111000110101").length = 20 ∧ 30 < 20 + 11 := by decide

theorem witness_SmallCodewordsFollowTheTables :
    0 < 1 ∧ 3 ≤ (bits "100").length ∧ (bits "10110010111").length ≤ 11 ∧ 31 < 32 := by decide

theorem witness_OneBitDecisionComparesTheSum : ([3, -1, 2] : List Int).length = 3 := by decide

theorem witness_BlockDecisionTakesTheLowestBestCandidate : 2 ≤ 2 ∧ 11 ≤ 11 ∧ ([10] : List Int).length = 1 := by decide

theorem witness_BestCorrelationIsNotNegative : 2 ≤ 2 ∧ 11 ≤ 11 ∧ ([-10] : List Int).length = 1 := by decide

theorem witness_DecisionValuesFitTheirRegisters :
    ConfigLegal config ∧ 1 ≤ 1 ∧ 11 ≤ 11 ∧ ([-128, 127] : List Int).length = 2 ∧ 2 ≤ config.eMax ∧
    ∀ v ∈ ([-128, 127] : List Int), inSigned config.llrW v := ⟨config_legal, by decide⟩

theorem witness_SilenceIsDecidedByTheThreshold : 1 ≤ 1 ∧ 1 ≤ 11 ∧ 2 ≤ 11 ∧ 11 ≤ 11 := by decide

/-- Silence, and a word that is not (section 2.5). -/
theorem witness_AcceptanceTestAtItsExtremes :
    ([0, 0] : List Int).length = 2 ∧ (smallDecode config 2 [0, 0] 2 0 (-1)).den = 0 ∧
    0 < (smallDecode config 2 [10] 1 0 (-1)).den ∧ (-1 : Int) < 0 ∧ (32768 : Int) ≤ 32768 := by decide

theorem witness_CodesAreOneToOneFromTheirBounds : 1 ≤ 1 ∧ 11 ≤ 11 ∧ oneToOneBound 11 = 17 := by decide

theorem witness_SmallBlockNoiselessRoundTrip :
    [true].length = 1 ∧ oneToOneBound 1 ≤ 1 ∧ (1 : Int) ≤ 1 ∧ (bits "10110010111").length = 11 ∧ oneToOneBound 11 ≤ 17 ∧
    (32767 : Int) < 32768 := by decide

/-- No length, too long for the carrier, no bits, too many bits, no code: one command each, in READY. -/
theorem witness_ValidationRejectsInItsOrder :
    ready.life = .ready ∧ config.pucchE (res2 0) = none ∧
    puschAckOutputLength config pB 0 = .error .invalidConfig ∧
    codedLength config ⟨20, 0, false⟩ (.puschAck ⟨1000, 1000, 1, 160, 20, 20, 0, 8, 4, false⟩) = .ok 32000 ∧
    ready.capE < 32000 ∧ codedLength config ⟨0, 0, false⟩ (.pucch (res2 1)) = .ok 16 ∧
    payloadLength ⟨0, 0, false⟩ (.pucch (res2 1)) = 0 ∧ ready.capA < payloadLength ⟨1707, 0, false⟩ (.pucch (res2 1)) ∧
    toy.polar.construct (12 + crcLength 12) 16 = none ∧
    (toy.polar.construct (20 + crcLength 20) 32).map (·.N) = some 32 ∧
    (toy.polar.construct (40 + crcLength 40) 64).map (fun code => decide (toy.nMax < code.N)) = some true :=
  ⟨rfl, rfl, rfl, rfl, by decide, rfl, rfl, by decide, rfl, rfl, rfl⟩

/-- A payload of one bit and one of eleven. -/
theorem witness_SmallEncodesComplete :
    ready.life = .ready ∧ codedLength config ⟨1, 0, false⟩ (.pucch (res2 1)) = .ok 16 ∧ 16 ≤ ready.capE ∧
    HoldsPayload .ackCsi1Sr ⟨1, 0, false⟩ (.pucch (res2 1)) (readyWith [true] [] []).mem [true] ∧
    HoldsPayload .ackCsi1Sr ⟨4, 6, true⟩ (.pucch (res2 1)) (readyWith (bits "1011") (bits "001011") [true]).mem
      (bits "10110010111") := by
  refine ⟨rfl, rfl, by decide, ⟨rfl, ?_, ?_, ?_⟩, ⟨rfl, ?_, ?_, ?_⟩⟩ <;> decide

theorem witness_SmallDecodesComplete :
    ready.life = .ready ∧ codedLength config ⟨11, 0, false⟩ (.pucch (res2 1)) = .ok (List.replicate 16 (1 : Int)).length ∧
    16 ≤ ready.capE ∧ 1 ≤ payloadLength ⟨11, 0, false⟩ (.pucch (res2 1)) ∧
    payloadLength ⟨11, 0, false⟩ (.pucch (res2 1)) ≤ 11 ∧ 11 ≤ ready.capA ∧
    Buf.holds (readyLlr (List.replicate 16 1)).mem.llr 0 (List.replicate 16 (1 : Int)) := by
  refine ⟨rfl, rfl, ?_, ?_, ?_, ?_, ?_⟩ <;> decide

/-- A payload of HARQ-ACK bits alone, on PUSCH. -/
theorem holds_ack (o : PackOrder) (cfg : UciCfg) (p : PuschCfg) (m : Memory) (a : List Bool) (hl : a.length = cfg.oAck)
    (h : ∀ i, i < cfg.oAck → Buf.read m.valAck i = a[i]?) : HoldsPayload o cfg (.puschAck p) m a := ⟨hl, h⟩

/-- The Polar vectors' PUSCH channel (S7): E = 100 for 20 ACK bits. -/
def chB : Chan := .puschAck pB

/-- Twenty payload bits (S7). -/
def payload20 : List Bool := bits "11010010111000110101"

theorem witness_PolarEncodesComplete :
    CrcLawful toy.crc ∧ PolarShaped toy.polar toy.llrW toy.softW ∧ ready.life = .ready ∧
    codedLength toy ⟨20, 0, false⟩ chB = .ok 100 ∧ 100 ≤ ready.capE ∧ 12 ≤ payload20.length ∧
    payload20.length ≤ ready.capA ∧
    HoldsPayload toy.packOrder ⟨20, 0, false⟩ chB (readyWith payload20 [] []).mem payload20 ∧
    toy.polar.construct (payload20.length + crcLength payload20.length) 100 = some ⟨31, 100, 32⟩ ∧ 32 ≤ toy.nMax := by
  refine ⟨refCrc_lawful, toy_shaped, rfl, rfl, ?_, ?_, ?_, holds_ack _ _ _ _ _ rfl ?_, rfl, ?_⟩ <;> decide

theorem witness_PolarDecodesComplete :
    PolarShaped toy.polar toy.llrW toy.softW ∧ ready.life = .ready ∧
    codedLength toy ⟨12, 0, false⟩ (.pucch (res2 2)) = .ok (List.replicate 32 (-128 : Int)).length ∧ 32 ≤ ready.capE ∧
    12 ≤ payloadLength ⟨12, 0, false⟩ (.pucch (res2 2)) ∧ payloadLength ⟨12, 0, false⟩ (.pucch (res2 2)) ≤ ready.capA ∧
    Buf.holds (readyLlr (List.replicate 32 (-128))).mem.llr 0 (List.replicate 32 (-128 : Int)) ∧
    (∀ v ∈ List.replicate 32 (-128 : Int), inSigned toy.llrW v) ∧
    toy.polar.construct (12 + crcLength 12) 32 = some ⟨18, 32, 32⟩ ∧ 32 ≤ toy.nMax := by
  refine ⟨toy_shaped, rfl, rfl, ?_, ?_, ?_, ?_, ?_, rfl, ?_⟩ <;> decide

/-- Twelve payload bits, and the state an encode of them starts from and leaves (section 2.6). -/
def payload12 : List Bool := bits "101100101110"
def cfg12 : UciCfg := ⟨12, 0, false⟩
def ch12 : Chan := .pucch (res2 2)
def polarBefore : State := readyWith payload12 [] []
def polarAfter : State := stateAfter (execIn toy (encodeInstr cfg12 ch12) polarBefore)

theorem polarAfter_eq : execIn toy (encodeInstr cfg12 ch12) polarBefore = .next polarAfter := eq_next _ (by rfl)

theorem polarAfter_path : pathField polarAfter.resp.r0 = 4 ∧ completedOk polarAfter.resp := ⟨rfl, rfl⟩

theorem witness_PolarContextFollowsThePolarPath :
    PolarShaped toy.polar toy.llrW toy.softW ∧
    (∃ t, execIn toy (encodeInstr cfg12 ch12) polarBefore = .next t ∧ pathField t.resp.r0 = 4) ∧
    (∃ t, execIn toy (encodeInstr ⟨1, 0, false⟩ ch12) polarBefore = .next t ∧ pathField t.resp.r0 ≠ 4) ∧
    (∃ t, execIn toy .free State.reset = .next t ∧ rejected t.resp) ∧ (∃ t, execIn toy (.init 0 0) State.reset = .next t) ∧
    ∃ t, execIn toy (.qCrcLen 12) ready = .next t :=
  ⟨toy_shaped, ⟨_, polarAfter_eq, polarAfter_path.1⟩, ⟨_, eq_next _ (by decide), by decide⟩,
    ⟨_, eq_next _ (by decide), by decide⟩, next_exists (by decide), next_exists (by decide)⟩

theorem witness_SameLengthSamePath :
    ∃ t, execIn toy (encodeInstr cfg12 ch12) polarBefore = .next t ∧ ¬ rejected t.resp :=
  ⟨_, polarAfter_eq, by rw [rejected, polarAfter_path.2]; decide⟩

/-- The small round trip's states: an encode of two bits, and the state HOST makes of what it left. -/
def smallBefore : State := readyWith [true, false] [] []
def cfgSmall : UciCfg := ⟨2, 0, false⟩
def smallAfter : State := stateAfter (exec (encodeInstr cfgSmall chB) smallBefore)
def smallHeard : State := readyLlr ((bits "10110110").map (fun b => if b then 127 else -127))

theorem witness_SmallCommandRoundTrip :
    exec (encodeInstr cfgSmall chB) smallBefore = .next smallAfter ∧ completedOk smallAfter.resp ∧
    HoldsPayload .ackCsi1Sr cfgSmall chB smallBefore.mem [true, false] ∧ codedLength config cfgSmall chB = .ok 8 ∧
    smallHeard.life = .ready ∧ smallHeard.capA = smallBefore.capA ∧ smallHeard.capE = smallBefore.capE ∧
    (1 : Int) ≤ 127 ∧ HoldsNoiseless smallAfter.mem.cod smallHeard.mem.llr 8 127 ∧ oneToOneBound 2 ≤ 8 ∧
    smallHeard.thrb.toInt < 32768 := by
  refine ⟨eq_next _ (by decide), by decide, holds_ack _ _ _ _ _ rfl (by decide), rfl, rfl, rfl, rfl, by decide, ?_, by decide, by decide⟩
  intro k hk
  refine ⟨(bits "10110110").getD k false, ?_⟩
  revert k
  decide

/-- The other clause, one payload bit: thresholds that admit a noiseless codeword. -/
theorem witness_SmallCommandRoundTrip_one_bit :
    let t := stateAfter (exec (encodeInstr ⟨1, 0, false⟩ chB) (readyWith [true] [] []))
    let u := readyLlr (List.replicate 4 1)
    exec (encodeInstr ⟨1, 0, false⟩ chB) (readyWith [true] [] []) = .next t ∧ completedOk t.resp ∧
    HoldsPayload .ackCsi1Sr ⟨1, 0, false⟩ chB (readyWith [true] [] []).mem [true] ∧
    codedLength config ⟨1, 0, false⟩ chB = .ok 4 ∧ HoldsNoiseless t.mem.cod u.mem.llr 4 1 ∧
    -(1 * 4 : Int) ≤ u.thr1.toInt ∧ u.thr1.toInt < 1 * 4 := by
  refine ⟨eq_next _ (by decide), by decide, holds_ack _ _ _ _ _ rfl (by decide), rfl, ?_, by decide, by decide⟩
  intro k hk
  exact ⟨true, by revert k; decide⟩

/-- The Polar round trip's listening state. -/
def polarHeard : State :=
  readyLlr ((polarAfter.mem.cod.map (·.2)).map (fun b => if b then 127 else -127))

theorem witness_PolarCommandRoundTrip :
    ConfigLawful toy ∧ execIn toy (encodeInstr cfg12 ch12) polarBefore = .next polarAfter ∧
    completedOk polarAfter.resp ∧ HoldsPayload toy.packOrder cfg12 ch12 polarBefore.mem payload12 ∧
    12 ≤ payload12.length ∧ codedLength toy cfg12 ch12 = .ok 32 ∧ polarHeard.life = .ready ∧
    polarHeard.capA = polarBefore.capA ∧ polarHeard.capE = polarBefore.capE ∧ polarHeard.crc6 = polarBefore.crc6 ∧
    polarHeard.crc11 = polarBefore.crc11 ∧ (127 : Int) ≤ 2 ^ (toy.llrW - 1) - 1 ∧
    HoldsNoiseless polarAfter.mem.cod polarHeard.mem.llr 32 127 := by
  refine ⟨toy_lawful, polarAfter_eq, polarAfter_path.2, ⟨rfl, ?_, fun i hi => absurd hi (Nat.not_lt_zero i),
    fun h => absurd h (by decide)⟩, by decide, rfl, rfl, rfl, rfl, rfl, rfl, by decide, ?_⟩
  · decide
  have hc : polarAfter.mem.cod = Buf.layout 0 (bits "10110010111010111000000000000000") := rfl
  intro k hk
  refine ⟨(bits "10110010111010111000000000000000").getD k false, ?_⟩
  rw [polarHeard, hc]
  revert k
  decide

/-- Two states that differ in their scratch spaces, in COD and in the Polar context. -/
def otherHistory : State :=
  { smallBefore with
    carrier := 0x889, polarValid := true, polarK := 31, polarE := 100, polarN := 128
    mem := { smallBefore.mem with cod := [(0, false), (9, true)], bitSequence := [(0, false)], d := [(3, 7)] } }

theorem witness_ResultsDoNotDependOnHistory :
    otherHistory.life = smallBefore.life ∧ otherHistory.thrb = smallBefore.thrb ∧ otherHistory.arg = smallBefore.arg ∧
    ReadsAgree config (encodeInstr cfgSmall chB) smallBefore.mem otherHistory.mem ∧ otherHistory ≠ smallBefore ∧
    execIn config (encodeInstr cfgSmall chB) smallBefore = .next smallAfter := by
  refine ⟨rfl, rfl, rfl, ⟨fun _ _ _ => rfl, fun _ _ _ => rfl, fun _ _ => rfl⟩, by decide, eq_next _ (by decide)⟩

/-- A reachable-looking state in the middle of a session, with an encode to do. -/
theorem witness_EveryStepKeepsTheInvariants :
    Inv (placeFrame (frame 6 [0x2, 0x640064, 0x3E8, 0xA050A0, 0x9000]) smallBefore) ∧
    ∃ t, step (placeFrame (frame 6 [0x2, 0x640064, 0x3E8, 0xA050A0, 0x9000]) smallBefore) = .next t := by
  refine ⟨⟨⟨?_, ?_, ?_, ?_, ?_, ?_⟩, ?_, ⟨?_, ?_, ?_, ?_, ?_, ?_, ?_, ?_, ?_, ?_, ?_⟩⟩, next_exists (by decide)⟩ <;> decide

/-- A record with other capacities and another LLR width than the machine's. -/
def other : Config := { config with aMax := 20, eMax := 100, nMax := 128, llrW := 4 }

/-- The last element of each count and the first past it. -/
theorem witness_TheStepTakesTheRecordAsAParameter :
    ({ ready with host := [.write 0 0 2] } : State).host = .write 0 0 2 :: [] ∧
    decode ⟨2, ready.arg⟩ = .ok .free ∧ (19 : BitVec 16).toNat < other.aMax ∧ other.aMax ≤ (20 : BitVec 16).toNat ∧
    (99 : BitVec 16).toNat < other.eMax ∧ other.eMax ≤ (100 : BitVec 16).toNat ∧
    other.aMax + 11 ≤ (31 : BitVec 16).toNat ∧ other.nMax ≤ (128 : BitVec 16).toNat ∧
    ({ ready with host := [.write 5 99 8] } : State).host = .write 5 99 8 :: [] ∧
    ({ ready with host := [.read 9 31] } : State).host = .read 9 31 :: [] ∧
    Buf.read ([(127, -5)] : Buf Int) (127 : BitVec 16).toNat = some (-5) ∧ (127 : BitVec 16).toNat < other.nMax := by
  decide

end Sys2Proof.Tests
end

section
/-! The STATUS register: its word as a number, and its fields read back (spec R27). -/

namespace Sys2Proof.Machine

@[simp] theorem csrRead_status (s : State) : csrRead s 1 = statusWord s := rfl

/-- The lifecycle codes are 0, 1 and 2 (R22). -/
theorem lifeCode_lt_three (l : Life) : lifeCode l < 3 := by
  cases l <;> decide

/-- The fields of STATUS do not overflow the word, nor each other. -/
theorem statusWord_toNat (s : State) : (statusWord s).toNat = lifeCode s.life + 4 * s.polarValid.toNat := by
  have hlife := lifeCode_lt_three s.life
  have hvalid := Bool.toNat_le s.polarValid
  rw [statusWord, BitVec.toNat_ofNat, Nat.mod_eq_of_lt (by omega)]

theorem statusWord_life (s : State) : bitsOf (statusWord s) 1 0 = lifeCode s.life := by
  have hlife := lifeCode_lt_three s.life
  rw [bitsOf, BitVec.extractLsb_toNat, statusWord_toNat, Nat.shiftRight_zero]
  omega

theorem statusWord_polarValid (s : State) : (statusWord s).getLsbD 2 = s.polarValid := by
  have hlife := lifeCode_lt_three s.life
  have hbit : (lifeCode s.life + 4 * s.polarValid.toNat) / 2 ^ 2 = s.polarValid.toNat := by omega
  rw [BitVec.getLsbD, statusWord_toNat, Nat.testBit_eq_decide_div_mod_eq, hbit]
  cases s.polarValid <;> rfl

theorem statusWord_reserved (s : State) : bitsOf (statusWord s) 31 3 = 0 := by
  have hlife := lifeCode_lt_three s.life
  have hvalid := Bool.toNat_le s.polarValid
  rw [bitsOf, BitVec.extractLsb_toNat, statusWord_toNat, Nat.shiftRight_eq_div_pow]
  omega

/-- Settles O12, field by field: the code of the lifecycle state is below 3, so it neither reads as 3 nor reaches the bit
of the Polar context, and the two together stay below 8. -/
theorem statusShowsLifeAndPolarValid : Obligations.StatusShowsLifeAndPolarValid := by
  intro s
  rw [csrRead_status, statusWord_life]
  refine ⟨?_, (lifeCode_lt_three s.life).ne, statusWord_polarValid s, statusWord_reserved s⟩
  cases s.life <;> rfl

end Sys2Proof.Machine
end

section
/-! Host transactions to elements that do not exist (spec R66). -/

namespace Sys2Proof.Machine

/-- No element stands at (space, index): the id names no space, or the index is at or above the space's element count
(R30, R66). -/
def MissingElement (c : Config) (space : BitVec 4) (index : BitVec 16) : Prop :=
  ∀ sp, spaceOf space = some sp → elementCount c sp ≤ index.toNat

section
variable {c : Config} {space : BitVec 4} {index : BitVec 16}

/-- A write where there is no element is ignored (R66). -/
theorem hostWrite_missing (run : Instr → State → Result) (data : Word) (s : State)
    (hmissing : MissingElement c space index) : hostWrite c run space index data s = .next s := by
  unfold hostWrite
  cases hsp : spaceOf space with
  | none => rfl
  | some sp => exact if_neg (Nat.not_lt.mpr (hmissing sp hsp))

/-- A read where there is no element gives 0, and no arbitrary value is drawn for it (R66). -/
theorem hostRead_missing (s : State) (hmissing : MissingElement c space index) :
    hostRead c space index s = (s, 0) := by
  unfold hostRead
  cases hsp : spaceOf space with
  | none => rfl
  | some sp => exact if_neg (Nat.not_lt.mpr (hmissing sp hsp))

theorem readAct_missing (present : Word → HostData) (s : State) (hmissing : MissingElement c space index) :
    readAct c space index present s = { s with seen := present 0 :: s.seen } := by
  rw [readAct, hostRead_missing s hmissing]

/-! Where no element stands: the ids without a space, and each space's element count (R23, R30). -/

theorem missingElement_of_no_space (hspace : spaceOf space = none) : MissingElement c space index := by
  intro sp hsp
  simp [hspace] at hsp

theorem missingElement_of_count {n : Nat} (hcount : (spaceOf space).map (elementCount c) = some n)
    (hindex : n ≤ index.toNat) : MissingElement c space index := by
  intro sp hsp
  rw [hsp, Option.map_some, Option.some_inj] at hcount
  exact hcount ▸ hindex

theorem spaceOf_eq_none (hid : space ∈ [6, 7, 12, 13, 14, 15]) : spaceOf space = none := by
  revert space
  decide

/-- The capacity of VAL_ACK, VAL_CSI1 and bit_sequence (R30). -/
theorem elementCount_aMax (hid : space ∈ [1, 2, 8]) : (spaceOf space).map (elementCount c) = some c.aMax := by
  simp only [List.mem_cons, List.not_mem_nil, or_false] at hid
  rcases hid with rfl | rfl | rfl <;> rfl

/-- The capacity of COD and LLR (R30). -/
theorem elementCount_eMax (hid : space ∈ [4, 5]) : (spaceOf space).map (elementCount c) = some c.eMax := by
  simp only [List.mem_cons, List.not_mem_nil, or_false] at hid
  rcases hid with rfl | rfl <;> rfl

/-- The capacity of allocated and d (R30). -/
theorem elementCount_nMax (hid : space ∈ [10, 11]) : (spaceOf space).map (elementCount c) = some c.nMax := by
  simp only [List.mem_cons, List.not_mem_nil, or_false] at hid
  rcases hid with rfl | rfl <;> rfl

end

/-- Settles O10: every clause of the premise says that no element stands at (space, index), whatever the counts are; there
a write leaves the state HOST's act was taken from, and a read gives 0. -/
theorem missingElementsAreInert : Obligations.MissingElementsAreInert := by
  intro s rest space index data hclauses
  have hmissing : MissingElement config space index := by
    rcases hclauses with hid | ⟨rfl, hcsr⟩ | ⟨hid, haMax⟩ | ⟨rfl, hmisc⟩ | ⟨hid, heMax⟩ | ⟨rfl, hc⟩ | ⟨hid, hnMax⟩
    · exact missingElement_of_no_space (spaceOf_eq_none hid)
    · exact missingElement_of_count rfl hcsr
    · exact missingElement_of_count (elementCount_aMax hid) haMax
    · exact missingElement_of_count rfl hmisc
    · exact missingElement_of_count (elementCount_eMax hid) heMax
    · exact missingElement_of_count rfl hc
    · exact missingElement_of_count (elementCount_nMax hid) hnMax
  constructor
  · intro hhost
    rw [step_act s _ rest hhost]
    exact hostWrite_missing exec data _ hmissing
  · intro hhost
    rw [ReadGives, step_act s _ rest hhost]
    exact congrArg Host.Outcome.next (readAct_missing .word _ hmissing)

end Sys2Proof.Machine
end

section
/-! The frame decoder against the frame table (spec R93 to R100): the decoder takes a field by its lowest bit and its length,
the table by its highest and its lowest bit. -/

namespace Sys2Proof.Machine

/-! The operand words' fields. -/

theorem uciCfgOf_eq_fields (w : Word) : uciCfgOf w = uciCfgFields w := by
  simp only [uciCfgOf, uciCfgFields, slice_eq_bitsOf, sliceBit_eq, Nat.reduceAdd]

theorem pucchResOf_eq_fields (w : Word) : pucchResOf w = pucchResFields w := by
  simp only [pucchResOf, pucchResFields, slice_eq_bitsOf, Nat.reduceAdd]

theorem puschCfgOf_eq_fields (w1 w2 w3 w4 : Word) : puschCfgOf w1 w2 w3 w4 = puschCfgFields w1 w2 w3 w4 := by
  simp only [puschCfgOf, puschCfgFields, slice_eq_bitsOf, sliceBit_eq, Nat.reduceAdd]

/-! One row of the table. -/

/-- The answer of a row of the frame table: illegal where a reserved bit is set, else the row's command. -/
structure FollowsRow (reserved : Prop) (r : Except DecodeError Instr) (i : Instr) : Prop where
  illegal : reserved → ∃ e, r = .error e
  legal : ¬ reserved → r = .ok i

section
variable {p q : Prop} [Decidable p] {r : Except DecodeError Instr} {i : Instr} {e : DecodeError}

/-- A row with one reserved slice. -/
theorem followsRow_check : FollowsRow p (if p then .error e else .ok i) i where
  illegal hp := ⟨e, if_pos hp⟩
  legal hp := if_neg hp

/-- A further reserved slice, checked before the others. -/
theorem FollowsRow.check_first (hrow : FollowsRow q r i) : FollowsRow (p ∨ q) (if p then .error e else r) i where
  illegal hpq := by
    by_cases hp : p
    · exact ⟨e, if_pos hp⟩
    · rw [if_neg hp]
      exact hrow.illegal (hpq.resolve_left hp)
  legal hpq := by
    obtain ⟨hp, hq⟩ := not_or.mp hpq
    rw [if_neg hp]
    exact hrow.legal hq

/-- A frame whose decoding is a row's answer, as the table states it. -/
theorem FollowsRow.frame {h : Word} {a : Args} (hrow : FollowsRow p r i) (hdecode : decode ⟨h, a⟩ = r) :
    if p then IllegalFrame h a else decode ⟨h, a⟩ = .ok i := by
  subst hdecode
  split
  · exact hrow.illegal ‹p›
  · exact hrow.legal ‹¬ p›

end

/-! The operand formats: each checks its reserved slices in turn, and one that is set is enough (R93). -/

theorem decodeC_followsRow (a : Args) :
    FollowsRow (bitsOf a.a0 31 12 ≠ 0) (decodeC a) (.setCarrier (bitsOf a.a0 2 0) (bitsOf a.a0 11 3)) := by
  simp only [decodeC, slice_eq_bitsOf, Nat.reduceAdd]
  exact followsRow_check

theorem decodeP_followsRow (mk : UciCfg → PucchRes → Instr) (a : Args) :
    FollowsRow (reservedP a) (decodeP mk a) (mk (uciCfgFields a.a0) (pucchResFields a.a1)) := by
  simp only [decodeP, uciCfgOf_eq_fields, pucchResOf_eq_fields, slice_eq_bitsOf, Nat.reduceAdd]
  exact followsRow_check.check_first

theorem decodeS_followsRow (mk : UciCfg → PuschCfg → Instr) (a : Args) :
    FollowsRow (reservedS a) (decodeS mk a) (mk (uciCfgFields a.a0) (puschCfgFields a.a1 a.a2 a.a3 a.a4)) := by
  simp only [decodeS, uciCfgOf_eq_fields, puschCfgOf_eq_fields, slice_eq_bitsOf, Nat.reduceAdd]
  exact followsRow_check.check_first.check_first.check_first

theorem decodeU_followsRow (a : Args) :
    FollowsRow (bitsOf a.a0 31 23 ≠ 0) (decodeU a) (.qTotal (uciCfgFields a.a0)) := by
  simp only [decodeU, uciCfgOf_eq_fields, slice_eq_bitsOf, Nat.reduceAdd]
  exact followsRow_check

theorem decodeR_followsRow (a : Args) :
    FollowsRow (bitsOf a.a1 31 17 ≠ 0) (decodeR a) (.qPucchE (pucchResFields a.a1)) := by
  simp only [decodeR, pucchResOf_eq_fields, slice_eq_bitsOf, Nat.reduceAdd]
  exact followsRow_check

/-- A header outside 0 to 15 is illegal, whatever the operand words (R91). -/
theorem illegalFrame_of_reservedHeader (h : Word) (a : Args) (hh : bitsOf h 31 4 ≠ 0) : IllegalFrame h a := by
  rw [← slice_eq_bitsOf h 4 27] at hh
  exact ⟨_, decode_reservedHeader h a hh⟩

/-- Settles O2, header by header: the decoder hands a header's operand words to its format, and each format answers by the
table's row. -/
theorem decodeFollowsTheFrameTable : Obligations.DecodeFollowsTheFrameTable := by
  intro h a
  refine ⟨illegalFrame_of_reservedHeader h a, ?_, ?_, ?_, ?_, ?_, ?_, ?_, ?_, ?_, ?_, ?_, ?_, ?_, ?_, ?_, ?_⟩ <;> rintro rfl
  · exact ⟨_, decode_header0 a⟩
  · exact decode_header1 a
  · exact decode_header2 a
  · exact (decodeC_followsRow a).frame (decode_header3 a)
  · exact (decodeP_followsRow .encPucch a).frame (decode_header4 a)
  · exact (decodeP_followsRow .decPucch a).frame (decode_header5 a)
  · exact (decodeS_followsRow .encPuschAck a).frame (decode_header6 a)
  · exact (decodeS_followsRow .decPuschAck a).frame (decode_header7 a)
  · exact (decodeS_followsRow .encPuschCsi1 a).frame (decode_header8 a)
  · exact (decodeS_followsRow .decPuschCsi1 a).frame (decode_header9 a)
  · exact (decodeU_followsRow a).frame (decode_header10 a)
  · exact decode_header11 a
  · exact (decodeR_followsRow a).frame (decode_header12 a)
  · exact (decodeS_followsRow .qPuschAckE a).frame (decode_header13 a)
  · exact (decodeS_followsRow .qPuschCsi1E a).frame (decode_header14 a)
  · exact ⟨_, decode_header15 a⟩

end Sys2Proof.Machine
end

section
/-! The bit budget: the two length functions of PUSCH, and the queries of the sum and of the CRC length (spec R121, R125,
R126, R131, R132). -/

namespace Sys2Proof.Machine

/-! The gate of the PUSCH lengths. -/

/-- The model's check of a PUSCH configuration is the spec's list of field ranges (R126). -/
theorem puschLegal_iff (p : PuschCfg) : puschLegal p = true ↔ LegalPuschFields p := by
  simp [puschLegal, and_assoc]

/-- The gate passes a value on exactly when the fields are legal and the value is positive and within the allocation, as
the obligations write it (R126). -/
theorem puschGate_ok_iff (c : Config) (p : PuschCfg) (len : Int) (E : Nat) :
    puschGate c p len = .ok E ↔ LegalPuschFields p ∧ 0 < E ∧ len = E ∧ (E : Int) ≤ c.puschAlloc p := by
  rw [puschGate_eq_ok, puschLegal_iff]
  constructor <;>
  · rintro ⟨hlegal, hpos, rfl, halloc⟩
    exact ⟨hlegal, hpos, rfl, halloc⟩

/-- Settles O35: each length function is the gate at its own formula, so what the gate passes and its only error are those
of both. -/
theorem puschLengthsPassTheTwoSidedGate : Obligations.PuschLengthsPassTheTwoSidedGate := by
  intro c p cfg O E
  exact ⟨puschGate_ok_iff c p (c.puschAckE p O) E, puschGate_ok_iff c p (c.puschCsi1E p cfg.oCsi1 cfg.oAck) E,
    puschGate_error c p _, puschGate_error c p _⟩

/-! The queries of the bit budget. -/

/-- A query that succeeds responds OK with its CRC length and its two results, and changes nothing else (R137). -/
theorem respondQuery_eq {L : Nat} (hL : L < 16) (r1 r2 : Nat) (s : State) :
    respondQuery L r1 r2 s =
      { s with resp := respOf s 0 1 0 L (BitVec.ofNat 32 r1) (BitVec.ofNat 32 r2) 0 0 } :=
  respond_eq .ok true none L _ _ 0 0 s hL

/-- The whole answer of Q_TOTAL (R131). -/
theorem exec_qTotal (cfg : UciCfg) (s : State) :
    exec (.qTotal cfg) s = .next { s with resp := respOf s 0 1 0 0 (BitVec.ofNat 32 (totalUciBits cfg)) 0 0 0 } := by
  have hmeaning : exec (.qTotal cfg) s = qTotalIn cfg s := rfl
  rw [hmeaning, qTotalIn_eq, respondQuery_eq (by decide)]
  rfl

/-- The whole answer of Q_CRCLEN: the CRC length stands in RESP0 and in RESP1 (R132). -/
theorem exec_qCrcLen (a : Nat) (s : State) :
    exec (.qCrcLen a) s = .next { s with
      resp := respOf s 0 1 0 (crcLength a) (BitVec.ofNat 32 (crcLength a)) (BitVec.ofNat 32 a) 0 0 } := by
  have hmeaning : exec (.qCrcLen a) s = qCrcLenIn a s := rfl
  rw [hmeaning, qCrcLenIn_eq, respondQuery_eq (crcLength_lt a)]

/-- Two fields of eleven bits and a flag sum to at most 2047 + 2047 + 1 (R121). -/
theorem totalUciBits_le (cfg : UciCfg) (hwf : cfg.WellFormed) : totalUciBits cfg ≤ 4095 := by
  obtain ⟨hack, hcsi1⟩ := hwf
  unfold totalUciBits
  split <;> omega

/-- Settles O29: the answer is the model's sum of the three fields, and a frame's fields bound it. -/
theorem qTotalRespondsWithTheSum : Obligations.QTotalRespondsWithTheSum :=
  fun s cfg => ⟨exec_qTotal cfg s, totalUciBits_le cfg⟩

/-- Settles O30: the answer carries the CRC length of the payload, taken in each of the three ranges of R125. -/
theorem qCrcLenRespondsWithTheCrcLength : Obligations.QCrcLenRespondsWithTheCrcLength := by
  intro s a
  rw [exec_qCrcLen]
  refine ⟨fun hsmall => ?_, fun hlow hhigh => ?_, fun hlarge => ?_⟩
  · rw [crcLength_small hsmall]
    rfl
  · rw [crcLength_mid hlow hhigh]
    rfl
  · rw [crcLength_large hlarge]
    rfl

end Sys2Proof.Machine
end

section
/-! The small-block codec: the three encoders bit by bit, and the decision unit's sums written over the positions, as the
spec's formulas write them (spec R167 to R184). -/

namespace Sys2Proof.Machine

/-! The encoders, bit by bit. -/

theorem enc1_getElem? (c : Config) (a0 : Bool) {E k : Nat} (hk : k < E) : (enc1 c a0 E)[k]? = some (c.seq1 a0 k) := by
  simp [enc1, hk]

/-- With the default table the sequence of a bit is the bit repeated (R167). -/
theorem enc1_default (a0 : Bool) (E : Nat) : enc1 config a0 E = List.replicate E a0 := by
  have hconst : enc1 config a0 E = (List.range E).map (fun _ => a0) := rfl
  rw [hconst, List.map_const', List.length_range]

theorem enc2_getElem? (c : Config) (a0 a1 : Bool) {E k : Nat} (hk : k < E) :
    (enc2 c a0 a1 E)[k]? = some (simplexBit c a0 a1 (k % 3)) := by
  simp [enc2, hk]

/-- The table of 32 bits is read at an index below 32, so never at its default (R171). -/
theorem encRM_getElem? (c : Config) (a : List Bool) {E k : Nat} (hk : k < E) :
    (encRM c a E)[k]? = some (rmBit c a (k % 32)) := by
  have hrow : k % 32 < 32 := Nat.mod_lt k (by decide)
  simp [encRM, hk, hrow]

/-- One more bit turns the parity of a count over exactly when it is counted. -/
theorem xor_parity (b : Bool) (m : Nat) : (b ^^ decide (m % 2 = 1)) = decide ((m + b.toNat) % 2 = 1) := by
  rcases Nat.mod_two_eq_zero_or_one m with hm | hm <;> cases b <;> simp [Nat.add_mod, hm]

/-- The exclusive-or from column n on is the parity of the number of payload bits that meet a set entry of their column. -/
theorem rmBitFrom_eq_parity (c : Config) (i : Nat) (a : List Bool) (n : Nat) :
    rmBitFrom c i n a =
      decide ((List.range a.length).countP (fun m => a.getD m false && c.rmBasis i (n + m)) % 2 = 1) := by
  induction a generalizing n with
  | nil => rfl
  | cons b bs ih =>
    have hstep : rmBitFrom c i n (b :: bs) = ((b && c.rmBasis i n) ^^ rmBitFrom c i (n + 1) bs) := rfl
    rw [hstep, ih, xor_parity, List.length_cons, List.range_succ_eq_map, List.countP_cons, List.countP_map]
    cases hb : (b && c.rmBasis i n) <;> simp [hb, Function.comp_def, Nat.add_assoc, Nat.add_comm 1]

theorem rmBit_eq_parity (c : Config) (a : List Bool) (i : Nat) :
    rmBit c a i = decide ((List.range a.length).countP (fun n => a.getD n false && c.rmBasis i n) % 2 = 1) := by
  rw [rmBit, rmBitFrom_eq_parity]
  simp only [Nat.zero_add]

/-- Settles O39, encoder by encoder: the entry point picks one by the payload's length, and each is read at position k. -/
theorem smallCodewordsFollowTheTables : Obligations.SmallCodewordsFollowTheTables := by
  refine ⟨fun c a0 E k hk => ?_, fun a0 E => ?_, fun c a0 a1 E k hk => ?_, fun c a E k hlen _ hk => ?_,
    smallEncode_length⟩
  · rw [smallEncode_one, enc1_getElem? c a0 hk]
  · rw [smallEncode_one, enc1_default]
  · rw [smallEncode_two, enc2_getElem? c a0 a1 hk, simplexBit]
  · rw [smallEncode_rm c a E hlen, encRM_getElem? c a hk, rmBit_eq_parity]

/-! The decision unit's sums, over the positions 0 to E - 1. -/

/-- A list's values at its own positions are the list. -/
theorem map_getD_range {α : Type} (l : List α) (d : α) : (List.range l.length).map (fun k => l.getD k d) = l := by
  apply List.ext_getElem
  · simp
  · intro k _ hk
    simp [hk]

/-- den is the sum of the magnitudes at the positions (R181). -/
theorem magnitudeSum_eq_sum (llr : List Int) :
    magnitudeSum llr = ((List.range llr.length).map (fun k => (llr.getD k 0).natAbs)).sum := by
  have hmap : (List.range llr.length).map (fun k => (llr.getD k 0).natAbs) =
      ((List.range llr.length).map (fun k => llr.getD k 0)).map Int.natAbs := by
    rw [List.map_map]; rfl
  rw [hmap, map_getD_range, magnitudeSum]

/-- The correlation of a codeword with as many soft values is the sum over the positions (R177, R179). -/
theorem correlate_eq_sum (e : List Bool) (llr : List Int) (hlen : e.length = llr.length) :
    correlate e llr = ((List.range llr.length).map (fun k => pm (e.getD k false) * llr.getD k 0)).sum := by
  induction e generalizing llr with
  | nil =>
    obtain rfl := List.length_eq_zero_iff.mp hlen.symm
    rfl
  | cons b e ih =>
    cases llr with
    | nil => exact absurd hlen (by simp)
    | cons v llr =>
      have hstep : correlate (b :: e) (v :: llr) = pm b * v + correlate e llr := rfl
      rw [hstep, ih llr (Nat.succ.inj hlen), List.length_cons, List.range_succ_eq_map, List.map_cons, List.sum_cons,
        List.map_map]
      rfl

/-- corr(g) as the spec writes it (R179). -/
theorem corr_eq_sum (c : Config) (A : Nat) (llr : List Int) (g : Nat) :
    corr c A llr llr.length g = ((List.range llr.length).map
      (fun k => pm ((smallEncode c (cand A g) llr.length).getD k false) * llr.getD k 0)).sum :=
  correlate_eq_sum _ llr (smallEncode_length c _ _)

/-- T1 as the spec writes it: the sign at k is that of the sequence of the bit 1 (R177). -/
theorem oneBitStat_eq_sum (c : Config) (llr : List Int) :
    oneBitStat c llr llr.length = ((List.range llr.length).map (fun k => pm (c.seq1 true k) * llr.getD k 0)).sum := by
  rw [oneBitStat, correlate_eq_sum _ llr (enc1_length c true _)]
  refine congrArg List.sum (List.map_congr_left fun k hk => ?_)
  rw [List.getD_eq_getElem?_getD, enc1_getElem? c true (List.mem_range.mp hk), Option.getD_some]

/-! The decisions. -/

/-- Settles O40: the two sums are the spec's, and the record's choice picks which of the two strict comparisons decides. -/
theorem oneBitDecisionComparesTheSum : Obligations.OneBitDecisionComparesTheSum := by
  rintro c llr E thr1 thrb rfl T1 den above
  have hT1 : oneBitStat c llr llr.length = T1 := oneBitStat_eq_sum c llr
  have hden : magnitudeSum llr = den := magnitudeSum_eq_sum llr
  have habove : (if c.oneBitAvg then decide (thr1 * llr.length < T1) else decide (thr1 < T1)) = decide above := by
    by_cases havg : c.oneBitAvg = true <;> simp [above, havg]
  rw [smallDecode_one, dec1, hT1, hden, habove]

theorem accepts_iff (num : Int) (den : Nat) (thrb : Int) : accepts num den thrb = true ↔ num * 32768 > thrb * den := by
  simp [accepts]

/-- Settles O41: the scan's candidate, with the correlation and the magnitude sum written over the positions; the
acceptance test alone decides between the two results. -/
theorem blockDecisionTakesTheLowestBestCandidate : Obligations.BlockDecisionTakesTheLowestBestCandidate := by
  rintro c A llr E thr1 thrb hA - rfl payload corrOf den
  have hcorr : corr c A llr llr.length = corrOf := funext (corr_eq_sum c A llr)
  have hden : magnitudeSum llr = den := magnitudeSum_eq_sum llr
  obtain ⟨best, hbest, hmax, hlowest, hresult⟩ := smallDecode_block c A llr llr.length thr1 thrb (by omega)
  rw [hcorr] at hmax hlowest hresult
  rw [hden] at hresult
  refine ⟨best, hbest, hmax, hlowest, fun haccept => ?_, fun hreject => ?_⟩
  · rw [hresult, (accepts_iff _ _ _).mpr haccept]
    rfl
  · rw [hresult, Bool.eq_false_iff.mpr (mt (accepts_iff _ _ _).mp hreject)]
    rfl

end Sys2Proof.Machine
end

section
/-! The Polar context: what a validated coding makes of it, and that no other end of a codec command, a rejection or a
query writes it (spec R213). -/

namespace Sys2Proof.Machine

/-! Response words: a completion is not a rejection, and its path field is the path of its coding (R28, R284). -/

theorem pathCode_lt_eight (p : Option Path) : pathCode p < 8 := by
  cases p with
  | none => decide
  | some p => cases p <;> decide

theorem pathCode_eq_four_iff (p : Path) : pathCode (some p) = 4 ↔ p = .polar := by
  cases p <;> decide

/-- OK, CrcMismatch and LowConfidence are not rejections (R280). -/
theorem not_rejected_respOf (s : State) {err rel path L : Nat} (r1 r2 r3 r4 : Word)
    (herr : err = 0 ∨ err = 3 ∨ err = 4) (hrel : rel < 2) (hpath : path < 8) (hL : L < 16) :
    ¬ rejected (respOf s err rel path L r1 r2 r3 r4) := by
  obtain ⟨herrField, -⟩ := respOf_fields s err rel path L r1 r2 r3 r4 (by omega) hrel hpath hL
  rw [rejected, herrField]
  rcases herr with rfl | rfl | rfl <;> decide

theorem not_rejected_respondOk (s : State) : ¬ rejected (respondOk s).resp := by
  rw [respondOk_eq]
  exact not_rejected_respOf s 0 0 0 0 (.inl rfl) (by decide) (by decide) (by decide)

/-- A rejection reports no path (R283). -/
theorem pathField_raise (e : ErrKind) (s : State) : pathField (raise e s).resp.r0 = 0 := by
  have hcode : e.code < 16 := by cases e <;> decide
  rw [raise_eq]
  obtain ⟨-, -, hpath, -⟩ := respOf_fields s e.code 0 0 0 0 0 0 0 hcode (by decide) (by decide) (by decide)
  exact hpath

/-- A response with the error code of a completion and the path of a coding, as an encode and a decode write it. -/
structure CompletedOn (coding : Coding) (r : Resp) : Prop where
  not_rejected : ¬ rejected r
  path : pathField r.r0 = pathCode (some (codingPath coding))

theorem completedOn_respOf (s : State) (coding : Coding) {err rel L : Nat} (r1 r2 r3 r4 : Word)
    (herr : err = 0 ∨ err = 3 ∨ err = 4) (hrel : rel < 2) (hL : L < 16) :
    CompletedOn coding (respOf s err rel (pathCode (some (codingPath coding))) L r1 r2 r3 r4) where
  not_rejected := not_rejected_respOf s r1 r2 r3 r4 herr hrel (pathCode_lt_eight _) hL
  path := by
    obtain ⟨-, -, hpath, -⟩ := respOf_fields s err rel _ L r1 r2 r3 r4 (by omega) hrel
      (pathCode_lt_eight (some (codingPath coding))) hL
    exact hpath

section
variable {c : Config} {cfg : UciCfg} {ch : Chan} {s : State} {plan : Plan}

theorem finishEncode_completedOn (hvalid : validate c s cfg ch = .ok plan) (a : List Bool) :
    CompletedOn plan.coding (finishEncode c plan a s).resp := by
  obtain ⟨-, -, hL, -⟩ := validate_plan c s cfg ch plan hvalid
  obtain ⟨m, v, k, e, n, heq⟩ := finishEncode_response c plan a s hL
  rw [heq]
  exact completedOn_respOf s plan.coding _ _ _ _ (.inl rfl) (by decide) hL

theorem finishDecode_completedOn (hvalid : validate c s cfg ch = .ok plan) (llr : List Int) :
    CompletedOn plan.coding (finishDecode c cfg ch plan llr s).resp := by
  obtain ⟨-, -, hL, -⟩ := validate_plan c s cfg ch plan hvalid
  obtain ⟨err, rel, r3, r4, m, v, k, e, n, hfields, heq⟩ := finishDecode_response c cfg ch plan llr s hL
  rw [heq]
  have herr : err = 0 ∨ err = 3 ∨ err = 4 := hfields.imp And.left (Or.imp And.left And.left)
  have hrel : rel < 2 := by
    rcases hfields with ⟨-, rfl⟩ | ⟨-, rfl, -⟩ | ⟨-, rfl, -⟩ <;> decide
  exact completedOn_respOf s plan.coding _ _ r3 r4 herr hrel hL

end

/-! What a coding makes of the Polar context. -/

/-- The state whose Polar context a validated coding leaves: its code's on the Polar path, the old one else (R213). -/
def withCodingContext : Coding → State → State
  | .small _, s => s
  | .polar code, s => setPolar code s

theorem finishEncode_polarSame (c : Config) (plan : Plan) (a : List Bool) (s : State) :
    polarSame (withCodingContext plan.coding s) (finishEncode c plan a s) := by
  cases hcoding : plan.coding with
  | small p =>
    rw [finishEncode_small c plan a s p hcoding]
    exact ⟨rfl, rfl, rfl, rfl⟩
  | polar code =>
    rw [finishEncode_polar c plan a s code hcoding]
    exact ⟨rfl, rfl, rfl, rfl⟩

theorem finishDecode_polarSame (c : Config) (cfg : UciCfg) (ch : Chan) (plan : Plan) (llr : List Int) (s : State) :
    polarSame (withCodingContext plan.coding s) (finishDecode c cfg ch plan llr s) := by
  cases hcoding : plan.coding with
  | small p =>
    rw [finishDecode_small c cfg ch plan llr s p hcoding]
    exact ⟨rfl, rfl, rfl, rfl⟩
  | polar code =>
    rw [finishDecode_polar c cfg ch plan llr s code hcoding]
    exact ⟨rfl, rfl, rfl, rfl⟩

/-- A chosen coding is a small-block path, never named POLAR, or a code that Construct gives (R243). -/
theorem chooseCoding_small_or_polar {c : Config} {A E : Nat} {coding : Coding}
    (hchosen : chooseCoding c A E = .ok coding) :
    (∃ p, p ≠ .polar ∧ coding = .small p) ∨
    ∃ code, coding = .polar code ∧ c.polar.construct (A + crcLength A) E = some code := by
  rcases chooseCoding_eq_ok c A E coding hchosen with
    ⟨-, rfl⟩ | ⟨-, rfl⟩ | ⟨-, -, rfl⟩ | ⟨-, code, rfl, hconstruct, -⟩
  · exact .inl ⟨.oneBit, by decide, rfl⟩
  · exact .inl ⟨.twoBit, by decide, rfl⟩
  · exact .inl ⟨.rm, by decide, rfl⟩
  · exact .inr ⟨code, rfl, hconstruct⟩

/-! The codec commands. -/

/-- The Polar context of `t` follows the path that `t` reports: on POLAR it is (K, E) and N of the command's own code, and
on any other path, or none, that of `s` (R213). -/
def PolarContextFollowsPath (c : Config) (cfg : UciCfg) (ch : Chan) (s t : State) : Prop :=
  (pathField t.resp.r0 = 4 →
    ∃ E code, codedLength c cfg ch = .ok E ∧
      c.polar.construct (payloadLength cfg ch + crcLength (payloadLength cfg ch)) E = some code ∧
      t.polarValid = true ∧ t.polarK = payloadLength cfg ch + crcLength (payloadLength cfg ch) ∧ t.polarE = E ∧
      t.polarN = code.N) ∧
  (pathField t.resp.r0 ≠ 4 → polarSame s t)

section
variable {c : Config} {cfg : UciCfg} {ch : Chan} {s t : State}

theorem polarContextFollowsPath_raise (e : ErrKind) : PolarContextFollowsPath c cfg ch s (raise e s) where
  left hpath := by
    rw [pathField_raise] at hpath
    cases hpath
  right _ := ⟨rfl, rfl, rfl, rfl⟩

/-- A command that completes on a validated plan's path and leaves the context of the plan's coding: the engine's shape
makes the code's K and E those of the plan (R211). -/
theorem polarContextFollowsPath_completed {plan : Plan} (hshaped : PolarShaped c.polar c.llrW c.softW)
    (hvalid : validate c s cfg ch = .ok plan) (hcompleted : CompletedOn plan.coding t.resp)
    (hcontext : polarSame (withCodingContext plan.coding s) t) : PolarContextFollowsPath c cfg ch s t := by
  obtain ⟨hE, -, hA, -, -, hchosen, -⟩ := (validate_eq_ok _ _ _ _ _).mp hvalid
  have hpath : pathField t.resp.r0 = 4 ↔ codingPath plan.coding = .polar := by
    rw [hcompleted.path, pathCode_eq_four_iff]
  rcases chooseCoding_small_or_polar hchosen with ⟨p, hp, hcoding⟩ | ⟨code, hcoding, hconstruct⟩ <;>
    rw [hcoding] at hpath hcontext
  · exact ⟨fun hpolar => absurd (hpath.mp hpolar) hp, fun _ => hcontext⟩
  · obtain ⟨hK, hcodeE, -⟩ := hshaped.construct_shape _ _ _ hconstruct
    obtain ⟨hV, htK, htE, htN⟩ := hcontext
    rw [hA] at hconstruct hK
    exact ⟨fun _ => ⟨plan.E, code, hE, hconstruct, hV, htK.trans hK, htE.trans hcodeE, htN⟩,
      fun hother => absurd (hpath.mpr rfl) hother⟩

theorem polarContextFollowsPath_encode (hshaped : PolarShaped c.polar c.llrW c.softW)
    (hrun : execIn c (encodeInstr cfg ch) s = .next t) : PolarContextFollowsPath c cfg ch s t := by
  rw [execIn_encodeInstr] at hrun
  rcases codecEncode_cases c cfg ch s with
    ⟨-, hend⟩ | ⟨-, e, -, hend⟩ | ⟨-, plan, r, -, -, hend⟩ | ⟨-, plan, a, hvalid, -, hend⟩ <;>
    cases hend.symm.trans hrun
  · exact polarContextFollowsPath_raise .sequence
  · exact polarContextFollowsPath_raise e
  · exact polarContextFollowsPath_completed hshaped hvalid (finishEncode_completedOn hvalid a)
      (finishEncode_polarSame c plan a s)

theorem polarContextFollowsPath_decode (hshaped : PolarShaped c.polar c.llrW c.softW)
    (hrun : execIn c (decodeInstr cfg ch) s = .next t) : PolarContextFollowsPath c cfg ch s t := by
  rw [execIn_decodeInstr] at hrun
  rcases codecDecode_cases c cfg ch s with
    ⟨-, hend⟩ | ⟨-, e, -, hend⟩ | ⟨-, plan, -, -, hend⟩ | ⟨-, plan, llr, hvalid, -, -, hend⟩ <;>
    cases hend.symm.trans hrun
  · exact polarContextFollowsPath_raise .sequence
  · exact polarContextFollowsPath_raise e
  · exact polarContextFollowsPath_completed hshaped hvalid (finishDecode_completedOn hvalid llr)
      (finishDecode_polarSame c cfg ch plan llr s)

end

/-! Rejections, INIT and the queries. -/

/-- A command that answers with a rejection wrote RESP alone: of all the ends of a command, only that one reports such a
code (R284, R235). -/
theorem execIn_rejected_frame {c : Config} {i : Instr} {s t : State} (hrun : execIn c i s = .next t)
    (hrejected : rejected t.resp) : t = { s with resp := t.resp } := by
  have hend := execIn_commandEnd c i s
  rw [hrun] at hend
  cases hend with
  | rejection => rfl
  | inited => exact absurd hrejected (not_rejected_respondOk _)
  | freed => exact absurd hrejected (not_rejected_respondOk _)
  | carrierSet => exact absurd hrejected (not_rejected_respondOk _)
  | queried L r1 r2 hL =>
    exact absurd hrejected (not_rejected_respOf s r1 r2 0 0 (.inl rfl) (by decide) (by decide) (by omega))
  | encoded cfg ch plan a _ _ hvalid => exact absurd hrejected (finishEncode_completedOn hvalid a).not_rejected
  | decoded cfg ch plan llr _ _ hvalid => exact absurd hrejected (finishDecode_completedOn hvalid llr).not_rejected

theorem polarSame_of_resp_only {s t : State} (h : t = { s with resp := t.resp }) : polarSame s t := by
  rw [h]
  exact ⟨rfl, rfl, rfl, rfl⟩

theorem respondLength_polarSame (E : Except ErrKind Nat) (r2 : Nat) (s : State) :
    polarSame s (respondLength E r2 s) := by
  obtain ⟨r, heq⟩ := respondLength_eq E r2 s
  rw [heq]
  exact ⟨rfl, rfl, rfl, rfl⟩

/-- INIT drops the scratch spaces and leaves the Polar context (R238). -/
theorem initIn_polarSame {c : Config} {thr1 thrb : Word} {s t : State} (hrun : initIn c thr1 thrb s = .next t) :
    polarSame s t := by
  rcases initIn_cases c thr1 thrb s with ⟨-, hend⟩ | ⟨-, hend⟩ <;> cases hend.symm.trans hrun
  · exact ⟨rfl, rfl, rfl, rfl⟩
  · exact ⟨rfl, rfl, rfl, rfl⟩

/-- Settles O53: a codec command ends in a rejection or completes on the path of its validated coding, whose context it
leaves; a rejection and a query write RESP alone, and INIT does not write the Polar context. -/
theorem polarContextFollowsThePolarPath : Obligations.PolarContextFollowsThePolarPath := by
  constructor
  · rintro c cfg ch i s t hshaped (rfl | rfl) hrun
    · exact polarContextFollowsPath_encode hshaped hrun
    · exact polarContextFollowsPath_decode hshaped hrun
  · rintro c i s t hrun
      (hrejected | ⟨thr1, thrb, rfl⟩ | ⟨cfg, rfl⟩ | ⟨a, rfl⟩ | ⟨res, rfl⟩ | ⟨cfg, p, rfl⟩ | ⟨cfg, p, rfl⟩)
    · exact polarSame_of_resp_only (execIn_rejected_frame hrun hrejected)
    · exact initIn_polarSame hrun
    · cases (qTotalIn_eq cfg s).symm.trans hrun
      exact ⟨rfl, rfl, rfl, rfl⟩
    · cases (qCrcLenIn_eq a s).symm.trans hrun
      exact ⟨rfl, rfl, rfl, rfl⟩
    · cases (qPucchEIn_eq c res s).symm.trans hrun
      exact respondLength_polarSame _ _ s
    · cases (qPuschAckEIn_eq c cfg p s).symm.trans hrun
      exact respondLength_polarSame _ _ s
    · cases (qPuschCsi1EIn_eq c cfg p s).symm.trans hrun
      exact respondLength_polarSame _ _ s

end Sys2Proof.Machine
end

section
/-! The session commands: the path of a payload length, which ends of a command its acceptance allows, and what each end
makes of the lifecycle state (spec R236, R237, R243). -/

namespace Sys2Proof.Machine

/-! The path. -/

theorem codePath_rm {A : Nat} (hlow : 3 ≤ A) (hhigh : A ≤ 11) : codePath A = some .rm := by
  rw [codePath, if_neg (by omega), if_neg (by omega), if_neg (by omega), if_pos hhigh]

theorem codePath_polar {A : Nat} (hlow : 12 ≤ A) : codePath A = some .polar := by
  rw [codePath, if_neg (by omega), if_neg (by omega), if_neg (by omega), if_neg (by omega)]

/-- Settles O36: the lengths 0, 1 and 2 by computation, the two ranges by their lemmas. -/
theorem pathFollowsThePayloadLength : Obligations.PathFollowsThePayloadLength := by
  intro A
  refine ⟨?_, ?_, ?_, codePath_rm, codePath_polar⟩
  · rintro rfl
    rfl
  · rintro rfl
    rfl
  · rintro rfl
    rfl

/-! The error field of an end. -/

/-- OK alone has the error code 0 (R280). -/
theorem errKind_code_eq_zero_iff (e : ErrKind) : e.code = 0 ↔ e = .ok := by
  cases e <;> decide

/-- Sequence alone has the error code 5 (R280). -/
theorem errKind_code_eq_five_iff (e : ErrKind) : e.code = 5 ↔ e = .sequence := by
  cases e <;> decide

/-- A rejection's response reports the code of its error kind (R283). -/
theorem errField_rejection (e : ErrKind) (s : State) : errField (respOf s e.code 0 0 0 0 0 0 0).r0 = e.code := by
  have hcode : e.code < 16 := by cases e <;> decide
  exact (respOf_fields s e.code 0 0 0 0 0 0 0 hcode (by decide) (by decide) (by decide)).1

theorem completedOk_respondOk (s : State) : completedOk (respondOk s).resp := by
  rw [respondOk_eq]
  exact (respOf_fields s 0 1 0 0 0 0 0 0 (by decide) (by decide) (by decide) (by decide)).1

/-- Sequence is a rejection, so an end that is none reports another code (R280, R284). -/
theorem next_ne_sequence_of_not_rejected {u : State} (h : ¬ rejected u.resp) :
    ∀ t, (.next u : Result) = .next t → errField t.resp.r0 ≠ 5 := by
  rintro t ⟨⟩ hfive
  exact h (by rw [rejected, hfive]; decide)

/-! Acceptance. -/

theorem acceptedIn_encodeInstr (cfg : UciCfg) (ch : Chan) : acceptedIn (encodeInstr cfg ch) .ready = true := by
  cases ch <;> rfl

theorem acceptedIn_decodeInstr (cfg : UciCfg) (ch : Chan) : acceptedIn (decodeInstr cfg ch) .ready = true := by
  cases ch <;> rfl

/-- The ends of a command by the acceptance table: it is turned away with Sequence, or it is accepted and answers no
Sequence (R237). -/
theorem CommandEnd.sequence_or_accepted {c : Config} {i : Instr} {s : State} {r : Result} (hend : CommandEnd c i s r) :
    (acceptedIn i s.life = false ∧ r = .next { s with resp := respOf s 5 0 0 0 0 0 0 0 }) ∨
    (acceptedIn i s.life = true ∧ ∀ t, r = .next t → errField t.resp.r0 ≠ 5) := by
  cases hend with
  | rejection e _ _ ha =>
    by_cases he : e = .sequence
    · subst he
      exact .inl ⟨ha.mp rfl, rfl⟩
    · refine .inr ⟨by simpa using mt ha.mpr he, ?_⟩
      rintro t ⟨⟩
      rw [errField_rejection]
      exact mt (errKind_code_eq_five_iff e).mp he
  | inited thr1 thrb hi hl =>
    exact .inr ⟨by simp [hi, acceptedIn, hl], next_ne_sequence_of_not_rejected (not_rejected_respondOk _)⟩
  | freed hi hl =>
    exact .inr ⟨by simp [hi, acceptedIn, hl], next_ne_sequence_of_not_rejected (not_rejected_respondOk _)⟩
  | carrierSet mu nprb a e hi hl =>
    exact .inr ⟨by simp [hi, acceptedIn, hl], next_ne_sequence_of_not_rejected (not_rejected_respondOk _)⟩
  | queried L r1 r2 hL ha =>
    exact .inr ⟨ha _, next_ne_sequence_of_not_rejected
      (not_rejected_respOf s r1 r2 0 0 (.inl rfl) (by decide) (by decide) (by omega))⟩
  | encoded cfg ch plan a hi hl hvalid =>
    exact .inr ⟨by rw [hi, hl, acceptedIn_encodeInstr],
      next_ne_sequence_of_not_rejected (finishEncode_completedOn hvalid a).not_rejected⟩
  | decoded cfg ch plan llr hi hl hvalid =>
    exact .inr ⟨by rw [hi, hl, acceptedIn_decodeInstr],
      next_ne_sequence_of_not_rejected (finishDecode_completedOn hvalid llr).not_rejected⟩
  | encodeRefused cfg ch plan r hi hl =>
    exact .inr ⟨by rw [hi, hl, acceptedIn_encodeInstr], nofun⟩
  | decodeRefused cfg ch plan hi hl =>
    exact .inr ⟨by rw [hi, hl, acceptedIn_decodeInstr], nofun⟩

/-- Settles O22: of the two ways the acceptance table leaves, each premise picks one. -/
theorem acceptanceFollowsTheTable : Obligations.AcceptanceFollowsTheTable := by
  intro i s
  rcases (exec_commandEnd i s).sequence_or_accepted with ⟨hrefused, hexec⟩ | ⟨haccepted, hne⟩
  · exact ⟨fun _ => hexec, fun haccepted => absurd (hrefused.symm.trans haccepted) (by decide)⟩
  · exact ⟨fun hrefused => absurd (hrefused.symm.trans haccepted) (by decide), fun _ => hne⟩

/-! The lifecycle state. -/

/-- A command that does not succeed leaves the lifecycle state (R236). -/
@[simp] theorem lifeAfter_false (i : Instr) (l : Life) : lifeAfter i false l = l := by
  cases i <;> rfl

@[simp] theorem lifeAfter_encodeInstr (cfg : UciCfg) (ch : Chan) (b : Bool) (l : Life) :
    lifeAfter (encodeInstr cfg ch) b l = l := by
  cases ch <;> rfl

@[simp] theorem lifeAfter_decodeInstr (cfg : UciCfg) (ch : Chan) (b : Bool) (l : Life) :
    lifeAfter (decodeInstr cfg ch) b l = l := by
  cases ch <;> rfl

/-- Each command that moves the lifecycle state is turned away in some state, so one accepted in every state, a query,
leaves it (R236, R237). -/
theorem lifeAfter_of_always_accepted {i : Instr} (h : ∀ l, acceptedIn i l = true) (b : Bool) (l : Life) :
    lifeAfter i b l = l := by
  cases i with
  | init thr1 thrb => exact absurd (h .ready) Bool.false_ne_true
  | free => exact absurd (h .uninit) Bool.false_ne_true
  | setCarrier mu nprb => exact absurd (h .uninit) Bool.false_ne_true
  | _ => rfl

/-- Every end of a command enters the state of the transition table (R236). -/
theorem CommandEnd.life_eq {c : Config} {i : Instr} {s t : State} (hend : CommandEnd c i s (.next t)) :
    t.life = lifeAfter i (decide (completedOk t.resp)) s.life := by
  cases hend with
  | rejection e he =>
    have hfailed : ¬ completedOk (respOf s e.code 0 0 0 0 0 0 0) := by
      rw [completedOk, errField_rejection, errKind_code_eq_zero_iff]
      rintro rfl
      simp at he
    rw [decide_eq_false hfailed, lifeAfter_false]
  | inited thr1 thrb hi =>
    rw [hi, decide_eq_true (completedOk_respondOk _)]
    rfl
  | freed hi =>
    rw [hi, decide_eq_true (completedOk_respondOk _)]
    rfl
  | carrierSet mu nprb a e hi =>
    rw [hi, decide_eq_true (completedOk_respondOk _)]
    rfl
  | queried L r1 r2 hL ha => rw [lifeAfter_of_always_accepted ha]
  | encoded cfg ch plan a hi =>
    rw [hi, lifeAfter_encodeInstr]
    exact (finishEncode_same c plan a s).life
  | decoded cfg ch plan llr hi =>
    rw [hi, lifeAfter_decodeInstr]
    exact (finishDecode_same c cfg ch plan llr s).life

theorem execIn_life {c : Config} {i : Instr} {s t : State} (hrun : execIn c i s = .next t) :
    t.life = lifeAfter i (decide (completedOk t.resp)) s.life :=
  CommandEnd.life_eq (hrun ▸ execIn_commandEnd c i s)

/-- The act of reset is the hardware reset, in every state (R310). -/
theorem step_reset {s : State} {rest : List HostAct} (h : s.host = .reset :: rest) :
    step s = .next (hardReset { s with host := rest }) :=
  step_act s .reset rest h

/-- Settles O21: a command by its end, exec as the command at the machine's record, and the reset by its act. -/
theorem lifecycleFollowsTheTable : Obligations.LifecycleFollowsTheTable := by
  refine ⟨fun c i s t => execIn_life, fun i s t hrun => ?_, fun s t rest hhost hstep => ?_⟩
  · rw [exec_eq_execIn] at hrun
    exact execIn_life hrun
  · cases (step_reset hhost).symm.trans hstep
    rfl

end Sys2Proof.Machine
end

section
/-! Issue: what the write of CMD makes of an illegal frame, and that a command of its own never answers IllegalCommand
(spec R235, R281, R282). -/

namespace Sys2Proof.Machine

/-! The write of CMD. -/

/-- Element 0 of space 0 is CMD, and the write of it issues a command (R25). -/
theorem step_writeCmd {s : State} {rest : List HostAct} {h : Word} (hhost : s.host = .write 0 0 h :: rest) :
    step s = issue exec h { s with host := rest } :=
  step_act s (.write 0 0 h) rest hhost

theorem step_writeCmd_illegal {s : State} {rest : List HostAct} {h : Word} {e : DecodeError}
    (hhost : s.host = .write 0 0 h :: rest) (hillegal : decode ⟨h, s.arg⟩ = .error e) :
    step s = .next (raise .illegalCommand { s with host := rest, cmd := h }) := by
  rw [step_writeCmd hhost, issue, hillegal]

theorem step_writeCmd_decoded {s : State} {rest : List HostAct} {h : Word} {i : Instr}
    (hhost : s.host = .write 0 0 h :: rest) (hdecoded : decode ⟨h, s.arg⟩ = .ok i) :
    step s = exec i { s with host := rest, cmd := h } := by
  rw [step_writeCmd hhost, issue, hdecoded]

/-! IllegalCommand lies before the command. -/

/-- A command that answers is rejected with Sequence, InvalidResource or InvalidConfig, or its answer is no rejection
(R284). -/
theorem CommandEnd.rejection_or_not_rejected {c : Config} {i : Instr} {s t : State} (hend : CommandEnd c i s (.next t)) :
    (∃ e : ErrKind, (e = .sequence ∨ e = .invalidResource ∨ e = .invalidConfig) ∧
      t = { s with resp := respOf s e.code 0 0 0 0 0 0 0 }) ∨ ¬ rejected t.resp := by
  cases hend with
  | rejection e he => exact .inl ⟨e, he, rfl⟩
  | inited => exact .inr (not_rejected_respondOk _)
  | freed => exact .inr (not_rejected_respondOk _)
  | carrierSet => exact .inr (not_rejected_respondOk _)
  | queried L r1 r2 hL => exact .inr (not_rejected_respOf s r1 r2 0 0 (.inl rfl) (by decide) (by decide) (by omega))
  | encoded cfg ch plan a _ _ hvalid => exact .inr (finishEncode_completedOn hvalid a).not_rejected
  | decoded cfg ch plan llr _ _ hvalid => exact .inr (finishDecode_completedOn hvalid llr).not_rejected

/-- IllegalCommand, the error code 6, is no end of a command: it is a rejection, but not of the three kinds a command
raises (R281). -/
theorem CommandEnd.errField_ne_illegalCommand {c : Config} {i : Instr} {s t : State}
    (hend : CommandEnd c i s (.next t)) : errField t.resp.r0 ≠ 6 := by
  rcases hend.rejection_or_not_rejected with ⟨e, he, rfl⟩ | hcompleted
  · rw [errField_rejection]
    rcases he with rfl | rfl | rfl <;> decide
  · intro hsix
    exact hcompleted (by rw [rejected, hsix]; decide)

theorem exec_errField_ne_illegalCommand {i : Instr} {s t : State} (hrun : exec i s = .next t) :
    errField t.resp.r0 ≠ 6 :=
  CommandEnd.errField_ne_illegalCommand (hrun ▸ exec_commandEnd i s)

/-- Settles O6: an illegal frame is raised before the command; a decoded frame runs, and the acceptance table says whether
it answers Sequence. -/
theorem issueDecodesAcceptsThenRuns : Obligations.IssueDecodesAcceptsThenRuns := by
  intro s rest h hhost s1
  have hrun {i : Instr} (hdecoded : decode ⟨h, s.arg⟩ = .ok i) : step s = exec i s1 :=
    step_writeCmd_decoded hhost hdecoded
  refine ⟨fun e hillegal => ?_, fun i hdecoded hrefused => ?_, fun i hdecoded haccepted => ⟨hrun hdecoded, ?_⟩⟩
  · rw [step_writeCmd_illegal hhost hillegal, raise_eq]
    rfl
  · rw [hrun hdecoded]
    exact (acceptanceFollowsTheTable i s1).1 hrefused
  · rw [hrun hdecoded]
    intro t hanswer
    exact ⟨(acceptanceFollowsTheTable i s1).2 haccepted t hanswer, exec_errField_ne_illegalCommand hanswer⟩

end Sys2Proof.Machine
end

section
/-! The frame encoder against the frame decoder: the fields of an operand word read back, a word with no reserved bit set is
the word of its fields, and so for a whole frame in both directions (spec R91 to R100). -/

namespace Sys2Proof

/-! The fields read back from their word. -/

/-- A flag at its place in a word, read back. -/
theorem sliceBit_ofNat (n lo : Nat) (b : Bool) (hn : n < 2 ^ 32) (hbit : n / 2 ^ lo % 2 = b.toNat) :
    sliceBit (BitVec.ofNat 32 n) lo = b := by
  rw [sliceBit, slice_ofNat _ _ _ hn, pow_one, hbit]
  cases b <;> rfl

theorem uciCfgOf_word (cfg : UciCfg) (hwf : cfg.WellFormed) :
    slice (uciCfgWord cfg) 23 9 = 0 ∧ uciCfgOf (uciCfgWord cfg) = cfg := by
  obtain ⟨oAck, oCsi1, sr⟩ := cfg
  obtain ⟨hack, hcsi1⟩ := hwf
  have hsr := Bool.toNat_le sr
  dsimp only at hack hcsi1
  have hlt : oAck + 2 ^ 11 * oCsi1 + 2 ^ 22 * sr.toNat < 2 ^ 32 := by omega
  have hflag := sliceBit_ofNat _ 22 sr hlt (by omega)
  simp only [uciCfgOf, uciCfgWord, slice_ofNat _ _ _ hlt, hflag, UciCfg.mk.injEq, and_true]
  omega

theorem pucchResOf_word (res : PucchRes) (hwf : res.WellFormed) :
    slice (pucchResWord res) 17 15 = 0 ∧ pucchResOf (pucchResWord res) = res := by
  obtain ⟨fmt, nsym, nprb, qm, sf⟩ := res
  obtain ⟨hfmt, hnsym, hnprb, hqm, hsf⟩ := hwf
  dsimp only at hfmt hnsym hnprb hqm hsf
  have hlt : fmt + 2 ^ 3 * nsym + 2 ^ 7 * nprb + 2 ^ 12 * qm + 2 ^ 14 * sf < 2 ^ 32 := by omega
  simp only [pucchResOf, pucchResWord, slice_ofNat _ _ _ hlt, PucchRes.mk.injEq]
  omega

theorem puschCfgOf_words (p : PuschCfg) (hwf : p.WellFormed) :
    slice (puschCfg2Word p) 24 8 = 0 ∧ slice (puschCfg3Word p) 25 7 = 0 ∧ slice (puschCfg4Word p) 19 13 = 0 ∧
    puschCfgOf (puschCfg1Word p) (puschCfg2Word p) (puschCfg3Word p) (puschCfg4Word p) = p := by
  obtain ⟨mSum, mL0Sum, kSum, betaAckX8, betaCsi1X8, alphaX20, rX1024, qm, nLayers, csi2⟩ := p
  obtain ⟨hmSum, hmL0Sum, hkSum, hbetaAck, hbetaCsi1, halpha, hr, hqm, hnLayers⟩ := hwf
  dsimp only at hmSum hmL0Sum hkSum hbetaAck hbetaCsi1 halpha hr hqm hnLayers
  have hcsi2 := Bool.toNat_le csi2
  have hlt1 : mSum + 2 ^ 16 * mL0Sum < 2 ^ 32 := by omega
  have hlt2 : kSum < 2 ^ 32 := by omega
  have hlt3 : betaAckX8 + 2 ^ 10 * betaCsi1X8 + 2 ^ 20 * alphaX20 < 2 ^ 32 := by omega
  have hlt4 : rX1024 + 2 ^ 11 * qm + 2 ^ 15 * nLayers + 2 ^ 18 * csi2.toNat < 2 ^ 32 := by omega
  have hflag := sliceBit_ofNat _ 18 csi2 hlt4 (by omega)
  simp only [puschCfgOf, puschCfg1Word, puschCfg2Word, puschCfg3Word, puschCfg4Word, slice_ofNat _ _ _ hlt1,
    slice_ofNat _ _ _ hlt2, slice_ofNat _ _ _ hlt3, slice_ofNat _ _ _ hlt4, hflag, PuschCfg.mk.injEq, and_true]
  omega

/-! The formats, on operand words made from fields; the other words are ignored (R90). -/

section
variable {a : Args} {cfg : UciCfg}

theorem decodeC_words {mu nprb : Nat} (hwf : carrierWellFormed mu nprb) (h0 : a.a0 = carrierWord mu nprb) :
    decodeC a = .ok (.setCarrier mu nprb) := by
  obtain ⟨hmu, hnprb⟩ := hwf
  have hlt : mu + 2 ^ 3 * nprb < 2 ^ 32 := by omega
  have hreserved : (mu + 2 ^ 3 * nprb) / 2 ^ 12 % 2 ^ 20 = 0 := by omega
  have hmuBack : (mu + 2 ^ 3 * nprb) / 2 ^ 0 % 2 ^ 3 = mu := by omega
  have hnprbBack : (mu + 2 ^ 3 * nprb) / 2 ^ 3 % 2 ^ 9 = nprb := by omega
  rw [decodeC, h0, carrierWord, slice_ofNat _ _ _ hlt, slice_ofNat _ _ _ hlt, slice_ofNat _ _ _ hlt, hreserved, hmuBack,
    hnprbBack, if_neg (by decide)]

theorem decodeP_words (mk : UciCfg → PucchRes → Instr) {res : PucchRes} (hwf : cfg.WellFormed ∧ res.WellFormed)
    (hargs : ∀ k, k ∈ [0, 1] → a.get k = (argsP cfg res).get k) : decodeP mk a = .ok (mk cfg res) := by
  have h0 : a.a0 = uciCfgWord cfg := hargs 0 (by decide)
  have h1 : a.a1 = pucchResWord res := hargs 1 (by decide)
  obtain ⟨hreserved0, hback0⟩ := uciCfgOf_word cfg hwf.1
  obtain ⟨hreserved1, hback1⟩ := pucchResOf_word res hwf.2
  simp [decodeP, h0, h1, hreserved0, hback0, hreserved1, hback1]

theorem decodeS_words (mk : UciCfg → PuschCfg → Instr) {p : PuschCfg} (hwf : cfg.WellFormed ∧ p.WellFormed)
    (hargs : ∀ k, k ∈ [0, 1, 2, 3, 4] → a.get k = (argsS cfg p).get k) : decodeS mk a = .ok (mk cfg p) := by
  have h0 : a.a0 = uciCfgWord cfg := hargs 0 (by decide)
  have h1 : a.a1 = puschCfg1Word p := hargs 1 (by decide)
  have h2 : a.a2 = puschCfg2Word p := hargs 2 (by decide)
  have h3 : a.a3 = puschCfg3Word p := hargs 3 (by decide)
  have h4 : a.a4 = puschCfg4Word p := hargs 4 (by decide)
  obtain ⟨hreserved0, hback0⟩ := uciCfgOf_word cfg hwf.1
  obtain ⟨hreserved2, hreserved3, hreserved4, hback⟩ := puschCfgOf_words p hwf.2
  simp [decodeS, h0, h1, h2, h3, h4, hreserved0, hback0, hreserved2, hreserved3, hreserved4, hback]

theorem decodeU_words (hcfg : cfg.WellFormed) (h0 : a.a0 = uciCfgWord cfg) : decodeU a = .ok (.qTotal cfg) := by
  obtain ⟨hreserved, hback⟩ := uciCfgOf_word cfg hcfg
  simp [decodeU, h0, hreserved, hback]

theorem decodeR_words {res : PucchRes} (hres : res.WellFormed) (h1 : a.a1 = pucchResWord res) :
    decodeR a = .ok (.qPucchE res) := by
  obtain ⟨hreserved, hback⟩ := pucchResOf_word res hres
  simp [decodeR, h1, hreserved, hback]

end

/-- A frame with an instruction's header and its operand words, whatever its other words are, decodes to the instruction
(R90, R93): the header picks the format, and the format reads back its operand words. -/
theorem decode_operandWords {i : Instr} {a : Args} (hwf : i.WellFormed)
    (hargs : ∀ k, k ∈ operandIndices i → a.get k = (encodeArgs i).get k) : decode ⟨(encode i).h, a⟩ = .ok i := by
  cases i with
  | init thr1 thrb =>
    have h0 : a.a0 = thr1 := hargs 0 (by simp [operandIndices])
    have h1 : a.a1 = thrb := hargs 1 (by simp [operandIndices])
    rw [← h0, ← h1]
    exact decode_header1 a
  | free => exact decode_header2 a
  | setCarrier mu nprb =>
    exact (decode_header3 a).trans (decodeC_words (of_decide_eq_true hwf) (hargs 0 (by simp [operandIndices])))
  | encPucch cfg res => exact (decode_header4 a).trans (decodeP_words .encPucch (of_decide_eq_true hwf) hargs)
  | decPucch cfg res => exact (decode_header5 a).trans (decodeP_words .decPucch (of_decide_eq_true hwf) hargs)
  | encPuschAck cfg p => exact (decode_header6 a).trans (decodeS_words .encPuschAck (of_decide_eq_true hwf) hargs)
  | decPuschAck cfg p => exact (decode_header7 a).trans (decodeS_words .decPuschAck (of_decide_eq_true hwf) hargs)
  | encPuschCsi1 cfg p => exact (decode_header8 a).trans (decodeS_words .encPuschCsi1 (of_decide_eq_true hwf) hargs)
  | decPuschCsi1 cfg p => exact (decode_header9 a).trans (decodeS_words .decPuschCsi1 (of_decide_eq_true hwf) hargs)
  | qTotal cfg =>
    exact (decode_header10 a).trans (decodeU_words (of_decide_eq_true hwf) (hargs 0 (by simp [operandIndices])))
  | qCrcLen n =>
    have h0 : a.a0 = BitVec.ofNat 32 n := hargs 0 (by simp [operandIndices])
    have hlt : n < 2 ^ 32 := of_decide_eq_true hwf
    have hback : a.a0.toNat = n := by rw [h0, BitVec.toNat_ofNat, Nat.mod_eq_of_lt hlt]
    exact (decode_header11 a).trans (congrArg (fun n => Except.ok (Instr.qCrcLen n)) hback)
  | qPucchE res =>
    exact (decode_header12 a).trans (decodeR_words (of_decide_eq_true hwf) (hargs 1 (by simp [operandIndices])))
  | qPuschAckE cfg p => exact (decode_header13 a).trans (decodeS_words .qPuschAckE (of_decide_eq_true hwf) hargs)
  | qPuschCsi1E cfg p => exact (decode_header14 a).trans (decodeS_words .qPuschCsi1E (of_decide_eq_true hwf) hargs)

/-- Settles O1: the frame of an instruction has its operand words. -/
theorem decodeReadsBackEveryEncoding : Obligations.DecodeReadsBackEveryEncoding :=
  fun _ hwf => decode_operandWords hwf fun _ _ => rfl

/-! A word with no reserved bit set is the word of its fields. -/

/-- A one-bit field as a number. -/
theorem sliceBit_toNat (w : Word) (lo : Nat) : (sliceBit w lo).toNat = slice w lo 1 := by
  have hlt := slice_lt w lo 1
  rcases (by omega : slice w lo 1 = 0 ∨ slice w lo 1 = 1) with h | h <;> rw [sliceBit, h] <;> rfl

theorem uciCfgOf_wf (w : Word) : (uciCfgOf w).WellFormed := ⟨slice_lt w 0 11, slice_lt w 11 11⟩

theorem pucchResOf_wf (w : Word) : (pucchResOf w).WellFormed :=
  ⟨slice_lt w 0 3, slice_lt w 3 4, slice_lt w 7 5, slice_lt w 12 2, slice_lt w 14 3⟩

theorem puschCfgOf_wf (w1 w2 w3 w4 : Word) : (puschCfgOf w1 w2 w3 w4).WellFormed :=
  ⟨slice_lt w1 0 16, slice_lt w1 16 16, slice_lt w2 0 24, slice_lt w3 0 10, slice_lt w3 10 10, slice_lt w3 20 5,
    slice_lt w4 0 11, slice_lt w4 11 4, slice_lt w4 15 3⟩

/-- A word is determined by the number its fields make. -/
theorem ofNat_eq_word (w : Word) (n : Nat) (h : n = w.toNat) : BitVec.ofNat 32 n = w := by
  rw [h, BitVec.ofNat_toNat, BitVec.setWidth_eq]

theorem uciCfgWord_of (w : Word) (hreserved : slice w 23 9 = 0) : uciCfgWord (uciCfgOf w) = w := by
  have hlt := w.isLt
  apply ofNat_eq_word
  simp only [uciCfgOf, sliceBit_toNat, slice] at hreserved ⊢
  omega

theorem pucchResWord_of (w : Word) (hreserved : slice w 17 15 = 0) : pucchResWord (pucchResOf w) = w := by
  have hlt := w.isLt
  apply ofNat_eq_word
  simp only [pucchResOf, slice] at hreserved ⊢
  omega

theorem carrierWord_of (w : Word) (hreserved : slice w 12 20 = 0) : carrierWord (slice w 0 3) (slice w 3 9) = w := by
  have hlt := w.isLt
  apply ofNat_eq_word
  simp only [slice] at hreserved ⊢
  omega

theorem puschCfg1Word_of (w1 w2 w3 w4 : Word) : puschCfg1Word (puschCfgOf w1 w2 w3 w4) = w1 := by
  have hlt := w1.isLt
  apply ofNat_eq_word
  simp only [puschCfgOf, slice]
  omega

theorem puschCfg2Word_of (w1 w2 w3 w4 : Word) (hreserved : slice w2 24 8 = 0) :
    puschCfg2Word (puschCfgOf w1 w2 w3 w4) = w2 := by
  have hlt := w2.isLt
  apply ofNat_eq_word
  simp only [puschCfgOf, slice] at hreserved ⊢
  omega

theorem puschCfg3Word_of (w1 w2 w3 w4 : Word) (hreserved : slice w3 25 7 = 0) :
    puschCfg3Word (puschCfgOf w1 w2 w3 w4) = w3 := by
  have hlt := w3.isLt
  apply ofNat_eq_word
  simp only [puschCfgOf, slice] at hreserved ⊢
  omega

theorem puschCfg4Word_of (w1 w2 w3 w4 : Word) (hreserved : slice w4 19 13 = 0) :
    puschCfg4Word (puschCfgOf w1 w2 w3 w4) = w4 := by
  have hlt := w4.isLt
  apply ofNat_eq_word
  simp only [puschCfgOf, sliceBit_toNat, slice] at hreserved ⊢
  omega

/-! A frame that decodes. -/

/-- The instruction is well formed, and its encoding has the operand words of its format as they stand in `a` (R93). -/
def ArgsEncodeBack (a : Args) (i : Instr) : Prop :=
  i.WellFormed ∧ ∀ k, k ∈ operandIndices i → (encodeArgs i).get k = a.get k

theorem decodeC_encodesBack {a : Args} {i : Instr} (hdecode : decodeC a = .ok i) :
    opcode i = 3 ∧ ArgsEncodeBack a i := by
  unfold decodeC at hdecode
  split_ifs at hdecode with h0
  cases hdecode
  refine ⟨rfl, decide_eq_true ⟨slice_lt _ 0 3, slice_lt _ 3 9⟩, List.forall_mem_singleton.mpr ?_⟩
  exact carrierWord_of a.a0 (not_not.mp h0)

theorem decodeP_eq_ok {mk : UciCfg → PucchRes → Instr} {a : Args} {i : Instr} (hdecode : decodeP mk a = .ok i) :
    slice a.a0 23 9 = 0 ∧ slice a.a1 17 15 = 0 ∧ i = mk (uciCfgOf a.a0) (pucchResOf a.a1) := by
  unfold decodeP at hdecode
  split_ifs at hdecode with h0 h1
  cases hdecode
  exact ⟨not_not.mp h0, not_not.mp h1, rfl⟩

theorem decodeS_eq_ok {mk : UciCfg → PuschCfg → Instr} {a : Args} {i : Instr} (hdecode : decodeS mk a = .ok i) :
    slice a.a0 23 9 = 0 ∧ slice a.a2 24 8 = 0 ∧ slice a.a3 25 7 = 0 ∧ slice a.a4 19 13 = 0 ∧
      i = mk (uciCfgOf a.a0) (puschCfgOf a.a1 a.a2 a.a3 a.a4) := by
  unfold decodeS at hdecode
  split_ifs at hdecode with h0 h2 h3 h4
  cases hdecode
  exact ⟨not_not.mp h0, not_not.mp h2, not_not.mp h3, not_not.mp h4, rfl⟩

/-- Format P: the row's command is well formed where its fields are, and has the two operand words (R93). -/
theorem decodeP_encodesBack {mk : UciCfg → PucchRes → Instr} {a : Args} {i : Instr} (hdecode : decodeP mk a = .ok i)
    {n : Nat} (hopcode : ∀ cfg res, opcode (mk cfg res) = n)
    (hwf : ∀ cfg res, (mk cfg res).wellFormed = decide (cfg.WellFormed ∧ res.WellFormed))
    (hindices : ∀ cfg res, operandIndices (mk cfg res) = [0, 1]) (hargs : ∀ cfg res, encodeArgs (mk cfg res) = argsP cfg res) :
    opcode i = n ∧ ArgsEncodeBack a i := by
  obtain ⟨h0, h1, rfl⟩ := decodeP_eq_ok hdecode
  refine ⟨hopcode _ _, (hwf _ _).trans (decide_eq_true ⟨uciCfgOf_wf _, pucchResOf_wf _⟩), ?_⟩
  rw [hindices, hargs]
  simp only [List.forall_mem_cons, List.not_mem_nil, false_implies, implies_true, and_true]
  exact ⟨uciCfgWord_of _ h0, pucchResWord_of _ h1⟩

/-- Format S: the same of its five operand words (R93). -/
theorem decodeS_encodesBack {mk : UciCfg → PuschCfg → Instr} {a : Args} {i : Instr} (hdecode : decodeS mk a = .ok i)
    {n : Nat} (hopcode : ∀ cfg p, opcode (mk cfg p) = n)
    (hwf : ∀ cfg p, (mk cfg p).wellFormed = decide (cfg.WellFormed ∧ p.WellFormed))
    (hindices : ∀ cfg p, operandIndices (mk cfg p) = [0, 1, 2, 3, 4]) (hargs : ∀ cfg p, encodeArgs (mk cfg p) = argsS cfg p) :
    opcode i = n ∧ ArgsEncodeBack a i := by
  obtain ⟨h0, h2, h3, h4, rfl⟩ := decodeS_eq_ok hdecode
  refine ⟨hopcode _ _, (hwf _ _).trans (decide_eq_true ⟨uciCfgOf_wf _, puschCfgOf_wf _ _ _ _⟩), ?_⟩
  rw [hindices, hargs]
  simp only [List.forall_mem_cons, List.not_mem_nil, false_implies, implies_true, and_true]
  exact ⟨uciCfgWord_of _ h0, puschCfg1Word_of _ _ _ _, puschCfg2Word_of _ _ _ _ h2, puschCfg3Word_of _ _ _ _ h3,
    puschCfg4Word_of _ _ _ _ h4⟩

theorem decodeU_encodesBack {a : Args} {i : Instr} (hdecode : decodeU a = .ok i) :
    opcode i = 10 ∧ ArgsEncodeBack a i := by
  unfold decodeU at hdecode
  split_ifs at hdecode with h0
  cases hdecode
  refine ⟨rfl, decide_eq_true (uciCfgOf_wf _), List.forall_mem_singleton.mpr ?_⟩
  exact uciCfgWord_of a.a0 (not_not.mp h0)

theorem decodeR_encodesBack {a : Args} {i : Instr} (hdecode : decodeR a = .ok i) :
    opcode i = 12 ∧ ArgsEncodeBack a i := by
  unfold decodeR at hdecode
  split_ifs at hdecode with h1
  cases hdecode
  refine ⟨rfl, decide_eq_true (pucchResOf_wf _), List.forall_mem_singleton.mpr ?_⟩
  exact pucchResWord_of a.a1 (not_not.mp h1)

/-- A frame that decodes has the header of its instruction and the instruction's operand words, opcode by opcode. -/
theorem decode_encodesBack {n : Nat} (hn : n < 16) {a : Args} {i : Instr} (hdecode : decode ⟨BitVec.ofNat 32 n, a⟩ = .ok i) :
    opcode i = n ∧ ArgsEncodeBack a i := by
  interval_cases n
  · cases (decode_header0 a).symm.trans hdecode
  · cases (decode_header1 a).symm.trans hdecode
    exact ⟨rfl, rfl, by simp [operandIndices, encodeArgs, Args.get]⟩
  · cases (decode_header2 a).symm.trans hdecode
    exact ⟨rfl, rfl, by simp [operandIndices]⟩
  · exact decodeC_encodesBack ((decode_header3 a).symm.trans hdecode)
  · exact decodeP_encodesBack ((decode_header4 a).symm.trans hdecode) (fun _ _ => rfl) (fun _ _ => rfl) (fun _ _ => rfl)
      (fun _ _ => rfl)
  · exact decodeP_encodesBack ((decode_header5 a).symm.trans hdecode) (fun _ _ => rfl) (fun _ _ => rfl) (fun _ _ => rfl)
      (fun _ _ => rfl)
  · exact decodeS_encodesBack ((decode_header6 a).symm.trans hdecode) (fun _ _ => rfl) (fun _ _ => rfl) (fun _ _ => rfl)
      (fun _ _ => rfl)
  · exact decodeS_encodesBack ((decode_header7 a).symm.trans hdecode) (fun _ _ => rfl) (fun _ _ => rfl) (fun _ _ => rfl)
      (fun _ _ => rfl)
  · exact decodeS_encodesBack ((decode_header8 a).symm.trans hdecode) (fun _ _ => rfl) (fun _ _ => rfl) (fun _ _ => rfl)
      (fun _ _ => rfl)
  · exact decodeS_encodesBack ((decode_header9 a).symm.trans hdecode) (fun _ _ => rfl) (fun _ _ => rfl) (fun _ _ => rfl)
      (fun _ _ => rfl)
  · exact decodeU_encodesBack ((decode_header10 a).symm.trans hdecode)
  · cases (decode_header11 a).symm.trans hdecode
    refine ⟨rfl, decide_eq_true a.a0.isLt, List.forall_mem_singleton.mpr ?_⟩
    exact ofNat_eq_word a.a0 _ rfl
  · exact decodeR_encodesBack ((decode_header12 a).symm.trans hdecode)
  · exact decodeS_encodesBack ((decode_header13 a).symm.trans hdecode) (fun _ _ => rfl) (fun _ _ => rfl) (fun _ _ => rfl)
      (fun _ _ => rfl)
  · exact decodeS_encodesBack ((decode_header14 a).symm.trans hdecode) (fun _ _ => rfl) (fun _ _ => rfl) (fun _ _ => rfl)
      (fun _ _ => rfl)
  · cases (decode_header15 a).symm.trans hdecode

/-- Settles O3: the header has no reserved bit set, so it is its opcode, and the opcode's format drops no bit of the operand
words. -/
theorem decodedFramesEncodeBack : Obligations.DecodedFramesEncodeBack := by
  rintro ⟨h, a⟩ i hdecode
  have hheader : slice h 4 28 = 0 := by
    by_contra hreserved
    cases (decode_reservedHeader h a hreserved).symm.trans hdecode
  obtain ⟨heq, hlt⟩ := header_eq_opcode h hheader
  rw [heq] at hdecode
  obtain ⟨hopcode, hwf, hargs⟩ := decode_encodesBack hlt hdecode
  refine ⟨hwf, ?_, hargs⟩
  rw [encode, hopcode]
  exact heq.symm

/-- Settles O4: each frame is evaluated. -/
theorem sampleFramesDecode : Obligations.SampleFramesDecode := by
  refine ⟨?_, ?_, ?_, ?_, ?_, ?_, ?_⟩ <;> rfl

end Sys2Proof
end

section
/-! The invariants of R41, the canonical form of memory and the element counts and types, kept by every step: at every
configuration record the spec admits, and so at the machine's (spec R30, R37, R41, R219). -/

namespace Sys2Proof.Machine

/-! One buffer. -/

/-- A buffer in canonical form within its element count. -/
structure BufferOk {α : Type} (b : Buf α) (n : Nat) : Prop where
  wf : Buf.wf b
  within : Buf.within b n

section
variable {α : Type} {b : Buf α} {n : Nat}

theorem bufferOk_nil : BufferOk ([] : Buf α) n := ⟨List.Pairwise.nil, by simp⟩

theorem BufferOk.write (h : BufferOk b n) {i : Nat} {vs : List α} (hfit : i + vs.length ≤ n) :
    BufferOk (b.write i vs) n :=
  ⟨Buf.write_wf b i vs h.wf, Buf.write_within b i n vs h.within hfit⟩

theorem BufferOk.write_zero (h : BufferOk b n) {vs : List α} (hfit : vs.length ≤ n) : BufferOk (b.write 0 vs) n :=
  h.write (by omega)

/-- An element that reads as a value is listed with it. -/
theorem Buf.mem_of_read {i : Nat} {v : α} (h : Buf.read b i = some v) : (i, v) ∈ b := by
  induction b with
  | nil => simp at h
  | cons e b ih =>
    obtain ⟨j, w⟩ := e
    rw [Buf.read_cons] at h
    split_ifs at h with hj
    · cases h
      simp [hj]
    · exact List.mem_cons_of_mem _ (ih h)

end

/-- The values a buffer of soft values holds are in the range of its elements (R37). -/
theorem Buf.ranged_of_holds {b : Buf Int} {w : Nat} {vs : List Int} (hranged : Buf.ranged b w) (hholds : Buf.holds b 0 vs) :
    ∀ v ∈ vs, inSigned w v := by
  intro v hv
  obtain ⟨k, hk, rfl⟩ := List.getElem_of_mem hv
  have hread : Buf.read b (0 + k) = some vs[k] := (hholds k hk).trans (List.getElem?_eq_getElem hk)
  exact hranged _ (Buf.mem_of_read hread)

/-! The nine buffers. -/

/-- Every space in canonical form, within its element count and its element type: `Memory.wf` and `MemoryFits`, space by
space. -/
structure MemoryOk (c : Config) (m : Memory) : Prop where
  valAck : BufferOk m.valAck c.aMax
  valCsi1 : BufferOk m.valCsi1 c.aMax
  valMisc : BufferOk m.valMisc 2
  cod : BufferOk m.cod c.eMax
  llr : BufferOk m.llr c.eMax
  llrRange : Buf.ranged m.llr c.llrW
  bitSequence : BufferOk m.bitSequence c.aMax
  crcWord : BufferOk m.c (c.aMax + 11)
  allocated : BufferOk m.allocated c.nMax
  d : BufferOk m.d c.nMax
  dRange : Buf.ranged m.d c.softW

theorem memoryOk_iff (c : Config) (m : Memory) : MemoryOk c m ↔ Memory.wf m ∧ MemoryFits c m := by
  constructor
  · intro h
    exact ⟨⟨h.valAck.wf, h.valCsi1.wf, h.valMisc.wf, h.cod.wf, h.llr.wf, h.bitSequence.wf, h.crcWord.wf, h.allocated.wf,
        h.d.wf⟩,
      ⟨h.valAck.within, h.valCsi1.within, h.valMisc.within, h.cod.within, h.llr.within, h.llrRange, h.bitSequence.within,
        h.crcWord.within, h.allocated.within, h.d.within, h.dRange⟩⟩
  · rintro ⟨⟨w1, w2, w3, w4, w5, w6, w7, w8, w9⟩, hfits⟩
    exact ⟨⟨w1, hfits.valAck⟩, ⟨w2, hfits.valCsi1⟩, ⟨w3, hfits.valMisc⟩, ⟨w4, hfits.cod⟩, ⟨w5, hfits.llr⟩, hfits.llrRange,
      ⟨w6, hfits.bitSequence⟩, ⟨w7, hfits.crcWord⟩, ⟨w8, hfits.allocated⟩, ⟨w9, hfits.d⟩, hfits.dRange⟩

theorem memoryOk_empty (c : Config) : MemoryOk c Memory.empty := by
  constructor <;> first | exact bufferOk_nil | exact nofun

theorem MemoryOk.dropScratch {c : Config} {s : State} (h : MemoryOk c s.mem) : MemoryOk c (dropScratch s).mem :=
  { h with bitSequence := bufferOk_nil, crcWord := bufferOk_nil, allocated := bufferOk_nil, d := bufferOk_nil
           dRange := nofun }

section
variable {c : Config} {cfg : UciCfg} {ch : Chan} {s t : State} {plan : Plan}

/-- The element a host write stores is of its space's type and below its count (R62). -/
theorem HostStore.memoryOk {i : Nat} {data : Word} {m : Memory} (hstore : HostStore c s i data m) (hc : ConfigLegal c)
    (h : MemoryOk c s.mem) : MemoryOk c m := by
  cases hstore with
  | valAck hi => exact { h with valAck := h.valAck.write hi }
  | valCsi1 hi => exact { h with valCsi1 := h.valCsi1.write hi }
  | valMisc hi => exact { h with valMisc := h.valMisc.write hi }
  | cod hi => exact { h with cod := h.cod.write hi }
  | llr hi =>
    have hrange := signedOf_range c.llrW (by have := hc.llrW_low; omega) data
    exact { h with llr := h.llr.write hi, llrRange := Buf.write_ranged _ _ _ _ h.llrRange (by simpa using hrange) }

/-- A payload of A bits fits the VAL spaces, its SR bit in element 0 of VAL_MISC (R242). -/
theorem MemoryOk.unpack {m : Memory} (h : MemoryOk c m) {a : List Bool} (hlen : a.length = payloadLength cfg ch)
    (hfit : a.length ≤ c.aMax) : MemoryOk c (unpack c cfg ch a m) := by
  cases ch with
  | puschAck p => exact { h with valAck := h.valAck.write_zero hfit }
  | puschCsi1 p => exact { h with valCsi1 := h.valCsi1.write_zero hfit }
  | pucch res =>
    obtain ⟨hack, hcsi1, hsr, -⟩ := splitPucch_append c cfg a hlen
    have htotal : payloadLength cfg (.pucch res) = cfg.oAck + cfg.oCsi1 + (if cfg.sr then 1 else 0) := rfl
    have hflag := Bool.toNat_le cfg.sr
    exact { h with
      valAck := h.valAck.write_zero (by omega)
      valCsi1 := h.valCsi1.write_zero (by omega)
      valMisc := h.valMisc.write_zero (by omega) }

/-! The session registers. -/

/-- The invariants of R41 speak of the session registers and the Polar context alone. -/
theorem SessionInv.of_same (h : SessionInv c s) (hsame : SessionSame s t) (hpolar : polarSame s t) : SessionInv c t := by
  obtain ⟨hV, hK, hE, hN⟩ := hpolar
  obtain ⟨h1, h2, h3, h4, h5, h6⟩ := h
  constructor <;> simp only [hsame.life, hsame.thr1, hsame.thrb, hsame.carrier, hsame.capA, hsame.capE, hsame.crc6,
    hsame.crc11, hV, hK, hE, hN] <;> assumption

/-- What a validated plan is bounded by, in READY (R245, R41). -/
theorem validate_bounds (h : SessionInv c s) (hready : s.life = .ready) (hvalid : validate c s cfg ch = .ok plan) :
    plan.A = payloadLength cfg ch ∧ plan.A ≤ s.capA ∧ plan.E ≤ s.capE ∧ plan.A ≤ c.aMax ∧ plan.E ≤ c.eMax := by
  obtain ⟨-, hE, hA, -, hcapA, -, -⟩ := (validate_eq_ok _ _ _ _ _).mp hvalid
  obtain ⟨-, hcapAMax, -, hcapEMax⟩ := h.ready_caps hready
  exact ⟨hA, hcapA, hE, by omega, by omega⟩

/-- On the Polar path a validated plan has its code from Construct, for 12 bits or more, within N_MAX (R212, R243). -/
theorem validate_polar {code : PolarCode} (hvalid : validate c s cfg ch = .ok plan) (hcoding : plan.coding = .polar code) :
    12 ≤ plan.A ∧ plan.L = crcLength plan.A ∧ c.polar.construct (plan.A + crcLength plan.A) plan.E = some code ∧
      code.N ≤ c.nMax := by
  obtain ⟨-, -, -, -, -, hchosen, hL⟩ := (validate_eq_ok _ _ _ _ _).mp hvalid
  rw [hcoding] at hchosen
  rcases chooseCoding_eq_ok c _ _ _ hchosen with ⟨-, hk⟩ | ⟨-, hk⟩ | ⟨-, -, hk⟩ | ⟨hA, code', hk, hconstruct, hN⟩ <;> cases hk
  exact ⟨hA, hL, hconstruct, hN⟩

theorem crcLength_ge_six {A : Nat} (h : 12 ≤ A) : 6 ≤ crcLength A := by
  by_cases h19 : A ≤ 19
  · rw [crcLength_mid h h19]
  · rw [crcLength_large (by omega)]
    decide

/-- The Polar context of a validated plan is within the capacities (R41 (e)). -/
theorem SessionInv.withCodingContext (hshaped : PolarShaped c.polar c.llrW c.softW) (h : SessionInv c s)
    (hready : s.life = .ready) (hvalid : validate c s cfg ch = .ok plan) :
    SessionInv c (withCodingContext plan.coding s) := by
  cases hcoding : plan.coding with
  | small p => exact h
  | polar code =>
    obtain ⟨hA, -, hconstruct, hN⟩ := validate_polar hvalid hcoding
    obtain ⟨hK, hE, -, -⟩ := hshaped.construct_shape _ _ _ hconstruct
    obtain ⟨-, hcapA, hcapE, -, -⟩ := validate_bounds h hready hvalid
    have hL := crcLength_ge_six hA
    have hL' := crcLength_le plan.A
    exact { h with
      no_carrier_zero := fun hlife => absurd hready hlife
      polar_invalid_zero := nofun
      polar_valid_bounds := fun _ => by
        show 18 ≤ code.K ∧ code.K ≤ s.capA + 11 ∧ code.E ≤ s.capE ∧ code.N ≤ c.nMax
        omega }

theorem sessionSame_withCodingContext (k : Coding) (h : SessionSame s t) : SessionSame (withCodingContext k s) t := by
  cases k with
  | small p => exact h
  | polar code => exact { h with }

/-! The codec commands' writes. -/

theorem inSigned_bitInt {w : Nat} (hw : 2 ≤ w) (b : Bool) : inSigned w (bitInt b) := by
  have hpow : (2 : Int) ^ 1 ≤ 2 ^ (w - 1) := pow_le_pow_right₀ (by decide) (by omega)
  cases b <;> simp only [inSigned, bitInt] <;> constructor <;> simp <;> omega

theorem finishEncode_memoryOk (hc : ConfigLawful c) (h : SessionInv c s) (hmem : MemoryOk c s.mem)
    (hready : s.life = .ready) (hvalid : validate c s cfg ch = .ok plan) {a : List Bool}
    (hlen : a.length = payloadLength cfg ch) : MemoryOk c (finishEncode c plan a s).mem := by
  obtain ⟨hA, -, -, hAMax, hEMax⟩ := validate_bounds h hready hvalid
  have hbits := hmem.bitSequence.write_zero (vs := a) (by omega)
  cases hcoding : plan.coding with
  | small p =>
    rw [finishEncode_small c plan a s p hcoding]
    exact { hmem with bitSequence := hbits, cod := hmem.cod.write_zero (by simpa using hEMax) }
  | polar code =>
    obtain ⟨hA12, -, hconstruct, hN⟩ := validate_polar hvalid hcoding
    have hshaped := hc.polar.shaped
    rw [finishEncode_polar c plan a s code hcoding]
    rw [hA, ← hlen] at hconstruct
    have hL := crcLength_le a.length
    have hcw : (crcAttach c s a).length = a.length + crcLength a.length := crcAttach_length c hc.crc s a (by omega)
    have hu := hshaped.allocate_length _ _ _ _ hconstruct hcw
    have hx := hshaped.encode_length _ _ _ _ hconstruct hu
    have he := hshaped.rateMatch_length _ _ _ _ hconstruct hx
    have hsoft : 2 ≤ c.softW := hc.legal.llrW_low.trans hc.legal.softW_low
    refine { hmem with
      bitSequence := hbits
      cod := hmem.cod.write_zero (by omega)
      crcWord := hmem.crcWord.write_zero (by omega)
      allocated := hmem.allocated.write_zero (by omega)
      d := hmem.d.write_zero (by rw [List.length_map]; omega)
      dRange := Buf.write_ranged _ _ _ _ hmem.dRange ?_ }
    intro v hv
    obtain ⟨b, -, rfl⟩ := List.mem_map.mp hv
    exact inSigned_bitInt hsoft b

/-- The writes a decode ends with: the payload in its context's elements, the valid flag in VAL_MISC[1] (R244). -/
theorem MemoryOk.unpack_valid {m : Memory} (h : MemoryOk c m) {a : List Bool} (hlen : a.length = payloadLength cfg ch)
    (hfit : a.length ≤ c.aMax) (v : Bool) :
    MemoryOk c { Machine.unpack c cfg ch a m with valMisc := (Machine.unpack c cfg ch a m).valMisc.write 1 [v] } :=
  have hunpack := h.unpack hlen hfit
  { hunpack with valMisc := hunpack.valMisc.write (by simp) }

theorem MemoryOk.write_bits {m : Memory} (h : MemoryOk c m) {a : List Bool} (hfit : a.length ≤ c.aMax) :
    MemoryOk c { m with bitSequence := m.bitSequence.write 0 a } :=
  { h with bitSequence := h.bitSequence.write_zero hfit }

theorem finishDecode_memoryOk (hc : ConfigLawful c) (h : SessionInv c s) (hmem : MemoryOk c s.mem)
    (hready : s.life = .ready) (hvalid : validate c s cfg ch = .ok plan) {llr : List Int} (hlen : llr.length = plan.E)
    (hholds : Buf.holds s.mem.llr 0 llr) : MemoryOk c (finishDecode c cfg ch plan llr s).mem := by
  obtain ⟨hA, -, -, hAMax, -⟩ := validate_bounds h hready hvalid
  cases hcoding : plan.coding with
  | small p =>
    rw [finishDecode_small c cfg ch plan llr s p hcoding]
    have haHat := smallDecode_aHat_length c plan.A llr plan.E s.thr1.toInt s.thrb.toInt
    exact (hmem.write_bits (haHat.trans_le hAMax)).unpack_valid (haHat.trans hA) (haHat.trans_le hAMax) _
  | polar code =>
    obtain ⟨hA12, -, hconstruct, hN⟩ := validate_polar hvalid hcoding
    have hshaped := hc.polar.shaped
    have hrange := Buf.ranged_of_holds hmem.llrRange hholds
    have hy := hshaped.derate_length _ _ _ _ hconstruct hlen hrange
    have hyRange := hshaped.derate_range _ _ _ _ hconstruct hlen hrange
    have hcHat := hshaped.decode_length _ _ _ _ hconstruct hy hyRange
    have hL := crcLength_le plan.A
    rw [finishDecode_polar c cfg ch plan llr s code hcoding]
    have htake : ((c.polar.decode code (c.polar.derate code llr)).take plan.A).length = plan.A := by
      rw [List.length_take]
      omega
    have hscratch : MemoryOk c { s.mem with
        d := s.mem.d.write 0 (c.polar.derate code llr)
        c := s.mem.c.write 0 (c.polar.decode code (c.polar.derate code llr)) } :=
      { hmem with
        d := hmem.d.write_zero (hy.trans_le hN)
        dRange := Buf.write_ranged _ _ _ _ hmem.dRange hyRange
        crcWord := hmem.crcWord.write_zero (hcHat.trans_le (by omega)) }
    exact (hscratch.write_bits (htake.trans_le hAMax)).unpack_valid (htake.trans hA) (htake.trans_le hAMax) _

end

/-! The whole invariant, at a configuration record. -/

/-- `Inv` at an arbitrary configuration record. -/
structure InvAt (c : Config) (s : State) : Prop where
  session : SessionInv c s
  mem : MemoryOk c s.mem

theorem inv_iff (s : State) : Inv s ↔ InvAt config s := by
  constructor
  · intro h
    exact ⟨h.session, (memoryOk_iff _ _).mpr ⟨h.wf, h.fits⟩⟩
  · intro h
    obtain ⟨hwf, hfits⟩ := (memoryOk_iff _ _).mp h.mem
    exact ⟨h.session, hwf, hfits⟩

theorem invAt_reset (c : Config) : InvAt c State.reset where
  session :=
    { uninit_zero := fun _ => ⟨rfl, rfl, rfl, rfl⟩
      no_carrier_zero := fun _ => ⟨rfl, rfl, rfl, rfl⟩
      ready_caps := nofun
      polar_invalid_zero := fun _ => ⟨rfl, rfl, rfl⟩
      polar_valid_bounds := nofun
      session_polys := fun h => absurd rfl h }
  mem := memoryOk_empty c

/-- Settles O59. -/
theorem resetHasTheInvariants : Obligations.ResetHasTheInvariants := (inv_iff _).mpr (invAt_reset config)

section
variable {c : Config} {s t : State}

/-- The invariant does not speak of ARG, CMD, RESP or of the model's own fields. -/
theorem InvAt.update (h : InvAt c s) (arg : Args) (cmd : Word) (resp : Resp) (host : List HostAct) (seen : List HostData)
    (n : Nat) :
    InvAt c { s with arg := arg, cmd := cmd, resp := resp, host := host, seen := seen, freeCount := n } :=
  ⟨{ h.session with }, h.mem⟩

/-- Every end of a command keeps the invariant. -/
theorem CommandEnd.invAt {i : Instr} (hc : ConfigLawful c) (h : InvAt c s) (hend : CommandEnd c i s (.next t)) :
    InvAt c t := by
  cases hend with
  | rejection e => exact h.update s.arg s.cmd _ s.host s.seen s.freeCount
  | queried L r1 r2 => exact h.update s.arg s.cmd _ s.host s.seen s.freeCount
  | inited thr1 thrb hi hl =>
    have hzero := h.session.no_carrier_zero (by rw [hl]; nofun)
    exact ⟨{ h.session with
      uninit_zero := nofun
      no_carrier_zero := fun _ => hzero
      ready_caps := nofun
      session_polys := fun _ => ⟨rfl, rfl⟩ }, h.mem.dropScratch⟩
  | freed hi hl =>
    exact ⟨{ h.session with
      uninit_zero := fun _ => ⟨rfl, rfl, rfl, rfl⟩
      no_carrier_zero := fun _ => ⟨rfl, rfl, rfl, rfl⟩
      ready_caps := nofun
      polar_invalid_zero := fun _ => ⟨rfl, rfl, rfl⟩
      polar_valid_bounds := nofun
      session_polys := fun hlife => absurd rfl hlife }, h.mem.dropScratch⟩
  | carrierSet mu nprb a e hi hl hcap =>
    exact ⟨{ h.session with
      uninit_zero := nofun
      no_carrier_zero := fun hlife => absurd rfl hlife
      ready_caps := fun _ => hc.legal.carrier_caps mu nprb a e hcap
      polar_invalid_zero := fun _ => ⟨rfl, rfl, rfl⟩
      polar_valid_bounds := nofun
      session_polys := fun _ => h.session.session_polys hl }, h.mem.dropScratch⟩
  | encoded cfg ch plan a hi hl hvalid hpayload =>
    exact ⟨(SessionInv.withCodingContext hc.polar.shaped h.session hl hvalid).of_same
        (sessionSame_withCodingContext _ (finishEncode_same c plan a s)) (finishEncode_polarSame c plan a s),
      finishEncode_memoryOk hc h.session h.mem hl hvalid hpayload.1⟩
  | decoded cfg ch plan llr hi hl hvalid hlen hholds =>
    exact ⟨(SessionInv.withCodingContext hc.polar.shaped h.session hl hvalid).of_same
        (sessionSame_withCodingContext _ (finishDecode_same c cfg ch plan llr s))
        (finishDecode_polarSame c cfg ch plan llr s),
      finishDecode_memoryOk hc h.session h.mem hl hvalid hlen hholds⟩

theorem execIn_invAt {i : Instr} (hc : ConfigLawful c) (h : InvAt c s) (hrun : execIn c i s = .next t) : InvAt c t :=
  CommandEnd.invAt hc h (hrun ▸ execIn_commandEnd c i s)

theorem issue_invAt (hc : ConfigLawful c) (h : InvAt c s) {w : Word} (hrun : issue (execIn c) w s = .next t) :
    InvAt c t := by
  have hcmd := h.update s.arg w s.resp s.host s.seen s.freeCount
  rcases issue_cases (execIn c) w s with ⟨e, -, hend⟩ | ⟨i, -, hend⟩
  · cases hend.symm.trans hrun
    exact hcmd.update _ _ _ _ _ _
  · exact execIn_invAt hc hcmd (hend.symm.trans hrun)

theorem hostWrite_invAt (hc : ConfigLawful c) (h : InvAt c s) {space : BitVec 4} {index : BitVec 16} {data : Word}
    (hrun : hostWrite c (execIn c) space index data s = .next t) : InvAt c t := by
  rcases hostWrite_cases c (execIn c) space index data s with
    ⟨-, -, hend⟩ | hend | ⟨k, -, hend⟩ | ⟨m, hstore, hend⟩ <;> rw [hend] at hrun
  · exact issue_invAt hc h hrun
  · cases hrun
    exact h
  · cases hrun
    exact h.update _ _ _ _ _ _
  · cases hrun
    exact ⟨{ h.session with }, hstore.memoryOk hc.legal h.mem⟩

theorem performAct_invAt (hc : ConfigLawful c) (h : InvAt c s) {act : HostAct}
    (hrun : performAct c (execIn c) act s = .next t) : InvAt c t := by
  rcases performAct_cases c (execIn c) act s with hend | ⟨space, index, data, hend⟩ | ⟨n, seen, hend⟩ | hend <;>
    rw [hend] at hrun
  · cases hrun
  · exact hostWrite_invAt hc h hrun
  · cases hrun
    exact h.update _ _ _ _ _ _
  · cases hrun
    exact (invAt_reset c).update _ _ _ _ _ _

/-- Every step at a configuration record the spec admits keeps the invariant at that record. -/
theorem stepIn_invAt (hc : ConfigLawful c) (h : InvAt c s) (hstep : stepIn c s = .next t) : InvAt c t := by
  cases hhost : s.host with
  | nil =>
    cases (runHost_idle c (execIn c) s hhost).symm.trans hstep
    exact h
  | cons act rest =>
    exact performAct_invAt hc (h.update _ _ _ _ _ _) ((runHost_act c (execIn c) s act rest hhost).symm.trans hstep)

end

/-- The record of the machine is one the spec admits, its engines included (R7, R153, R211). -/
theorem config_lawful : ConfigLawful config :=
  ⟨config_legal, refCrc_lawful, polarDefault_lawful 8 16 (by decide) (by decide)⟩

/-- Settles O58: the machine's step is the step at its record, which the spec admits. -/
theorem everyStepKeepsTheInvariants : Obligations.EveryStepKeepsTheInvariants := by
  intro s t hinv hstep
  rw [step_eq_stepIn] at hstep
  exact (inv_iff t).mpr (stepIn_invAt config_lawful ((inv_iff s).mp hinv) hstep)

end Sys2Proof.Machine
end

section
/-! The host port, act by act: what a write stores and a read gives, at every configuration record, and so at the machine's
(spec R23, R33, R38, R61, R62). -/

namespace Sys2Proof.Machine

/-! The two transactions, as steps. -/

section
variable {c : Config} {s : State} {rest : List HostAct} {space : BitVec 4} {index : BitVec 16} {data : Word} {sp : Space}

theorem stepIn_write (hhost : s.host = .write space index data :: rest) :
    stepIn c s = hostWrite c (execIn c) space index data { s with host := rest } :=
  runHost_act c (execIn c) s _ rest hhost

theorem stepIn_read (hhost : s.host = .read space index :: rest) :
    stepIn c s = .next (readAct c space index .word { s with host := rest }) :=
  runHost_act c (execIn c) s _ rest hhost

/-- A write of an element that exists (R62). -/
theorem hostWrite_element {run : Instr → State → Result} (hsp : spaceOf space = some sp)
    (hindex : index.toNat < elementCount c sp) (s : State) :
    hostWrite c run space index data s = elementWrite c run sp index.toNat data s := by
  simp only [hostWrite, hsp, if_pos hindex]

/-- A read of a specified element gives its data and changes nothing (R62). -/
theorem readAct_specified {w : Word} (hsp : spaceOf space = some sp) (hindex : index.toNat < elementCount c sp)
    (hdata : elementData s sp index.toNat = some w) (present : Word → HostData) :
    readAct c space index present s = { s with seen := present w :: s.seen } := by
  simp only [readAct, hostRead, hsp, if_pos hindex, hdata]

/-- A read of an unspecified element gives an arbitrary value, and counts it (R33). -/
theorem readAct_unspecified (hsp : spaceOf space = some sp) (hindex : index.toNat < elementCount c sp)
    (hdata : elementData s sp index.toNat = none) (present : Word → HostData) :
    readAct c space index present s =
      { s with seen := present (arbitraryData c sp s.freeCount) :: s.seen, freeCount := s.freeCount + 1 } := by
  simp only [readAct, hostRead, hsp, if_pos hindex, hdata]

theorem stepIn_read_specified {w : Word} (hhost : s.host = .read space index :: rest) (hsp : spaceOf space = some sp)
    (hindex : index.toNat < elementCount c sp) (hdata : elementData s sp index.toNat = some w) :
    stepIn c s = .next { s with host := rest, seen := .word w :: s.seen } := by
  have hdata' : elementData { s with host := rest } sp index.toNat = some w := by
    rw [← hdata]
    cases sp <;> rfl
  rw [stepIn_read hhost, readAct_specified hsp hindex hdata']

theorem stepIn_read_unspecified (hhost : s.host = .read space index :: rest) (hsp : spaceOf space = some sp)
    (hindex : index.toNat < elementCount c sp) (hdata : elementData s sp index.toNat = none) :
    stepIn c s = .next { s with
      host := rest, seen := .word (arbitraryData c sp s.freeCount) :: s.seen, freeCount := s.freeCount + 1 } := by
  have hdata' : elementData { s with host := rest } sp index.toNat = none := by
    rw [← hdata]
    cases sp <;> rfl
  rw [stepIn_read hhost, readAct_unspecified hsp hindex hdata']

theorem readGives {w : Word} (hhost : s.host = .read space index :: rest) (hsp : spaceOf space = some sp)
    (hindex : index.toNat < elementCount config sp) (hdata : elementData s sp index.toNat = some w) :
    ReadGives s rest w :=
  (step_eq_stepIn s).trans (stepIn_read_specified hhost hsp hindex hdata)

theorem readGivesArbitrary (hhost : s.host = .read space index :: rest) (hsp : spaceOf space = some sp)
    (hindex : index.toNat < elementCount config sp) (hdata : elementData s sp index.toNat = none) :
    ReadGivesArbitrary s rest (arbitraryData config sp s.freeCount) :=
  (step_eq_stepIn s).trans (stepIn_read_unspecified hhost hsp hindex hdata)

/-! What a write stores. -/

/-- A write of one element stores it and no other (R10). -/
theorem Buf.stores_write {α : Type} (b : Buf α) (i : Nat) (v : α) : Buf.stores b (b.write i [v]) i v := by
  constructor
  · rw [Buf.read_write_inside b [v] i i (Nat.le_refl i) (Nat.lt_succ_self i), Nat.sub_self]
    rfl
  · intro k hk
    apply Buf.read_write_outside
    simp only [List.length_singleton]
    omega

theorem stepIn_write_valAck (hhost : s.host = .write 1 index data :: rest) (hindex : index.toNat < c.aMax) :
    ∃ b, stepIn c s = .next { s with host := rest, mem := { s.mem with valAck := b } } ∧
      Buf.stores s.mem.valAck b index.toNat (data.getLsbD 0) :=
  ⟨_, (stepIn_write hhost).trans (hostWrite_element (sp := .valAck) rfl hindex _), Buf.stores_write _ _ _⟩

theorem stepIn_write_valCsi1 (hhost : s.host = .write 2 index data :: rest) (hindex : index.toNat < c.aMax) :
    ∃ b, stepIn c s = .next { s with host := rest, mem := { s.mem with valCsi1 := b } } ∧
      Buf.stores s.mem.valCsi1 b index.toNat (data.getLsbD 0) :=
  ⟨_, (stepIn_write hhost).trans (hostWrite_element (sp := .valCsi1) rfl hindex _), Buf.stores_write _ _ _⟩

theorem stepIn_write_valMisc (hhost : s.host = .write 3 index data :: rest) (hindex : index.toNat < 2) :
    ∃ b, stepIn c s = .next { s with host := rest, mem := { s.mem with valMisc := b } } ∧
      Buf.stores s.mem.valMisc b index.toNat (data.getLsbD 0) :=
  ⟨_, (stepIn_write hhost).trans (hostWrite_element (sp := .valMisc) rfl hindex _), Buf.stores_write _ _ _⟩

theorem stepIn_write_cod (hhost : s.host = .write 4 index data :: rest) (hindex : index.toNat < c.eMax) :
    ∃ b, stepIn c s = .next { s with host := rest, mem := { s.mem with cod := b } } ∧
      Buf.stores s.mem.cod b index.toNat (data.getLsbD 0) :=
  ⟨_, (stepIn_write hhost).trans (hostWrite_element (sp := .cod) rfl hindex _), Buf.stores_write _ _ _⟩

theorem stepIn_write_llr (hhost : s.host = .write 5 index data :: rest) (hindex : index.toNat < c.eMax) :
    ∃ b, stepIn c s = .next { s with host := rest, mem := { s.mem with llr := b } } ∧
      Buf.stores s.mem.llr b index.toNat (data.setWidth c.llrW).toInt :=
  ⟨_, (stepIn_write hhost).trans (hostWrite_element (sp := .llr) rfl hindex _), Buf.stores_write _ _ _⟩

/-- CSR 8 to CSR 15 are ARG0 to ARG7 (R23). -/
theorem stepIn_write_arg (hhost : s.host = .write 0 index data :: rest) (hlow : 8 ≤ index.toNat)
    (hhigh : index.toNat ≤ 15) :
    stepIn c s = .next { s with host := rest, arg := writeArg (index.toNat - 8) data s.arg } := by
  have hcount : index.toNat < elementCount c .csr := by
    show index.toNat < 64
    omega
  rw [stepIn_write hhost, hostWrite_element (sp := .csr) rfl hcount, elementWrite, csrWrite, if_neg (by omega),
    if_pos ⟨hlow, hhigh⟩]

end

/-- A write of ARG k changes that operand register alone (R24). -/
theorem get_writeArg {k : Nat} (hk : k < 8) (v : Word) (a : Args) (j : Nat) :
    (writeArg k v a).get j = if j = k then v else a.get j := by
  interval_cases k <;> match j with
    | 0 | 1 | 2 | 3 | 4 | 5 | 6 | 7 => rfl
    | _ + 8 => rfl

theorem get_writeArg_same {k : Nat} (hk : k < 8) (v : Word) (a : Args) : (writeArg k v a).get k = v := by
  rw [get_writeArg hk, if_pos rfl]

theorem get_writeArg_ne {k : Nat} (hk : k < 8) (v : Word) (a : Args) {j : Nat} (hj : j ≠ k) :
    (writeArg k v a).get j = a.get j := by
  rw [get_writeArg hk, if_neg hj]

/-- The write of ARG k, as the act names it (R23, R103). -/
theorem step_argWrite {s : State} {rest : List HostAct} {k : Nat} (hk : k < 8) {data : Word}
    (hhost : s.host = argWrite k data :: rest) :
    step s = .next { s with host := rest, arg := writeArg k data s.arg } := by
  have hindex : (BitVec.ofNat 16 (8 + k)).toNat = 8 + k := by
    rw [BitVec.toNat_ofNat, Nat.mod_eq_of_lt (by omega)]
  rw [step_eq_stepIn, stepIn_write_arg hhost (by omega) (by omega), hindex, Nat.add_sub_cancel_left]

/-- Settles O8: one clause for each space HOST can write, at the machine's record. -/
theorem hostWritesStoreOneElement : Obligations.HostWritesStoreOneElement := by
  intro s rest index data
  refine ⟨fun k hk hhost => ⟨_, step_argWrite hk hhost, get_writeArg_same hk _ _, fun j _ hj => get_writeArg_ne hk _ _ hj⟩,
    ?_, ?_, ?_, ?_, ?_⟩ <;> rw [step_eq_stepIn]
  · exact stepIn_write_valAck
  · exact stepIn_write_valCsi1
  · exact stepIn_write_valMisc
  · exact stepIn_write_cod
  · exact stepIn_write_llr

/-- A CSR that is neither CMD nor an operand register ignores a write (R62). -/
theorem hostWrite_readOnlyCsr {c : Config} {run : Instr → State → Result} {index : BitVec 16} {data : Word} (s : State)
    (hcmd : index ≠ 0) (harg : ¬ (8 ≤ index.toNat ∧ index.toNat ≤ 15)) : hostWrite c run 0 index data s = .next s := by
  have hindex : index.toNat ≠ 0 := fun h => hcmd (BitVec.eq_of_toNat_eq h)
  by_cases hcount : index.toNat < elementCount c .csr
  · rw [hostWrite_element (sp := .csr) rfl hcount, elementWrite, csrWrite, if_neg hindex, if_neg harg]
  · exact hostWrite_missing run data s (missingElement_of_count rfl (Nat.le_of_not_lt hcount))

/-- The four scratch spaces ignore writes (R62). -/
theorem hostWrite_scratch {c : Config} {run : Instr → State → Result} {space : BitVec 4} {index : BitVec 16} {data : Word}
    (s : State) (hspace : space = 8 ∨ space = 9 ∨ space = 10 ∨ space = 11) :
    hostWrite c run space index data s = .next s := by
  rcases hspace with rfl | rfl | rfl | rfl <;> exact ite_self _

/-- Settles O9: the read-only registers and the scratch spaces, whatever the index. -/
theorem readOnlyElementsIgnoreWrites : Obligations.ReadOnlyElementsIgnoreWrites := by
  rintro s rest space index data hhost (⟨rfl, hcmd, harg⟩ | hscratch) <;> rw [step_eq_stepIn, stepIn_write hhost]
  · exact hostWrite_readOnlyCsr _ hcmd harg
  · exact hostWrite_scratch _ hscratch

/-! What a read gives. -/

theorem bitData_eq (b : Bool) : bitData b = if b then 1 else 0 := by
  cases b <;> rfl

/-- The indices from 26 on are reserved (R38). -/
theorem csrRead_reserved (s : State) {i : Nat} (hi : 26 ≤ i) : csrRead s i = 0 := by
  obtain ⟨n, rfl⟩ := Nat.exists_eq_add_of_le' hi
  rfl

/-- A read of a CSR gives the register of its index (R23). -/
theorem csrRead_eq_values (s : State) (i : Nat) : csrRead s i = (csrValues s).getD i 0 := by
  by_cases hi : i < 26
  · have hstatus : csrRead s 1 = (csrValues s).getD 1 0 := by
      show BitVec.ofNat 32 (lifeCode s.life + 4 * s.polarValid.toNat) = _ + _
      cases s.life <;> cases s.polarValid <;> rfl
    by_cases hone : i = 1
    · rw [hone, hstatus]
    · interval_cases i <;> first | exact absurd rfl hone | rfl
  · rw [csrRead_reserved s (by omega), List.getD_eq_default]
    simpa [csrValues] using hi

section
variable {s : State} {rest : List HostAct} {space : BitVec 4} {index : BitVec 16} {sp : Space} {n : Nat}

/-- A specified bit is read zero-extended (R62). -/
theorem readGives_bit {buf : Buf Bool} (hsp : spaceOf space = some sp) (hcount : elementCount config sp = n)
    (hdata : elementData s sp index.toNat = (Buf.read buf index.toNat).map bitData) (b : Bool)
    (hhost : s.host = .read space index :: rest) (hindex : index.toNat < n) (hread : Buf.read buf index.toNat = some b) :
    ReadGives s rest (if b then 1 else 0) := by
  rw [← bitData_eq]
  exact readGives hhost hsp (hcount ▸ hindex) (by rw [hdata, hread, Option.map_some])

/-- A specified soft value is read sign-extended (R62). -/
theorem readGives_soft {buf : Buf Int} (hsp : spaceOf space = some sp) (hcount : elementCount config sp = n)
    (hdata : elementData s sp index.toNat = (Buf.read buf index.toNat).map (BitVec.ofInt 32)) (v : Int)
    (hhost : s.host = .read space index :: rest) (hindex : index.toNat < n) (hread : Buf.read buf index.toNat = some v) :
    ReadGives s rest (BitVec.ofInt 32 v) :=
  readGives hhost hsp (hcount ▸ hindex) (by rw [hdata, hread, Option.map_some])

end

/-- Settles O11, space by space. -/
theorem hostReadsGiveTheElement : Obligations.HostReadsGiveTheElement := by
  intro s rest index
  exact ⟨fun hhost hindex => readGives hhost (sp := .csr) rfl hindex (congrArg some (csrRead_eq_values s _)),
    readGives_bit (sp := .valAck) rfl rfl rfl, readGives_bit (sp := .valCsi1) rfl rfl rfl,
    readGives_bit (sp := .valMisc) rfl rfl rfl, readGives_bit (sp := .cod) rfl rfl rfl,
    readGives_soft (sp := .llr) rfl rfl rfl, readGives_bit (sp := .bitSequence) rfl rfl rfl,
    readGives_bit (sp := .c) rfl rfl rfl, readGives_bit (sp := .allocated) rfl rfl rfl,
    readGives_soft (sp := .d) rfl rfl rfl⟩

/-! Two steps: a write and a read of the same element. -/

/-- A run of any machine goes on from the state its first step answers. -/
theorem coreRun_succ {M : Host.Core} {s t : M.State} (hstep : M.step s = .next t) (n : Nat) :
    M.run (n + 1) s = M.run n t := by
  rw [Host.Core.run, hstep]

/-- A run of one step ends as the step does. -/
theorem coreRun_one (M : Host.Core) (s : M.State) : M.run 1 s = M.step s := by
  rw [Host.Core.run]
  cases M.step s <;> rfl

theorem run_succ_of_next {s t : State} (hstep : step s = .next t) (n : Nat) :
    Host.Core.run Sys2Proof.core (n + 1) s = Host.Core.run Sys2Proof.core n t :=
  coreRun_succ (M := Sys2Proof.core) hstep n

theorem run_one (s : State) : Host.Core.run Sys2Proof.core 1 s = step s := coreRun_one Sys2Proof.core s

theorem run_two {s t u : State} (hfirst : step s = .next t) (hsecond : step t = .next u) :
    Host.Core.run Sys2Proof.core 2 s = .next u :=
  (run_succ_of_next hfirst 1).trans ((run_one t).trans hsecond)

/-- The bit a write of a bit space stores, as a read of it gives it back (R62). -/
theorem bitData_dataBit (data : Word) : bitData (data.getLsbD 0) = data &&& 1 := by
  apply BitVec.eq_of_toNat_eq
  have hmod := Nat.mod_two_eq_zero_or_one data.toNat
  rw [BitVec.getLsbD, bitData, BitVec.toNat_and, BitVec.toNat_ofNat, Nat.testBit_zero]
  show _ = data.toNat &&& 1
  rw [Nat.and_one_is_mod]
  rcases hmod with h | h <;> rw [h] <;> rfl

section
variable {s t : State} {rest : List HostAct} {space : BitVec 4} {index : BitVec 16} {data : Word} {sp : Space}

/-- After a step that leaves HOST the read of an element, the read gives the element's data. -/
theorem run_write_read {w : Word} (hfirst : step s = .next t) (hhost : t.host = .read space index :: rest)
    (hseen : t.seen = s.seen) (hsp : spaceOf space = some sp) (hindex : index.toNat < elementCount config sp)
    (hdata : elementData t sp index.toNat = some w) :
    ∃ u, Host.Core.run Sys2Proof.core 2 s = .next u ∧ u.host = rest ∧ u.seen = .word w :: s.seen :=
  ⟨_, run_two hfirst (readGives hhost hsp hindex hdata), rfl, by rw [hseen]⟩

/-- CSR 8 + k reads ARG k (R23). -/
theorem csrRead_arg (s : State) {i : Nat} (hlow : 8 ≤ i) (hhigh : i ≤ 15) : csrRead s i = s.arg.get (i - 8) := by
  interval_cases i <;> rfl

end

/-- Settles O13: what each space stored is what its read gives. -/
theorem writtenElementsReadBack : Obligations.WrittenElementsReadBack := by
  intro s rest space index data hhost
  refine ⟨?_, ?_, ?_⟩
  · rintro ⟨rfl, hlow, hhigh⟩
    have hfirst := (step_eq_stepIn s).trans (stepIn_write_arg hhost hlow hhigh)
    have hcount : index.toNat < elementCount config .csr := by
      show index.toNat < 64
      omega
    refine run_write_read hfirst rfl rfl (sp := .csr) rfl hcount (congrArg some ?_)
    rw [csrRead_arg _ hlow hhigh, get_writeArg_same (by omega)]
  · rw [← bitData_dataBit]
    rintro (⟨rfl, hindex⟩ | ⟨rfl, hindex⟩ | ⟨rfl, hindex⟩ | ⟨rfl, hindex⟩)
    · obtain ⟨b, hfirst, hstored, -⟩ := stepIn_write_valAck (c := config) hhost hindex
      exact run_write_read ((step_eq_stepIn s).trans hfirst) rfl rfl (sp := .valAck) rfl hindex
        (congrArg (Option.map bitData) hstored)
    · obtain ⟨b, hfirst, hstored, -⟩ := stepIn_write_valCsi1 (c := config) hhost hindex
      exact run_write_read ((step_eq_stepIn s).trans hfirst) rfl rfl (sp := .valCsi1) rfl hindex
        (congrArg (Option.map bitData) hstored)
    · obtain ⟨b, hfirst, hstored, -⟩ := stepIn_write_valMisc (c := config) hhost hindex
      exact run_write_read ((step_eq_stepIn s).trans hfirst) rfl rfl (sp := .valMisc) rfl hindex
        (congrArg (Option.map bitData) hstored)
    · obtain ⟨b, hfirst, hstored, -⟩ := stepIn_write_cod (c := config) hhost hindex
      exact run_write_read ((step_eq_stepIn s).trans hfirst) rfl rfl (sp := .cod) rfl hindex
        (congrArg (Option.map bitData) hstored)
  · rintro ⟨rfl, hindex⟩
    obtain ⟨b, hfirst, hstored, -⟩ := stepIn_write_llr (c := config) hhost hindex
    exact run_write_read ((step_eq_stepIn s).trans hfirst) rfl rfl (sp := .llr) rfl hindex
      (congrArg (Option.map (BitVec.ofInt 32)) hstored)

/-! Reads of unspecified elements. -/

theorem bitData_zero_or_one (b : Bool) : bitData b = 0 ∨ bitData b = 1 := by
  cases b
  · exact .inl rfl
  · exact .inr rfl

section
variable {s : State} {rest : List HostAct} {space : BitVec 4} {index : BitVec 16} {sp : Space} {n : Nat}

/-- An unspecified bit is read as one of the two bits (R33). -/
theorem readGivesArbitrary_bit {buf : Buf Bool} (hsp : spaceOf space = some sp) (hcount : elementCount config sp = n)
    (hdata : elementData s sp index.toNat = (Buf.read buf index.toNat).map bitData)
    (hfree : ∃ b, arbitraryData config sp s.freeCount = bitData b)
    (hhost : s.host = .read space index :: rest) (hindex : index.toNat < n) (hread : Buf.read buf index.toNat = none) :
    ReadGivesArbitrary s rest 0 ∨ ReadGivesArbitrary s rest 1 := by
  have hgives := readGivesArbitrary hhost hsp (hcount ▸ hindex) (by rw [hdata, hread, Option.map_none])
  obtain ⟨b, hb⟩ := hfree
  rw [hb] at hgives
  rcases bitData_zero_or_one b with h | h <;> rw [h] at hgives
  · exact .inl hgives
  · exact .inr hgives

/-- An unspecified soft value is read as a value of its width (R33). -/
theorem readGivesArbitrary_soft {buf : Buf Int} {w : Nat} (hw : 1 ≤ w) (hsp : spaceOf space = some sp)
    (hcount : elementCount config sp = n)
    (hdata : elementData s sp index.toNat = (Buf.read buf index.toNat).map (BitVec.ofInt 32))
    (hfree : arbitraryData config sp s.freeCount = BitVec.ofInt 32 (signedOf w (Config.freeElement s.freeCount)))
    (hhost : s.host = .read space index :: rest) (hindex : index.toNat < n) (hread : Buf.read buf index.toNat = none) :
    ∃ v : Int, -2 ^ (w - 1) ≤ v ∧ v ≤ 2 ^ (w - 1) - 1 ∧ ReadGivesArbitrary s rest (BitVec.ofInt 32 v) := by
  have hgives := readGivesArbitrary hhost hsp (hcount ▸ hindex) (by rw [hdata, hread, Option.map_none])
  obtain ⟨hlow, hhigh⟩ := signedOf_range w hw (Config.freeElement s.freeCount)
  exact ⟨_, hlow, Int.le_sub_one_of_lt hhigh, hfree ▸ hgives⟩

end

/-- Settles O14: the arbitrary value is a bit, or a soft value of its space's width, whatever the free constant answers. -/
theorem unspecifiedReadsKeepTheElementType : Obligations.UnspecifiedReadsKeepTheElementType := by
  intro s rest index
  exact ⟨readGivesArbitrary_bit (sp := .valAck) rfl rfl rfl ⟨_, rfl⟩,
    readGivesArbitrary_bit (sp := .valCsi1) rfl rfl rfl ⟨_, rfl⟩,
    readGivesArbitrary_bit (sp := .valMisc) rfl rfl rfl ⟨_, rfl⟩,
    readGivesArbitrary_bit (sp := .cod) rfl rfl rfl ⟨_, rfl⟩,
    readGivesArbitrary_soft (sp := .llr) (w := 8) (by decide) rfl rfl rfl rfl,
    readGivesArbitrary_bit (sp := .bitSequence) rfl rfl rfl ⟨_, rfl⟩,
    readGivesArbitrary_bit (sp := .c) rfl rfl rfl ⟨_, rfl⟩,
    readGivesArbitrary_bit (sp := .allocated) rfl rfl rfl ⟨_, rfl⟩,
    readGivesArbitrary_soft (sp := .d) (w := 16) (by decide) rfl rfl rfl rfl⟩

end Sys2Proof.Machine
end

section
/-! The step as a whole: the write of CMD, the refusals and what they name, the byte-addressed wrapper, the hardware reset,
the assembled statements, and the configuration record as a parameter (spec R16, R33, R40, R64, R65, R103, R235). -/

namespace Sys2Proof.Machine

/-- Settles O5: the write of CMD issues its frame, and a placed frame is written next. -/
theorem stepRunsTheDecodedCommand : Obligations.StepRunsTheDecodedCommand :=
  ⟨fun _ _ _ _ => step_writeCmd_decoded,
    fun s f _ hdecode => step_writeCmd_decoded (s := placeFrame f s) (placeFrame_host f s) hdecode⟩

/-! Refusals of commands. -/

/-- A range read fails only where an element of the range is unspecified (R33). -/
theorem Buf.readRange_eq_none {α : Type} {b : Buf α} {n : Nat} (h : Buf.readRange b 0 n = none) :
    ∃ k, k < n ∧ Buf.read b k = none := by
  by_contra hspecified
  push Not at hspecified
  obtain ⟨vs, hvs⟩ := Buf.readRange_isSome b 0 n fun k hk => by
    rw [Nat.zero_add]
    exact Option.isSome_iff_ne_none.mpr (hspecified k hk)
  cases hvs.symm.trans h

theorem memRead_error_unspecified {α : Type} {sp : Space} {b : Buf α} {n : Nat} {r : Refusal}
    (h : memRead sp b 0 n = .error r) : r = .unspecifiedElement sp ∧ ∃ k, k < n ∧ Buf.read b k = none := by
  obtain ⟨hrange, hr⟩ := (memRead_eq_error _ _ _ _ _).mp h
  exact ⟨hr, Buf.readRange_eq_none hrange⟩

theorem readSr_error_unspecified {cfg : UciCfg} {m : Memory} {r : Refusal} (h : readSr cfg m = .error r) :
    r = .unspecifiedElement .valMisc ∧ cfg.sr = true ∧ Buf.read m.valMisc 0 = none := by
  unfold readSr at h
  split_ifs at h with hsr
  obtain ⟨hr, k, hk, hread⟩ := memRead_error_unspecified h
  obtain rfl : k = 0 := by omega
  exact ⟨hr, hsr, hread⟩

/-- Pack refuses by naming a space of its context with an unspecified element it reads (R33, R242). -/
theorem pack_error_unspecified {c : Config} {cfg : UciCfg} {ch : Chan} {m : Memory} {r : Refusal}
    (h : pack c cfg ch m = .error r) : ∃ sp, r = .unspecifiedElement sp ∧ EncodeReadUnspecified cfg ch m sp := by
  cases ch with
  | puschAck p =>
    obtain ⟨hr, hread⟩ := memRead_error_unspecified h
    exact ⟨_, hr, .inl ⟨rfl, nofun, hread⟩⟩
  | puschCsi1 p =>
    obtain ⟨hr, hread⟩ := memRead_error_unspecified h
    exact ⟨_, hr, .inr (.inl ⟨rfl, nofun, hread⟩)⟩
  | pucch res =>
    simp only [pack] at h
    split at h
    · cases h
    · next hack =>
      cases h
      obtain ⟨hr, hread⟩ := memRead_error_unspecified hack
      exact ⟨_, hr, .inl ⟨rfl, nofun, hread⟩⟩
    · next hcsi1 _ =>
      cases h
      obtain ⟨hr, hread⟩ := memRead_error_unspecified hcsi1
      exact ⟨_, hr, .inr (.inl ⟨rfl, nofun, hread⟩)⟩
    · next hsr _ _ =>
      cases h
      obtain ⟨hr, hflag, hread⟩ := readSr_error_unspecified hsr
      exact ⟨_, hr, .inr (.inr ⟨rfl, ⟨res, rfl⟩, hflag, hread⟩)⟩

/-- A refusal of a command names an unspecified element that an encode or a decode of READY reads (R33). -/
theorem CommandEnd.refusal_unspecified {c : Config} {i : Instr} {s : State} {r : Refusal}
    (hend : CommandEnd c i s (.refused r)) :
    s.life = .ready ∧ ∃ cfg ch,
      (i = encodeInstr cfg ch ∧ ∃ sp, r = .unspecifiedElement sp ∧ EncodeReadUnspecified cfg ch s.mem sp) ∨
      (i = decodeInstr cfg ch ∧ r = .unspecifiedElement .llr ∧ DecodeReadUnspecified c cfg ch s.mem) := by
  cases hend with
  | encodeRefused cfg ch plan r hi hl _ hr => exact ⟨hl, cfg, ch, .inl ⟨hi, pack_error_unspecified hr⟩⟩
  | decodeRefused cfg ch plan hi hl hvalid hr =>
    have hE := ((validate_eq_ok _ _ _ _ _).mp hvalid).1
    exact ⟨hl, cfg, ch, .inr ⟨hi, rfl, plan.E, hE, Buf.readRange_eq_none hr⟩⟩

/-- Settles O27: the two refusals among the ends of a command. -/
theorem refusalsNameAnUnspecifiedElement : Obligations.RefusalsNameAnUnspecifiedElement := by
  intro i s r hrun
  exact CommandEnd.refusal_unspecified (hrun ▸ exec_commandEnd i s)

/-- A command answers, or refuses (R290): no end of a command is a fault. -/
theorem exec_next_or_refused (i : Instr) (s : State) : (∃ t, exec i s = .next t) ∨ ∃ r, exec i s = .refused r := by
  cases hrun : exec i s with
  | next t => exact .inl ⟨t, rfl⟩
  | refused r => exact .inr ⟨r, rfl⟩
  | fault r => exact nomatch r

theorem encodeInstr_ne_decodeInstr (cfg cfg' : UciCfg) (ch ch' : Chan) : encodeInstr cfg ch ≠ decodeInstr cfg' ch' := by
  cases ch <;> cases ch' <;> nofun

theorem encodeInstr_inj {cfg cfg' : UciCfg} {ch ch' : Chan} (h : encodeInstr cfg ch = encodeInstr cfg' ch') :
    cfg = cfg' ∧ ch = ch' := by
  cases ch <;> cases ch' <;> cases h <;> exact ⟨rfl, rfl⟩

theorem decodeInstr_inj {cfg cfg' : UciCfg} {ch ch' : Chan} (h : decodeInstr cfg ch = decodeInstr cfg' ch') :
    cfg = cfg' ∧ ch = ch' := by
  cases ch <;> cases ch' <;> cases h <;> exact ⟨rfl, rfl⟩

/-- Settles O28: a command that does not answer refuses, and so an element it reads is unspecified. -/
theorem suppliedCodecCommandsAnswer : Obligations.SuppliedCodecCommandsAnswer := by
  intro cfg ch s _
  constructor
  · intro hspecified
    rcases exec_next_or_refused (encodeInstr cfg ch) s with hnext | ⟨r, hrefused⟩
    · exact hnext
    · obtain ⟨-, cfg', ch', ⟨hi, sp, -, hsp⟩ | ⟨hi, -⟩⟩ := refusalsNameAnUnspecifiedElement _ _ _ hrefused
      · obtain ⟨rfl, rfl⟩ := encodeInstr_inj hi
        exact absurd hsp (hspecified sp)
      · exact absurd hi (encodeInstr_ne_decodeInstr _ _ _ _)
  · intro hspecified
    rcases exec_next_or_refused (decodeInstr cfg ch) s with hnext | ⟨r, hrefused⟩
    · exact hnext
    · obtain ⟨-, cfg', ch', ⟨hi, -⟩ | ⟨hi, -, hllr⟩⟩ := refusalsNameAnUnspecifiedElement _ _ _ hrefused
      · exact absurd hi.symm (encodeInstr_ne_decodeInstr _ _ _ _)
      · obtain ⟨rfl, rfl⟩ := decodeInstr_inj hi
        exact absurd hllr hspecified

/-! Refusals of steps. -/

/-- A result that is a next state, or refuses a read of an unspecified element of a space a command reads. -/
def AnswersOrUnspecified (r : Result) : Prop :=
  (∃ t, r = .next t) ∨ ∃ sp, r = .refused (.unspecifiedElement sp) ∧ sp ∈ [Space.valAck, .valCsi1, .valMisc, .llr]

theorem exec_answersOrUnspecified (i : Instr) (s : State) : AnswersOrUnspecified (exec i s) := by
  rcases exec_next_or_refused i s with hnext | ⟨r, hrefused⟩
  · exact .inl hnext
  · obtain ⟨-, cfg, ch, ⟨-, sp, rfl, hsp⟩ | ⟨-, rfl, -⟩⟩ := refusalsNameAnUnspecifiedElement _ _ _ hrefused
    · refine .inr ⟨sp, hrefused, ?_⟩
      rcases hsp with ⟨rfl, -⟩ | ⟨rfl, -⟩ | ⟨rfl, -⟩ <;> decide
    · exact .inr ⟨.llr, hrefused, by decide⟩

theorem hostWrite_answersOrUnspecified (space : BitVec 4) (index : BitVec 16) (data : Word) (s : State) :
    AnswersOrUnspecified (hostWrite config exec space index data s) := by
  rcases hostWrite_cases config exec space index data s with ⟨-, -, hend⟩ | hend | ⟨k, -, hend⟩ | ⟨m, -, hend⟩ <;> rw [hend]
  · rcases issue_cases exec data s with ⟨e, -, hissue⟩ | ⟨i, -, hissue⟩ <;> rw [hissue]
    · exact .inl ⟨_, rfl⟩
    · exact exec_answersOrUnspecified _ _
  · exact .inl ⟨_, rfl⟩
  · exact .inl ⟨_, rfl⟩
  · exact .inl ⟨_, rfl⟩

theorem performAct_busWrite_refused (c : Config) (run : Instr → State → Result) {addr : BitVec 24} {bytes : List Byte}
    (h : busElement addr bytes.length = none) (s : State) :
    performAct c run (.busWrite addr bytes) s = .refused .notATransaction := by
  simp only [performAct, h]

theorem performAct_busRead_refused (c : Config) (run : Instr → State → Result) {addr : BitVec 24} {size : Nat}
    (h : busElement addr size = none) (s : State) :
    performAct c run (.busRead addr size) s = .refused .notATransaction := by
  simp only [performAct, h]

theorem performAct_busWrite (c : Config) (run : Instr → State → Result) {addr : BitVec 24} {bytes : List Byte}
    {e : BitVec 4 × BitVec 16} (h : busElement addr bytes.length = some e) (s : State) :
    performAct c run (.busWrite addr bytes) s = hostWrite c run e.1 e.2 (wordOfBytes bytes) s := by
  simp only [performAct, h]

theorem performAct_busRead (c : Config) (run : Instr → State → Result) {addr : BitVec 24} {size : Nat}
    {e : BitVec 4 × BitVec 16} (h : busElement addr size = some e) (s : State) :
    performAct c run (.busRead addr size) s = .next (readAct c e.1 e.2 (fun w => .bytes (bytesOfWord w)) s) := by
  simp only [performAct, h]

/-- Settles O7, act by act: only a write can run a command, and only a bus access can be no transaction. -/
theorem stepsAnswerOrNameTheirRefusal : Obligations.StepsAnswerOrNameTheirRefusal := by
  intro s
  rw [← or_assoc]
  cases hhost : s.host with
  | nil => exact .inl (.inl ⟨s, step_idle s hhost⟩)
  | cons act rest =>
    rw [step_act s act rest hhost]
    cases act with
    | write space index data => exact .inl (hostWrite_answersOrUnspecified _ _ _ _)
    | read space index => exact .inl (.inl ⟨_, rfl⟩)
    | reset => exact .inl (.inl ⟨_, rfl⟩)
    | busWrite addr bytes =>
      cases helement : busElement addr bytes.length with
      | none => exact .inr ⟨performAct_busWrite_refused _ _ helement _, rest, .inl ⟨_, _, rfl, helement⟩⟩
      | some e =>
        rw [performAct_busWrite _ _ helement]
        exact .inl (hostWrite_answersOrUnspecified _ _ _ _)
    | busRead addr size =>
      cases helement : busElement addr size with
      | none => exact .inr ⟨performAct_busRead_refused _ _ helement _, rest, .inr ⟨_, _, rfl, helement⟩⟩
      | some e => exact .inl (.inl ⟨_, performAct_busRead _ _ helement _⟩)

/-! The byte-addressed wrapper. -/

/-- A number below 2^n under one shifted by n joins to their sum. -/
theorem shiftLeft_or_of_lt {b n : Nat} (a : Nat) (hb : b < 2 ^ n) : a <<< n ||| b = a * 2 ^ n + b := by
  rw [Nat.shiftLeft_eq, Nat.mul_comm, Nat.two_pow_add_eq_or_of_lt hb]

/-- The address of an element as a number (R64). -/
theorem elementAddress_toNat (space : BitVec 4) (index : BitVec 16) :
    ((space.setWidth 24 <<< 20) ||| (index.setWidth 24 <<< 2)).toNat = space.toNat * 2 ^ 20 + index.toNat * 2 ^ 2 := by
  have hspace := space.isLt
  have hindex := index.isLt
  rw [BitVec.toNat_or, BitVec.toNat_shiftLeft, BitVec.toNat_shiftLeft, BitVec.toNat_setWidth, BitVec.toNat_setWidth,
    Nat.mod_eq_of_lt (a := space.toNat) (by omega), Nat.mod_eq_of_lt (a := index.toNat) (by omega),
    Nat.mod_eq_of_lt (a := space.toNat <<< 20) (by rw [Nat.shiftLeft_eq]; omega),
    Nat.mod_eq_of_lt (a := index.toNat <<< 2) (by rw [Nat.shiftLeft_eq]; omega), Nat.shiftLeft_eq index.toNat,
    shiftLeft_or_of_lt _ (by omega)]

/-- An aligned 32-bit access at an element's address names that element (R64). -/
theorem busElement_elementAddress (space : BitVec 4) (index : BitVec 16) :
    busElement ((space.setWidth 24 <<< 20) ||| (index.setWidth 24 <<< 2)) 4 = some (space, index) := by
  have hspace := space.isLt
  have hindex := index.isLt
  have haddr := elementAddress_toNat space index
  have hspaceBack : (space.toNat * 2 ^ 20 + index.toNat * 2 ^ 2) / 2 ^ 20 = space.toNat := by omega
  have hindexBack : BitVec.ofNat 16 ((space.toNat * 2 ^ 20 + index.toNat * 2 ^ 2) / 4) = index := by
    apply BitVec.eq_of_toNat_eq
    rw [BitVec.toNat_ofNat]
    omega
  simp only [busElement, haddr, hspaceBack, hindexBack, BitVec.ofNat_toNat, BitVec.setWidth_eq]
  exact if_pos ⟨trivial, by omega, by omega⟩

/-- An access of another size, or misaligned, names no element (R65). -/
theorem busElement_eq_none {a : BitVec 24} {size : Nat} (h : size ≠ 4 ∨ a.toNat % 4 ≠ 0) : busElement a size = none := by
  apply if_neg
  rintro ⟨hsize, halign, -⟩
  exact h.elim (absurd hsize) (absurd halign)

theorem natOfBytes_four (b0 b1 b2 b3 : Byte) :
    natOfBytes [b0, b1, b2, b3] = b0.toNat + 2 ^ 8 * (b1.toNat + 2 ^ 8 * (b2.toNat + 2 ^ 8 * b3.toNat)) := rfl

/-- Four bytes make a word, the first least significant (R64). -/
theorem wordOfBytes_four (b0 b1 b2 b3 : Byte) : wordOfBytes [b0, b1, b2, b3] = (b3 ++ b2 ++ b1 ++ b0 : BitVec 32) := by
  have h0 := b0.isLt
  have h1 := b1.isLt
  have h2 := b2.isLt
  have h3 := b3.isLt
  apply BitVec.eq_of_toNat_eq
  rw [wordOfBytes, BitVec.toNat_ofNat, natOfBytes_four, BitVec.toNat_append, BitVec.toNat_append, BitVec.toNat_append,
    shiftLeft_or_of_lt _ h0, shiftLeft_or_of_lt _ h1, shiftLeft_or_of_lt _ h2]
  omega

/-- The bytes of a word, least significant first (R64). -/
theorem bytesOfWord_eq (w : Word) :
    bytesOfWord w = [w.extractLsb 7 0, w.extractLsb 15 8, w.extractLsb 23 16, w.extractLsb 31 24] := by
  have hbyte (lo : Nat) : BitVec.ofNat 8 (w.toNat / 2 ^ lo) = BitVec.ofNat 8 (w.toNat >>> lo) := by
    rw [Nat.shiftRight_eq_div_pow]
  rw [bytesOfWord, hbyte 8, hbyte 16, hbyte 24]
  rfl

/-- A read gives HOST a word, presented as the access asks (R62, R64). -/
theorem readAct_word (c : Config) (space : BitVec 4) (index : BitVec 16) (s : State) :
    ∃ (t : State) (w : Word), ∀ present : Word → HostData,
      readAct c space index present s = { t with seen := present w :: s.seen } := by
  refine ⟨(hostRead c space index s).1, (hostRead c space index s).2, fun present => ?_⟩
  have hseen : (hostRead c space index s).1.seen = s.seen := by
    rcases hostRead_state c space index s with h | h <;> rw [h]
  rw [readAct, hseen]

/-- Settles O15: the address names the element, and the bytes are the word's, in order of significance. -/
theorem busAccessesAreWordTransactions : Obligations.BusAccessesAreWordTransactions := by
  intro s rest space index addr
  refine ⟨fun b0 b1 b2 b3 hhost => ?_, fun hhost => ?_, fun a size hsize hhost => ?_, fun a bytes hsize hhost => ?_⟩
  · rw [step_act s _ rest hhost, step_act _ (.write space index _) rest rfl,
      performAct_busWrite _ _ (busElement_elementAddress space index), wordOfBytes_four]
    rfl
  · obtain ⟨t, w, hread⟩ := readAct_word config space index { s with host := rest }
    refine ⟨{ t with seen := .word w :: s.seen }, w, ?_, rfl, ?_⟩
    · rw [step_act _ (.read space index) rest rfl]
      exact congrArg Host.Outcome.next (hread .word)
    · rw [step_act s _ rest hhost, performAct_busRead _ _ (busElement_elementAddress space index),
        hread (fun w => .bytes (bytesOfWord w)), bytesOfWord_eq]
  · rw [step_act s _ rest hhost, performAct_busRead_refused _ _ (busElement_eq_none hsize)]
  · rw [step_act s _ rest hhost, performAct_busWrite_refused _ _ (busElement_eq_none hsize)]

/-! Assembled statements. -/

/-- The writes of some operand words, performed one by one, put them in their registers and leave the others (R103). -/
theorem run_argWrites (v : Nat → Word) (ks : List Nat) (hks : ∀ k, k ∈ ks → k < 8) (s : State) (rest : List HostAct)
    (hhost : s.host = ks.map (fun k => argWrite k (v k)) ++ rest) :
    ∃ a : Args, (∀ k, k ∈ ks → a.get k = v k) ∧ (∀ k, k ∉ ks → a.get k = s.arg.get k) ∧
      ∀ n, Host.Core.run Sys2Proof.core (ks.length + n) s = Host.Core.run Sys2Proof.core n { s with host := rest, arg := a } := by
  induction ks generalizing s with
  | nil =>
    have hidle : s.host = rest := hhost
    refine ⟨s.arg, nofun, fun _ _ => rfl, fun n => ?_⟩
    rw [← hidle, List.length_nil, Nat.zero_add]
  | cons j ks ih =>
    obtain ⟨hj, hks⟩ := List.forall_mem_cons.mp hks
    obtain ⟨a, hwritten, hkept, hrun⟩ := ih hks
      { s with host := ks.map (fun k => argWrite k (v k)) ++ rest, arg := writeArg j (v j) s.arg } rfl
    refine ⟨a, fun k hk => ?_, fun k hk => ?_, fun n => ?_⟩
    · by_cases hmem : k ∈ ks
      · exact hwritten k hmem
      · obtain rfl : k = j := (List.mem_cons.mp hk).resolve_right hmem
        exact (hkept k hmem).trans (get_writeArg_same hj _ _)
    · obtain ⟨hne, hmem⟩ : k ≠ j ∧ k ∉ ks := by simpa using hk
      exact (hkept k hmem).trans (get_writeArg_ne hj _ _ hne)
    · rw [List.length_cons, Nat.add_right_comm]
      exact (run_succ_of_next (step_argWrite hj hhost) _).trans (hrun n)

theorem operandIndices_lt (i : Instr) : ∀ k, k ∈ operandIndices i → k < 8 := by
  cases i <;> simp [operandIndices]

/-- Settles O17: the operand writes leave the operand words in ARG, and the write of CMD runs the frame they make with the
header. -/
theorem assembledStatementsRun : Obligations.AssembledStatementsRun := by
  intro s rest i hwf hhost
  obtain ⟨a, hwritten, hkept, hrun⟩ := run_argWrites (fun k => (encodeArgs i).get k) (operandIndices i)
    (operandIndices_lt i) s (.write 0 0 (encode i).h :: rest)
    (by rw [hhost, assemble, operandWrites, List.append_assoc, List.singleton_append])
  refine ⟨a, hwritten, fun k _ hk => hkept k hk, ?_⟩
  have hlength : (assemble i).length = (operandIndices i).length + 1 := by simp [assemble, operandWrites]
  rw [hlength, hrun, run_one]
  exact step_writeCmd_decoded rfl (decode_operandWords hwf hwritten)

/-! The configuration record as a parameter. -/

section
variable {c : Config} {s : State} {rest : List HostAct} {space : BitVec 4} {index : BitVec 16} {data : Word}

theorem stepIn_writeCmd_decoded {i : Instr} (hhost : s.host = .write 0 0 data :: rest)
    (hdecode : decode ⟨data, s.arg⟩ = .ok i) : stepIn c s = execIn c i { s with host := rest, cmd := data } := by
  have hissue : stepIn c s = issue (execIn c) data { s with host := rest } := stepIn_write hhost
  rw [hissue, issue, hdecode]

theorem stepIn_missing (hmissing : MissingElement c space index) :
    (s.host = .write space index data :: rest → stepIn c s = .next { s with host := rest }) ∧
    (s.host = .read space index :: rest → stepIn c s = .next { s with host := rest, seen := .word 0 :: s.seen }) := by
  constructor
  · intro hhost
    rw [stepIn_write hhost, hostWrite_missing _ _ _ hmissing]
  · intro hhost
    rw [stepIn_read hhost, readAct_missing _ _ hmissing]

/-- The spaces whose counts the record sets: no element stands at or past the count (R30, R66). -/
theorem missingElement_past_count
    (h : ((space = 1 ∨ space = 2 ∨ space = 8) ∧ c.aMax ≤ index.toNat) ∨
      ((space = 4 ∨ space = 5) ∧ c.eMax ≤ index.toNat) ∨ (space = 9 ∧ c.aMax + 11 ≤ index.toNat) ∨
      ((space = 10 ∨ space = 11) ∧ c.nMax ≤ index.toNat)) : MissingElement c space index := by
  rcases h with ⟨hid, hindex⟩ | ⟨hid, hindex⟩ | ⟨rfl, hindex⟩ | ⟨hid, hindex⟩
  · exact missingElement_of_count (elementCount_aMax (by simpa using hid)) hindex
  · exact missingElement_of_count (elementCount_eMax (by simpa using hid)) hindex
  · exact missingElement_of_count rfl hindex
  · exact missingElement_of_count (elementCount_nMax (by simpa using hid)) hindex

end

/-- Settles O60: the machine is the step at its record, which is lawful, and each clause is a transaction at any record. -/
theorem theStepTakesTheRecordAsAParameter : Obligations.TheStepTakesTheRecordAsAParameter := by
  refine ⟨step_eq_stepIn, exec_eq_execIn, config_lawful, fun c s rest index data => ?_⟩
  refine ⟨fun i => stepIn_writeCmd_decoded, fun space hpast => stepIn_missing (missingElement_past_count hpast),
    stepIn_write_valAck, stepIn_write_valCsi1, stepIn_write_cod, stepIn_write_llr, fun v hhost hindex hread => ?_⟩
  exact stepIn_read_specified hhost (sp := .d) rfl hindex (congrArg (Option.map (BitVec.ofInt 32)) hread)

/-! The reset state, and the block before its first command. -/

/-- The block as reset leaves it, but for the operand registers and the five I/O spaces: UNINIT, the other registers zero,
no scratch element specified (R40). -/
structure Quiet (s : State) : Prop where
  life : s.life = .uninit
  csr : ∀ i, i < 8 ∨ 15 < i → csrRead s i = 0
  scratch : ∀ k, Buf.read s.mem.bitSequence k = none ∧ Buf.read s.mem.c k = none ∧ Buf.read s.mem.allocated k = none ∧
    Buf.read s.mem.d k = none

/-- The registers that are not operand registers do not depend on ARG, the buffers or the model's own fields. -/
theorem csrRead_update (s : State) (arg : Args) (mem : Memory) (host : List HostAct) (seen : List HostData) (n : Nat)
    {i : Nat} (hi : i < 8 ∨ 15 < i) :
    csrRead { s with arg := arg, mem := mem, host := host, seen := seen, freeCount := n } i = csrRead s i := by
  by_cases hreserved : 26 ≤ i
  · rw [csrRead_reserved _ hreserved, csrRead_reserved _ hreserved]
  · interval_cases i <;> first | rfl | omega

/-- A change of the operand registers, the I/O spaces and the model's own fields keeps the block quiet. -/
theorem Quiet.update {s : State} (h : Quiet s) (arg : Args) {mem : Memory} (host : List HostAct) (seen : List HostData)
    (n : Nat) (hbits : mem.bitSequence = s.mem.bitSequence) (hc : mem.c = s.mem.c)
    (hallocated : mem.allocated = s.mem.allocated) (hd : mem.d = s.mem.d) :
    Quiet { s with arg := arg, mem := mem, host := host, seen := seen, freeCount := n } where
  life := h.life
  csr i hi := (csrRead_update s arg mem host seen n hi).trans (h.csr i hi)
  scratch k := by
    simp only [hbits, hc, hallocated, hd]
    exact h.scratch k

theorem csrRead_reset (i : Nat) : csrRead State.reset i = 0 := by
  unfold csrRead
  split <;> rfl

theorem csrRead_hardReset (s : State) (i : Nat) : csrRead (hardReset s) i = 0 := by
  rw [← csrRead_reset i]
  rfl

theorem quiet_hardReset (s : State) : Quiet (hardReset s) where
  life := rfl
  csr i _ := csrRead_hardReset s i
  scratch _ := ⟨rfl, rfl, rfl, rfl⟩

section
variable {c : Config} {run : Instr → State → Result} {s t : State}

/-- A host write that is not the write of CMD keeps the block quiet (R62). -/
theorem hostWrite_quiet {space : BitVec 4} {index : BitVec 16} {data : Word} (h : Quiet s)
    (hcmd : ¬ (space = 0 ∧ index = 0)) (hrun : hostWrite c run space index data s = .next t) : Quiet t := by
  rcases hostWrite_cases c run space index data s with ⟨hspace, hindex, -⟩ | hend | ⟨k, -, hend⟩ | ⟨m, hstore, hend⟩
  · exact absurd ⟨hspace, hindex⟩ hcmd
  · cases hend.symm.trans hrun
    exact h
  · cases hend.symm.trans hrun
    exact h.update _ _ _ _ rfl rfl rfl rfl
  · cases hend.symm.trans hrun
    cases hstore <;> exact h.update _ _ _ _ rfl rfl rfl rfl

theorem readAct_quiet (h : Quiet s) (space : BitVec 4) (index : BitVec 16) (present : Word → HostData) :
    Quiet (readAct c space index present s) := by
  obtain ⟨n, seen, heq⟩ := readAct_eq c space index present s
  rw [heq]
  exact h.update _ _ _ _ rfl rfl rfl rfl

/-- The byte address of CMD is 0 (R64). -/
theorem busElement_cmd {addr : BitVec 24} {size : Nat} {e : BitVec 4 × BitVec 16} (h : busElement addr size = some e)
    (hcmd : e.1 = 0 ∧ e.2 = 0) : addr = 0 := by
  have hlt := addr.isLt
  simp only [busElement] at h
  split_ifs at h with haccess
  cases h
  obtain ⟨hspace, hindex⟩ := hcmd
  have hspaceNat : addr.toNat / 2 ^ 20 % 2 ^ 4 = 0 := congrArg BitVec.toNat hspace
  have hindexNat : addr.toNat / 4 % 2 ^ 16 = 0 := congrArg BitVec.toNat hindex
  have hzero : addr.toNat = 0 := by omega
  exact BitVec.eq_of_toNat_eq hzero

/-- An act that does not write CMD keeps the block quiet. -/
theorem performAct_quiet {act : HostAct} (h : Quiet s) (hwrite : ∀ w, act ≠ .write 0 0 w)
    (hbus : ∀ bytes, act ≠ .busWrite 0 bytes) (hrun : performAct c run act s = .next t) : Quiet t := by
  cases act with
  | write space index data =>
    refine hostWrite_quiet h ?_ hrun
    rintro ⟨rfl, rfl⟩
    exact hwrite data rfl
  | read space index =>
    cases hrun
    exact readAct_quiet h space index _
  | reset =>
    cases hrun
    exact quiet_hardReset s
  | busWrite addr bytes =>
    cases helement : busElement addr bytes.length with
    | none => cases (performAct_busWrite_refused c run helement s).symm.trans hrun
    | some e =>
      refine hostWrite_quiet h (fun hcmd => ?_) ((performAct_busWrite c run helement s).symm.trans hrun)
      exact hbus bytes (congrArg (HostAct.busWrite · bytes) (busElement_cmd helement hcmd))
  | busRead addr size =>
    cases helement : busElement addr size with
    | none => cases (performAct_busRead_refused c run helement s).symm.trans hrun
    | some e =>
      cases (performAct_busRead c run helement s).symm.trans hrun
      exact readAct_quiet h _ _ _

end

/-- Settles O16: reset and the hardware reset by evaluation, and the block stays quiet until CMD is written. -/
theorem resetClearsEverything : Obligations.ResetClearsEverything := by
  unfold Obligations.ResetClearsEverything
  intro cleared
  have hcleared (s : State) : cleared (hardReset s) :=
    ⟨rfl, csrRead_hardReset s, fun _ => ⟨rfl, rfl, rfl, rfl, rfl, rfl, rfl, rfl, rfl⟩⟩
  refine ⟨hcleared State.reset, step_idle _ rfl, fun s rest hhost => ⟨_, step_reset hhost, rfl, rfl, rfl, hcleared _⟩, ?_⟩
  intro s t hlife hcsr hscratch hwrite hbus hstep
  have hquiet : Quiet s := ⟨hlife, hcsr, hscratch⟩
  have hquiet' : Quiet t := by
    cases hhost : s.host with
    | nil =>
      cases (step_idle s hhost).symm.trans hstep
      exact hquiet
    | cons act rest =>
      refine performAct_quiet (s := { s with host := rest }) (hquiet.update _ _ _ _ rfl rfl rfl rfl) ?_ ?_
        ((step_act s act rest hhost).symm.trans hstep)
      · rintro w rfl
        exact hwrite w rest hhost
      · rintro bytes rfl
        exact hbus bytes rest hhost
  exact ⟨hquiet'.life, hquiet'.csr, hquiet'.scratch⟩

end Sys2Proof.Machine
end

section
/-! The whole answers of the session and query commands, and the exact ceiling they are computed with (spec R9, R123 to R135,
R238 to R241). -/

namespace Sys2Proof.Machine

/-! Session commands. -/

/-- Settles O18. -/
theorem initLatchesTheSession : Obligations.InitLatchesTheSession := by
  intro s thr1 thrb hlife
  have hmeaning : exec (.init thr1 thrb) s = initIn config thr1 thrb s := rfl
  rcases initIn_cases config thr1 thrb s with ⟨-, hend⟩ | ⟨hother, -⟩
  · rw [hmeaning, hend, respondOk_eq]
    rfl
  · exact absurd hlife hother

/-- Settles O19. -/
theorem freeReleasesTheSession : Obligations.FreeReleasesTheSession := by
  intro s hlife
  have hmeaning : exec .free s = freeIn s := rfl
  rcases freeIn_cases s with ⟨-, hend⟩ | ⟨huninit, -⟩
  · rw [hmeaning, hend, respondOk_eq]
    rfl
  · exact absurd huninit hlife

/-- The default capacities are those of the legal carriers (R241). -/
theorem carrierCap_legal {mu nprb : Nat} (h : legalCarrier mu nprb) : config.carrierCap mu nprb = some (1706, 8192) := by
  obtain ⟨hmu, hlow, hhigh⟩ := h
  exact if_neg (by omega)

theorem carrierCap_illegal {mu nprb : Nat} (h : ¬ legalCarrier mu nprb) : config.carrierCap mu nprb = none := by
  refine if_pos ?_
  unfold legalCarrier at h
  omega

/-- Settles O20: the carrier has its capacities, or none, by the default table. -/
theorem setCarrierSetsOrRejectsTheCarrier : Obligations.SetCarrierSetsOrRejectsTheCarrier := by
  intro s mu nprb hlife
  have hmeaning : exec (.setCarrier mu nprb) s = setCarrierIn config mu nprb s := rfl
  rw [hmeaning]
  constructor
  · intro hlegal
    rcases setCarrierIn_cases config mu nprb s with ⟨huninit, -⟩ | ⟨-, hnone, -⟩ | ⟨-, a, e, hcap, hend⟩
    · exact absurd huninit hlife
    · cases (carrierCap_legal hlegal).symm.trans hnone
    · cases (carrierCap_legal hlegal).symm.trans hcap
      rw [hend, respondOk_eq]
      rfl
  · intro hillegal
    rcases setCarrierIn_cases config mu nprb s with ⟨huninit, -⟩ | ⟨-, -, hend⟩ | ⟨-, a, e, hcap, -⟩
    · exact absurd huninit hlife
    · rw [hend, raise_eq]
      rfl
    · cases (carrierCap_illegal hillegal).symm.trans hcap

/-! Units of the bit budget. -/

/-- Settles O34. -/
theorem ceilDivIsTheExactCeiling : Obligations.CeilDivIsTheExactCeiling := by
  intro p q n hq
  rw [ceilDiv, Nat.div_le_iff_le_mul_add_pred hq]
  omega

/-- Settles O37: the boundaries by their conditions, the contexts by R41 (f). -/
theorem crcSelectorFollowsTheBoundaries : Obligations.CrcSelectorFollowsTheBoundaries := by
  intro s A
  refine ⟨fun hsmall => if_pos hsmall, fun hlow hhigh => ?_, fun hlarge => ?_, fun p L hselect => ?_, fun hlife hinv => ?_⟩
  · rw [crcSelect, if_neg (by omega), if_pos hhigh]
  · rw [crcSelect, if_neg (by omega), if_neg (by omega)]
  · unfold crcSelect at hselect
    split_ifs at hselect with h11 h19 <;> cases hselect
    · rw [crcLength_mid (by omega) h19]
    · rw [crcLength_large (by omega)]
  · exact hinv.session_polys (by rw [hlife]; nofun)

/-! The queries of the coded lengths. -/

/-- The response of a length query that answers E (R133 to R135). -/
theorem respondLength_ok {len : Except ErrKind Nat} {E : Nat} (h : len = .ok E) (r2 : Nat) (s : State) :
    respondLength len r2 s = { s with resp := respOf s 0 1 0 0 (BitVec.ofNat 32 E) (BitVec.ofNat 32 r2) 0 0 } := by
  rw [h]
  exact respondQuery_eq (by decide) E r2 s

theorem respondLength_error {len : Except ErrKind Nat} {e : ErrKind} (h : len = .error e) (r2 : Nat) (s : State) :
    respondLength len r2 s = { s with resp := respOf s e.code 0 0 0 0 0 0 0 } := by
  rw [h]
  exact raise_eq e s

theorem exec_qPucchE (res : PucchRes) (s : State) :
    exec (.qPucchE res) s = .next (respondLength (pucchOutputLength config res) 0 s) :=
  qPucchEIn_eq config res s

theorem exec_qPuschAckE (cfg : UciCfg) (p : PuschCfg) (s : State) :
    exec (.qPuschAckE cfg p) s = .next (respondLength (puschAckOutputLength config p cfg.oAck) cfg.oAck s) :=
  qPuschAckEIn_eq config cfg p s

theorem exec_qPuschCsi1E (cfg : UciCfg) (p : PuschCfg) (s : State) :
    exec (.qPuschCsi1E cfg p) s = .next (respondLength (puschCsi1OutputLength config p cfg) cfg.oCsi1 s) :=
  qPuschCsi1EIn_eq config cfg p s

/-! The default length table, row by row (R124). -/

theorem pucchOutputLength_some {res : PucchRes} {E : Nat} (h : pucchEDefault res = some E) :
    pucchOutputLength config res = .ok E := by
  have htable : config.pucchE res = some E := h
  simp only [pucchOutputLength, htable]

theorem pucchOutputLength_none {res : PucchRes} (h : pucchEDefault res = none) :
    pucchOutputLength config res = .error .invalidResource := by
  have htable : config.pucchE res = none := h
  simp only [pucchOutputLength, htable]

theorem pucchEDefault_format2 {res : PucchRes} (h : LegalFormat2 res) :
    pucchEDefault res = some (16 * res.nsym * res.nprb) := by
  obtain ⟨hfmt, hrow⟩ := h
  obtain ⟨-, -, -, hqm⟩ := id hrow
  simp only [pucchEDefault, hfmt]
  rw [if_pos hrow, hqm]

theorem pucchEDefault_format3 {res : PucchRes} (h : LegalFormat3 res) :
    pucchEDefault res = some (12 * res.qm * res.nsym * res.nprb) := by
  obtain ⟨hfmt, hrow⟩ := h
  simp only [pucchEDefault, hfmt]
  exact if_pos hrow

theorem pucchEDefault_format4 {res : PucchRes} (h : LegalFormat4 res) :
    pucchEDefault res = some (12 * res.qm * res.nsym / res.sf) := by
  obtain ⟨hfmt, hrow⟩ := h
  simp only [pucchEDefault, hfmt]
  exact if_pos hrow

theorem pucchEDefault_illegal {res : PucchRes} (h2 : ¬ LegalFormat2 res) (h3 : ¬ LegalFormat3 res)
    (h4 : ¬ LegalFormat4 res) : pucchEDefault res = none := by
  unfold pucchEDefault
  split
  · next hfmt => exact if_neg fun hrow => h2 ⟨hfmt, hrow⟩
  · next hfmt => exact if_neg fun hrow => h3 ⟨hfmt, hrow⟩
  · next hfmt => exact if_neg fun hrow => h4 ⟨hfmt, hrow⟩
  · rfl

/-- Settles O31, row by row. -/
theorem qPucchERespondsByTheTable : Obligations.QPucchERespondsByTheTable := by
  intro s res found
  have hfound {E : Nat} (h : pucchEDefault res = some E) : exec (.qPucchE res) s = found E := by
    rw [exec_qPucchE, respondLength_ok (pucchOutputLength_some h)]
    rfl
  refine ⟨fun h => hfound (pucchEDefault_format2 h), fun h => hfound (pucchEDefault_format3 h),
    fun h => hfound (pucchEDefault_format4 h), fun h2 h3 h4 => ?_⟩
  rw [exec_qPucchE, respondLength_error (pucchOutputLength_none (pucchEDefault_illegal h2 h3 h4))]
  rfl

/-! The default PUSCH formulas (R128, R129). -/

/-- What the two-sided gate stops is InvalidConfig (R126). -/
theorem puschGate_stops {c : Config} {p : PuschCfg} {len : Int}
    (h : ¬ (LegalPuschFields p ∧ 1 ≤ len ∧ len ≤ c.puschAlloc p)) : puschGate c p len = .error .invalidConfig := by
  cases hgate : puschGate c p len with
  | error e => rw [puschGate_error c p len e hgate]
  | ok E =>
    obtain ⟨hlegal, hpos, hlen, halloc⟩ := (puschGate_ok_iff c p len E).mp hgate
    exact absurd ⟨hlegal, by omega, by omega⟩ h

/-- What it passes is the length (R126). -/
theorem puschGate_passes {c : Config} {p : PuschCfg} {len : Int} {E : Nat} (hlegal : LegalPuschFields p) (hlow : 1 ≤ len)
    (hhigh : len ≤ c.puschAlloc p) (hlen : len = E) : puschGate c p len = .ok E :=
  (puschGate_ok_iff c p len E).mpr ⟨hlegal, by omega, hlen, by omega⟩

/-- Settles O32: the formula is the default length, and the gate decides. -/
theorem qPuschAckERespondsByTheFormula : Obligations.QPuschAckERespondsByTheFormula := by
  intro s cfg p L cap q1 E
  have hlen : config.puschAckE p cfg.oAck = (E : Int) := rfl
  have halloc : config.puschAlloc p = ((p.nLayers * p.qm * p.mSum : Nat) : Int) := rfl
  rw [exec_qPuschAckE, puschAckOutputLength, hlen]
  constructor
  · rintro ⟨hlegal, hlow, hhigh⟩
    rw [respondLength_ok (puschGate_passes hlegal (by omega) (by omega) rfl)]
  · intro hstopped
    rw [respondLength_error (puschGate_stops (by rw [halloc]; exact mod_cast hstopped))]
    rfl

/-- Settles O33: the same, the length an integer. -/
theorem qPuschCsi1ERespondsByTheFormula : Obligations.QPuschCsi1ERespondsByTheFormula := by
  intro s cfg p E O La L1 qa Qa capCsi q1 Q len
  have hlen : config.puschCsi1E p cfg.oCsi1 cfg.oAck = len := by
    show ((p.nLayers * p.qm : Nat) : Int) * Q = p.nLayers * p.qm * Q
    rw [Nat.cast_mul]
  have halloc : config.puschAlloc p = p.nLayers * p.qm * p.mSum := by
    show ((p.nLayers * p.qm * p.mSum : Nat) : Int) = _
    rw [Nat.cast_mul, Nat.cast_mul]
  rw [exec_qPuschCsi1E, puschCsi1OutputLength, hlen]
  constructor
  · rintro ⟨hlegal, hlow, hhigh, hE⟩
    rw [respondLength_ok (puschGate_passes hlegal hlow (by rw [halloc]; exact hhigh) hE)]
  · intro hstopped
    rw [respondLength_error (puschGate_stops (by rw [halloc]; exact hstopped))]
    rfl

end Sys2Proof.Machine
end

section
/-! The response registers: what each end of a command leaves in them, and what a rejection leaves of the state (spec R28,
R29, R283 to R291). -/

namespace Sys2Proof.Machine

/-! The response of each end. -/

/-- What the response registers hold after a command, by its end. -/
inductive EndResponse (c : Config) (i : Instr) (s : State) : Resp → Prop where
  | rejection (e : ErrKind) (he : e = .sequence ∨ e = .invalidResource ∨ e = .invalidConfig)
      (hp : e.code ∈ possibleErrors i) : EndResponse c i s (respOf s e.code 0 0 0 0 0 0 0)
  | session (hi : (∃ thr1 thrb, i = .init thr1 thrb) ∨ i = .free ∨ ∃ mu nprb, i = .setCarrier mu nprb) :
      EndResponse c i s (respOf s 0 1 0 0 0 0 0 0)
  | query (L : Nat) (r1 r2 : Word) (hL : L = 0 ∨ L = 6 ∨ L = 11) (ha : ∀ l, acceptedIn i l = true)
      (hp : 0 ∈ possibleErrors i) : EndResponse c i s (respOf s 0 1 0 L r1 r2 0 0)
  | encode (cfg : UciCfg) (ch : Chan) (plan : Plan) (hi : i = encodeInstr cfg ch)
      (hvalid : validate c s cfg ch = .ok plan) :
      EndResponse c i s (respOf s 0 1 (pathNumber plan.A) (crcLength plan.A) (BitVec.ofNat 32 plan.E)
        (BitVec.ofNat 32 plan.A) 0 0)
  | decode (cfg : UciCfg) (ch : Chan) (plan : Plan) (err rel : Nat) (r3 r4 : Word) (hi : i = decodeInstr cfg ch)
      (hvalid : validate c s cfg ch = .ok plan) (herr : (err = 0 ∧ rel = 1) ∨ ((err = 3 ∨ err = 4) ∧ rel = 0))
      (hpolar : pathNumber plan.A = 4 → r3 = 0 ∧ r4 = 0) :
      EndResponse c i s (respOf s err rel (pathNumber plan.A) (crcLength plan.A) (BitVec.ofNat 32 plan.E)
        (BitVec.ofNat 32 plan.A) r3 r4)

section
variable {c : Config} {i : Instr} {cfg : UciCfg} {ch : Chan} {s t : State} {plan : Plan}

theorem finishEncode_resp (hvalid : validate c s cfg ch = .ok plan) (a : List Bool) :
    (finishEncode c plan a s).resp = respOf s 0 1 (pathNumber plan.A) (crcLength plan.A) (BitVec.ofNat 32 plan.E)
      (BitVec.ofNat 32 plan.A) 0 0 := by
  obtain ⟨-, hL, hL16, hpath⟩ := validate_plan c s cfg ch plan hvalid
  obtain ⟨m, v, k, e, n, heq⟩ := finishEncode_response c plan a s hL16
  rw [heq, ← pathCode_eq_pathNumber _ _ hpath, ← hL]

theorem pathNumber_small {A : Nat} (h : A ≤ 11) : pathNumber A ≠ 4 := by
  unfold pathNumber
  split_ifs <;> omega

theorem pathNumber_polar {A : Nat} (h : 12 ≤ A) : pathNumber A = 4 := by
  unfold pathNumber
  split_ifs <;> omega

theorem pathNumber_eq_four_iff (A : Nat) : pathNumber A = 4 ↔ 12 ≤ A := by
  constructor
  · intro h
    by_contra hsmall
    exact pathNumber_small (by omega) h
  · exact pathNumber_polar

/-- A validated small-block plan is of 1 to 11 bits (R243). -/
theorem validate_small {p : Path} (hvalid : validate c s cfg ch = .ok plan) (hcoding : plan.coding = .small p) :
    1 ≤ plan.A ∧ plan.A ≤ 11 := by
  obtain ⟨-, -, -, hA, -, hchosen, -⟩ := (validate_eq_ok _ _ _ _ _).mp hvalid
  rw [hcoding] at hchosen
  rcases chooseCoding_eq_ok c _ _ _ hchosen with ⟨h, -⟩ | ⟨h, -⟩ | ⟨-, h, -⟩ | ⟨-, code, hk, -⟩
  · omega
  · omega
  · omega
  · cases hk

theorem endResponse_finishDecode (hi : i = decodeInstr cfg ch) (hvalid : validate c s cfg ch = .ok plan)
    (llr : List Int) : EndResponse c i s (finishDecode c cfg ch plan llr s).resp := by
  obtain ⟨-, hL, hL16, hpath⟩ := validate_plan c s cfg ch plan hvalid
  have hnumber := pathCode_eq_pathNumber _ _ hpath
  cases hcoding : plan.coding with
  | small p =>
    obtain ⟨err, rel, r3, r4, m, v, k, e, n, hfields, heq⟩ := finishDecode_response c cfg ch plan llr s hL16
    have herr : (err = 0 ∧ rel = 1) ∨ ((err = 3 ∨ err = 4) ∧ rel = 0) := by
      rcases hfields with ⟨he, hr⟩ | ⟨he, hr, -⟩ | ⟨he, hr, -⟩ <;> omega
    have hsmall := pathNumber_small (validate_small hvalid hcoding).2
    rw [heq, hnumber, hL]
    exact .decode cfg ch plan err rel r3 r4 hi hvalid herr fun hpolar => absurd hpolar hsmall
  | polar code =>
    rw [hcoding] at hnumber
    rw [finishDecode_polar c cfg ch plan llr s code hcoding]
    simp only [respond_eq _ _ _ _ _ _ _ _ _ hL16]
    cases hpass : (crcCheckSplit c s plan.A (c.polar.decode code (c.polar.derate code llr))).2
    · have h := EndResponse.decode (c := c) (i := i) (s := s) cfg ch plan 3 0 0 0 hi hvalid (by decide) fun _ => ⟨rfl, rfl⟩
      rwa [← hnumber, ← hL] at h
    · have h := EndResponse.decode (c := c) (i := i) (s := s) cfg ch plan 0 1 0 0 hi hvalid (by decide) fun _ => ⟨rfl, rfl⟩
      rwa [← hnumber, ← hL] at h

/-- A session command that succeeded, in whatever state it leaves (R238 to R240). -/
theorem endResponse_respondOk (hcmd : t.cmd = s.cmd)
    (hi : (∃ thr1 thrb, i = .init thr1 thrb) ∨ i = .free ∨ ∃ mu nprb, i = .setCarrier mu nprb) :
    EndResponse c i s (respondOk t).resp := by
  have hresp : (respondOk t).resp = respOf s 0 1 0 0 0 0 0 0 := by
    rw [respondOk_eq]
    exact respOf_congr s t hcmd _ _ _ _ _ _ _ _
  rw [hresp]
  exact .session hi

/-- Every end of a command leaves one of these responses. -/
theorem CommandEnd.endResponse (hend : CommandEnd c i s (.next t)) : EndResponse c i s t.resp := by
  cases hend with
  | rejection e he hp => exact .rejection e he hp
  | inited thr1 thrb hi => exact endResponse_respondOk rfl (.inl ⟨thr1, thrb, hi⟩)
  | freed hi => exact endResponse_respondOk rfl (.inr (.inl hi))
  | carrierSet mu nprb a e hi => exact endResponse_respondOk rfl (.inr (.inr ⟨mu, nprb, hi⟩))
  | queried L r1 r2 hL ha hp => exact .query L r1 r2 hL ha hp
  | encoded cfg ch plan a hi _ hvalid =>
    rw [finishEncode_resp hvalid]
    exact .encode cfg ch plan hi hvalid
  | decoded cfg ch plan llr hi _ hvalid => exact endResponse_finishDecode hi hvalid llr

theorem execIn_endResponse (hrun : execIn c i s = .next t) : EndResponse c i s t.resp :=
  CommandEnd.endResponse (hrun ▸ execIn_commandEnd c i s)

theorem exec_endResponse (hrun : exec i s = .next t) : EndResponse config i s t.resp :=
  CommandEnd.endResponse (hrun ▸ exec_commandEnd i s)

end

/-! RESP0, field by field. -/

theorem pathNumber_le (A : Nat) : pathNumber A ≤ 4 := by
  unfold pathNumber
  split_ifs <;> decide

/-- The fields of RESP0 as R28 allows them. -/
structure ResponseFields (s : State) (r : Resp) : Prop where
  opc : opcField r.r0 = s.cmd.toNat % 16
  reserved : slice r.r0 16 16 = 0
  err : errField r.r0 ≤ 5
  path : pathField r.r0 ≤ 4
  crcLen : crcLenField r.r0 = 0 ∨ crcLenField r.r0 = 6 ∨ crcLenField r.r0 = 11
  rel : relField r.r0 = 1 ↔ errField r.r0 = 0

theorem responseFields_respOf (s : State) {err rel path L : Nat} (r1 r2 r3 r4 : Word) (herr : err ≤ 5) (hrel : rel < 2)
    (hpath : path ≤ 4) (hL : L = 0 ∨ L = 6 ∨ L = 11) (hok : rel = 1 ↔ err = 0) :
    ResponseFields s (respOf s err rel path L r1 r2 r3 r4) := by
  obtain ⟨h1, h2, h3, h4, h5, h6⟩ := respOf_fields s err rel path L r1 r2 r3 r4 (by omega) hrel (by omega) (by omega)
  exact ⟨h5, h6, by rwa [h1], by rwa [h3], by rwa [h4], by rwa [h1, h2]⟩

theorem EndResponse.fields {c : Config} {i : Instr} {s : State} {r : Resp} (h : EndResponse c i s r) :
    ResponseFields s r := by
  cases h with
  | rejection e he =>
    rcases he with rfl | rfl | rfl <;>
      exact responseFields_respOf s _ _ _ _ (by decide) (by decide) (by decide) (by decide) (by decide)
  | session => exact responseFields_respOf s _ _ _ _ (by decide) (by decide) (by decide) (by decide) (by decide)
  | query L r1 r2 hL => exact responseFields_respOf s _ _ _ _ (by decide) (by decide) (by decide) hL (by decide)
  | encode cfg ch plan =>
    exact responseFields_respOf s _ _ _ _ (by decide) (by decide) (pathNumber_le _) (crcLength_value _) (by decide)
  | decode cfg ch plan err rel r3 r4 _ _ herr =>
    exact responseFields_respOf s _ _ _ _ (by omega) (by omega) (pathNumber_le _) (crcLength_value _) (by omega)

/-! The other registers, and the old contents. -/

theorem validate_update_resp (c : Config) (s : State) (cfg : UciCfg) (ch : Chan) (r : Resp) :
    validate c { s with resp := r } cfg ch = validate c s cfg ch :=
  validate_congr c s { s with resp := r } cfg ch rfl rfl

theorem finishEncode_update_resp (c : Config) (plan : Plan) (a : List Bool) (s : State) (r : Resp) :
    finishEncode c plan a { s with resp := r } = finishEncode c plan a s := by
  cases hcoding : plan.coding with
  | small p => rw [finishEncode_small _ _ _ _ p hcoding, finishEncode_small _ _ _ _ p hcoding]; rfl
  | polar code => rw [finishEncode_polar _ _ _ _ code hcoding, finishEncode_polar _ _ _ _ code hcoding]; rfl

theorem finishDecode_update_resp (c : Config) (cfg : UciCfg) (ch : Chan) (plan : Plan) (llr : List Int) (s : State)
    (r : Resp) : finishDecode c cfg ch plan llr { s with resp := r } = finishDecode c cfg ch plan llr s := by
  cases hcoding : plan.coding with
  | small p => rw [finishDecode_small _ _ _ _ _ _ p hcoding, finishDecode_small _ _ _ _ _ _ p hcoding]; rfl
  | polar code => rw [finishDecode_polar _ _ _ _ _ _ code hcoding, finishDecode_polar _ _ _ _ _ _ code hcoding]; rfl

theorem codecEncode_update_resp (c : Config) (cfg : UciCfg) (ch : Chan) (s : State) (r : Resp) :
    codecEncode c cfg ch { s with resp := r } = codecEncode c cfg ch s := by
  simp only [codecEncode, whenAccepted, encodeRun, validate_update_resp, finishEncode_update_resp]
  rfl

theorem codecDecode_update_resp (c : Config) (cfg : UciCfg) (ch : Chan) (s : State) (r : Resp) :
    codecDecode c cfg ch { s with resp := r } = codecDecode c cfg ch s := by
  simp only [codecDecode, whenAccepted, decodeRun, validate_update_resp, finishDecode_update_resp]
  rfl

/-- No command reads the response registers, and every end overwrites all five (R29, R283). -/
theorem execIn_update_resp (c : Config) (i : Instr) (s : State) (r : Resp) :
    execIn c i { s with resp := r } = execIn c i s := by
  cases i with
  | encPucch cfg res => exact codecEncode_update_resp c cfg (.pucch res) s r
  | decPucch cfg res => exact codecDecode_update_resp c cfg (.pucch res) s r
  | encPuschAck cfg p => exact codecEncode_update_resp c cfg (.puschAck p) s r
  | decPuschAck cfg p => exact codecDecode_update_resp c cfg (.puschAck p) s r
  | encPuschCsi1 cfg p => exact codecEncode_update_resp c cfg (.puschCsi1 p) s r
  | decPuschCsi1 cfg p => exact codecDecode_update_resp c cfg (.puschCsi1 p) s r
  | _ => rfl

section
variable {c : Config} {i : Instr} {s : State} {r : Resp}

/-- A response that is a rejection is the one of `raise` (R283, R284). -/
theorem EndResponse.of_rejected (h : EndResponse c i s r) (hrejected : rejected r) :
    ∃ e : ErrKind, e.code ∈ possibleErrors i ∧ r = respOf s e.code 0 0 0 0 0 0 0 := by
  cases h with
  | rejection e _ hp => exact ⟨e, hp, rfl⟩
  | session =>
    exact absurd hrejected (not_rejected_respOf s _ _ _ _ (.inl rfl) (by decide) (by decide) (by decide))
  | query L r1 r2 hL =>
    exact absurd hrejected (not_rejected_respOf s _ _ _ _ (.inl rfl) (by decide) (by decide) (by omega))
  | encode cfg ch plan =>
    have hpath := pathNumber_le plan.A
    exact absurd hrejected (not_rejected_respOf s _ _ _ _ (.inl rfl) (by decide) (by omega) (crcLength_lt _))
  | decode cfg ch plan err rel r3 r4 _ _ herr =>
    have hpath := pathNumber_le plan.A
    exact absurd hrejected (not_rejected_respOf s _ _ _ _ (by omega) (by omega) (by omega) (crcLength_lt _))

theorem rejected_respOf_rejection {e : ErrKind} (he : e = .sequence ∨ e = .invalidResource ∨ e = .invalidConfig) :
    rejected (respOf s e.code 0 0 0 0 0 0 0) := by
  rw [rejected, errField_rejection]
  rcases he with rfl | rfl | rfl <;> decide

/-- A codec command that is not rejected passed validation, and reports the path, the CRC length, E and A of its plan
(R29, R254). -/
theorem EndResponse.of_codec {cfg : UciCfg} {ch : Chan} (h : EndResponse c i s r)
    (hi : i = encodeInstr cfg ch ∨ i = decodeInstr cfg ch) (hcompleted : ¬ rejected r) :
    ∃ plan err rel r3 r4, validate c s cfg ch = .ok plan ∧ err < 16 ∧ rel < 2 ∧
      r = respOf s err rel (pathNumber plan.A) (crcLength plan.A) (BitVec.ofNat 32 plan.E) (BitVec.ofNat 32 plan.A) r3 r4 := by
  have hcodec : ∃ l, acceptedIn i l = false := by
    refine ⟨.uninit, ?_⟩
    rcases hi with rfl | rfl <;> cases ch <;> rfl
  cases h with
  | rejection e he => exact absurd (rejected_respOf_rejection he) hcompleted
  | session hs =>
    rcases hi with rfl | rfl <;> rcases hs with ⟨_, _, hs⟩ | hs | ⟨_, _, hs⟩ <;> cases ch <;> cases hs
  | query L r1 r2 hL ha =>
    obtain ⟨l, hl⟩ := hcodec
    cases (ha l).symm.trans hl
  | encode cfg' ch' plan hi' hvalid =>
    rcases hi with rfl | rfl
    · obtain ⟨rfl, rfl⟩ := encodeInstr_inj hi'
      exact ⟨plan, 0, 1, 0, 0, hvalid, by decide, by decide, rfl⟩
    · exact absurd hi'.symm (encodeInstr_ne_decodeInstr _ _ _ _)
  | decode cfg' ch' plan err rel r3 r4 hi' hvalid herr =>
    rcases hi with rfl | rfl
    · exact absurd hi' (encodeInstr_ne_decodeInstr _ _ _ _)
    · obtain ⟨rfl, rfl⟩ := decodeInstr_inj hi'
      exact ⟨plan, err, rel, r3, r4, hvalid, by omega, by omega, rfl⟩

/-- A rejection and a session command report no lengths (R29). -/
theorem EndResponse.lengths_zero (h : EndResponse c i s r)
    (hi : rejected r ∨ (∃ thr1 thrb, i = .init thr1 thrb) ∨ i = .free ∨ ∃ mu nprb, i = .setCarrier mu nprb) :
    r.r1 = 0 ∧ r.r2 = 0 := by
  rcases hi with hrejected | hsession
  · obtain ⟨e, -, rfl⟩ := h.of_rejected hrejected
    exact ⟨rfl, rfl⟩
  · have hmoves : ∃ l, acceptedIn i l = false := by
      rcases hsession with ⟨_, _, rfl⟩ | rfl | ⟨_, _, rfl⟩
      · exact ⟨.ready, rfl⟩
      · exact ⟨.uninit, rfl⟩
      · exact ⟨.uninit, rfl⟩
    cases h with
    | rejection e => exact ⟨rfl, rfl⟩
    | session => exact ⟨rfl, rfl⟩
    | query L r1 r2 hL ha =>
      obtain ⟨l, hl⟩ := hmoves
      cases (ha l).symm.trans hl
    | encode cfg ch plan hi =>
      rcases hsession with ⟨_, _, rfl⟩ | rfl | ⟨_, _, rfl⟩ <;> cases ch <;> cases hi
    | decode cfg ch plan err rel r3 r4 hi =>
      rcases hsession with ⟨_, _, rfl⟩ | rfl | ⟨_, _, rfl⟩ <;> cases ch <;> cases hi

/-- Only a small-block decode reports a statistic and a magnitude sum (R29). -/
theorem EndResponse.statistic_zero (h : EndResponse c i s r)
    (hother : rejected r ∨ pathField r.r0 = 4 ∨ ∀ cfg ch, i ≠ decodeInstr cfg ch) : r.r3 = 0 ∧ r.r4 = 0 := by
  cases h with
  | rejection e => exact ⟨rfl, rfl⟩
  | session => exact ⟨rfl, rfl⟩
  | query L r1 r2 => exact ⟨rfl, rfl⟩
  | encode cfg ch plan => exact ⟨rfl, rfl⟩
  | decode cfg ch plan err rel r3 r4 hi hvalid herr hpolar =>
    have hpath := pathNumber_le plan.A
    have hL := crcLength_lt plan.A
    rcases hother with hrejected | hfour | hnot
    · exact absurd hrejected (not_rejected_respOf s _ _ _ _ (by omega) (by omega) (by omega) hL)
    · obtain ⟨-, -, hfield, -⟩ := respOf_fields s err rel (pathNumber plan.A) (crcLength plan.A) (BitVec.ofNat 32 plan.E)
        (BitVec.ofNat 32 plan.A) r3 r4 (by omega) (by omega) (by omega) hL
      exact hpolar (hfield.symm.trans hfour)
    · exact absurd hi (hnot cfg ch)

end

/-- A field of a word by its highest and its lowest bit, as the decoder's slice (R9). -/
theorem bitsOf_opcode (w : Word) : bitsOf w 3 0 = w.toNat % 16 := by
  rw [← slice_eq_bitsOf w 0 3, slice, pow_zero, Nat.div_one]
  rfl

theorem getLsbD_four_iff (w : Word) : w.getLsbD 4 = true ↔ relField w = 1 := by
  rw [← sliceBit_eq, sliceBit, relField, beq_iff_eq]

/-- Settles O23: the old contents are never read, and the response of each end is read field by field. -/
theorem everyCommandWritesAWholeResponse : Obligations.EveryCommandWritesAWholeResponse := by
  intro i s t hrun
  have hend := exec_endResponse hrun
  have hfields := hend.fields
  have hpath : pathField t.resp.r0 = bitsOf t.resp.r0 7 5 := slice_eq_bitsOf _ 5 2
  refine ⟨fun r => ?_, ⟨?_, ?_, ?_, ?_, ?_, ?_⟩, fun cfg ch hi hcompleted => ?_, hend.lengths_zero,
    hpath ▸ hend.statistic_zero⟩
  · rw [exec_eq_execIn, execIn_update_resp, ← exec_eq_execIn, hrun]
  · rw [bitsOf_opcode, ← hfields.opc]
    exact (slice_eq_bitsOf _ 12 3).symm
  · exact (slice_eq_bitsOf _ 16 15).symm.trans hfields.reserved
  · exact (slice_eq_bitsOf _ 0 3).symm.trans_le hfields.err
  · exact hpath ▸ hfields.path
  · have hL := hfields.crcLen
    rw [crcLenField, slice_eq_bitsOf _ 8 3] at hL
    simpa using hL
  · rw [getLsbD_four_iff, hfields.rel, errField, slice_eq_bitsOf _ 0 3]
  · obtain ⟨plan, err, rel, r3, r4, hvalid, -, -, hresp⟩ := hend.of_codec hi hcompleted
    obtain ⟨hE, -, hA, -⟩ := (validate_eq_ok _ _ _ _ _).mp hvalid
    rw [hresp, ← hA]
    exact ⟨plan.E, hE, rfl, rfl⟩

/-- Settles O24: a rejection is the end that wrote RESP alone, with its error code. -/
theorem rejectionsLeaveTheState : Obligations.RejectionsLeaveTheState := by
  intro i s t hrun hrejected
  have hend : CommandEnd config i s (.next t) := hrun ▸ exec_commandEnd i s
  rcases hend.rejection_or_not_rejected with ⟨e, -, rfl⟩ | hcompleted
  · rw [errField_rejection]
  · exact absurd hrejected hcompleted

theorem EndResponse.errField_mem {c : Config} {i : Instr} {s : State} {r : Resp} (h : EndResponse c i s r) :
    errField r.r0 ∈ possibleErrors i := by
  cases h with
  | rejection e _ hp => rwa [errField_rejection]
  | session hi =>
    rw [(respOf_fields s 0 1 0 0 _ _ _ _ (by decide) (by decide) (by decide) (by decide)).1]
    rcases hi with ⟨_, _, rfl⟩ | rfl | ⟨_, _, rfl⟩ <;> simp [possibleErrors]
  | query L r1 r2 hL ha hp =>
    rwa [(respOf_fields s 0 1 0 L _ _ _ _ (by decide) (by decide) (by decide) (by omega)).1]
  | encode cfg ch plan hi =>
    have hpath := pathNumber_le plan.A
    rw [(respOf_fields s 0 1 _ _ _ _ _ _ (by decide) (by decide) (by omega) (crcLength_lt _)).1, hi]
    cases ch <;> simp [possibleErrors, encodeInstr]
  | decode cfg ch plan err rel r3 r4 hi hvalid herr =>
    have hpath := pathNumber_le plan.A
    rw [(respOf_fields s err rel _ _ _ _ _ _ (by omega) (by omega) (by omega) (crcLength_lt _)).1, hi]
    have hcode : err = 0 ∨ err = 3 ∨ err = 4 := by omega
    rcases hcode with rfl | rfl | rfl <;> cases ch <;> simp [possibleErrors, decodeInstr]

/-- Settles O25: the error of each end stands in the row of its command. -/
theorem commandsEndInTheirOwnErrors : Obligations.CommandsEndInTheirOwnErrors :=
  fun _ _ _ hrun => (exec_endResponse hrun).errField_mem

/-- Settles O26: each end's updates are of other fields. -/
theorem commandsKeepTheOperandRegisters : Obligations.CommandsKeepTheOperandRegisters := by
  intro i s t hrun
  have hend : CommandEnd config i s (.next t) := hrun ▸ exec_commandEnd i s
  cases hend with
  | encoded cfg ch plan a =>
    have hsame := finishEncode_same config plan a s
    exact ⟨hsame.arg, hsame.cmd, hsame.host, hsame.seen, hsame.freeCount⟩
  | decoded cfg ch plan llr =>
    have hsame := finishDecode_same config cfg ch plan llr s
    exact ⟨hsame.arg, hsame.cmd, hsame.host, hsame.seen, hsame.freeCount⟩
  | _ => exact ⟨rfl, rfl, rfl, rfl, rfl⟩

/-! Path and CRC length, by the payload length alone. -/

/-- Settles O54: a completed codec command reports the path number and the CRC length of its payload. -/
theorem sameLengthSamePath : Obligations.SameLengthSamePath := by
  intro c cfg ch i s t hi hrun hcompleted A
  obtain ⟨plan, err, rel, r3, r4, hvalid, herr, hrel, hresp⟩ := (execIn_endResponse hrun).of_codec hi hcompleted
  have hA : plan.A = A := (validate_plan c s cfg ch plan hvalid).1
  rw [hA] at hresp
  have hpathLe := pathNumber_le A
  obtain ⟨-, -, hpath, hL, -⟩ := respOf_fields s err rel (pathNumber A) (crcLength A) (BitVec.ofNat 32 plan.E)
    (BitVec.ofNat 32 A) r3 r4 herr hrel (by omega) (crcLength_lt A)
  rw [hresp, hpath, hL, pathNumber_eq_four_iff]
  have hcrc : crcLength A ≠ 0 ↔ 12 ≤ A := by
    constructor
    · intro h
      by_contra hsmall
      exact h (crcLength_small (by omega))
    · intro h
      have := crcLength_ge_six h
      omega
  exact ⟨rfl, rfl, hcrc.symm, Iff.rfl⟩

/-! Validation. -/

section
variable {c : Config} {cfg : UciCfg} {ch : Chan} {s : State} {i : Instr}

/-- In READY a codec command whose validation fails is rejected with the error (R245, R283). -/
theorem execIn_validate_error {e : ErrKind} (hready : s.life = .ready) (hi : i = encodeInstr cfg ch ∨ i = decodeInstr cfg ch)
    (hvalid : validate c s cfg ch = .error e) :
    execIn c i s = .next { s with resp := respOf s e.code 0 0 0 0 0 0 0 } := by
  have haccept := (accept_codec s.life).mpr hready
  rw [← raise_eq]
  rcases hi with rfl | rfl
  · simp only [execIn_encodeInstr, codecEncode, whenAccepted, haccept, if_true, encodeRun, hvalid]
  · simp only [execIn_decodeInstr, codecDecode, whenAccepted, haccept, if_true, decodeRun, hvalid]

/-- The failing length function decides first (R245). -/
theorem validate_length_error {e : ErrKind} (h : codedLength c cfg ch = .error e) : validate c s cfg ch = .error e := by
  simp only [validate, h]

/-- Past the length function every failing check is InvalidConfig (R245). -/
theorem validate_invalidConfig {E : Nat} (hE : codedLength c cfg ch = .ok E)
    (hfails : ∀ plan, validate c s cfg ch ≠ .ok plan) : validate c s cfg ch = .error .invalidConfig := by
  cases hvalid : validate c s cfg ch with
  | ok plan => exact absurd hvalid (hfails plan)
  | error e =>
    rcases validate_error c s cfg ch e hvalid with ⟨-, res, rfl, hnone⟩ | rfl
    · have herror : codedLength c cfg (.pucch res) = .error .invalidResource := by
        simp only [codedLength, pucchOutputLength, hnone]
      cases herror.symm.trans hE
    · rfl

/-- A plan that validation passes meets none of the later causes (R245). -/
theorem validate_ok_excludes {E : Nat} {plan : Plan} (hE : codedLength c cfg ch = .ok E)
    (hvalid : validate c s cfg ch = .ok plan) :
    E ≤ s.capE ∧ payloadLength cfg ch ≠ 0 ∧ payloadLength cfg ch ≤ s.capA ∧
      (12 ≤ payloadLength cfg ch →
        ∃ code, c.polar.construct (payloadLength cfg ch + crcLength (payloadLength cfg ch)) E = some code ∧
          code.N ≤ c.nMax) := by
  obtain ⟨hplanE, hcapE, hA, hpos, hcapA, hchosen, -⟩ := (validate_eq_ok _ _ _ _ _).mp hvalid
  cases hE.symm.trans hplanE
  rw [← hA]
  refine ⟨hcapE, by omega, hcapA, fun hlong => ?_⟩
  rcases chooseCoding_eq_ok c _ _ _ hchosen with ⟨h, -⟩ | ⟨h, -⟩ | ⟨-, h, -⟩ | ⟨-, code, -, hconstruct, hN⟩
  · omega
  · omega
  · omega
  · exact ⟨code, hconstruct, hN⟩

end

/-- Settles O48: the length function's error first, then InvalidConfig for each of the later causes. -/
theorem validationRejectsInItsOrder : Obligations.ValidationRejectsInItsOrder := by
  intro c cfg ch s i hready hi rejectedAs A
  have hreject {e : ErrKind} (hvalid : validate c s cfg ch = .error e) : rejectedAs e.code :=
    execIn_validate_error hready hi hvalid
  refine ⟨?_, ?_, ?_⟩
  · rintro res rfl hnone
    refine hreject (e := .invalidResource) (validate_length_error ?_)
    simp only [codedLength, pucchOutputLength, hnone]
  · intro hchan hfails
    cases hlen : codedLength c cfg ch with
    | ok E => exact absurd hlen (hfails E)
    | error e =>
      rcases codedLength_error c cfg ch e hlen with ⟨-, res, hpucch, -⟩ | ⟨rfl, -⟩
      · exact absurd hpucch (hchan res)
      · exact hreject (e := .invalidConfig) (validate_length_error hlen)
  · intro E hE hcause
    refine hreject (e := .invalidConfig) (validate_invalidConfig hE fun plan hvalid => ?_)
    obtain ⟨hcapE, hzero, hcapA, hcode⟩ := validate_ok_excludes hE hvalid
    rcases hcause with h | h | h | ⟨hlong, hnone⟩ | ⟨hlong, code, hconstruct, hN⟩
    · omega
    · exact hzero h
    · omega
    · obtain ⟨code, hconstruct, -⟩ := hcode hlong
      cases hnone.symm.trans hconstruct
    · obtain ⟨code', hconstruct', hN'⟩ := hcode hlong
      cases hconstruct.symm.trans hconstruct'
      omega

end Sys2Proof.Machine
end

section
/-! The reference CRC engine: two words that differ in one bit leave different remainders, because the generator has a
constant term (spec R155). -/

namespace Sys2Proof.Machine

/-! One step of the division. -/

/-- What a step of the division makes of the bits after the leading one (R155). -/
def divideStep (taps : List Bool) (b : Bool) (r : List Bool) : List Bool := if b then xorPrefix r taps else r

theorem crcDivide_cons (taps : List Bool) (n : Nat) (b : Bool) (r : List Bool) :
    crcDivide taps (n + 1) (b :: r) = crcDivide taps n (divideStep taps b r) := rfl

theorem divideStep_length (taps : List Bool) (b : Bool) (r : List Bool) : (divideStep taps b r).length = r.length := by
  unfold divideStep
  split
  · exact xorPrefix_length r taps
  · rfl

/-- The shorter sequence is added onto the front of the longer one, bit by bit. -/
theorem xorPrefix_getD (r taps : List Bool) (hlen : taps.length ≤ r.length) (j : Nat) :
    (xorPrefix r taps).getD j false = (r.getD j false ^^ taps.getD j false) := by
  induction r generalizing taps j with
  | nil =>
    obtain rfl := List.length_eq_zero_iff.mp (Nat.le_zero.mp hlen)
    simp [xorPrefix]
  | cons b r ih =>
    cases taps with
    | nil => simp [xorPrefix]
    | cons t taps =>
      cases j with
      | zero => simp [xorPrefix]
      | succ j => simpa [xorPrefix] using ih taps (by simpa using hlen) j

theorem divideStep_getD {taps r : List Bool} (hlen : taps.length ≤ r.length) (b : Bool) (j : Nat) :
    (divideStep taps b r).getD j false = (r.getD j false ^^ (b && taps.getD j false)) := by
  cases b
  · simp [divideStep]
  · rw [Bool.true_and, ← xorPrefix_getD r taps hlen j]
    rfl

theorem ne_of_getD_ne {r r' : List Bool} {j : Nat} (h : r.getD j false ≠ r'.getD j false) : r ≠ r' := by
  rintro rfl
  exact h rfl

/-! Two divisions side by side. -/

section
variable {taps : List Bool}

/-- Two words that differ only within the first L bits leave different remainders: where the leading bits are equal the
same is added to both, and where they differ the generator's constant term tells the words apart one place further. -/
theorem crcDivide_ne_of_window (hpos : 1 ≤ taps.length) (hconst : taps.getD (taps.length - 1) false = true) (n : Nat)
    (r r' : List Bool) (hr : r.length = n + taps.length) (hr' : r'.length = n + taps.length)
    (hdiffer : ∃ j, j < taps.length ∧ r.getD j false ≠ r'.getD j false)
    (hagree : ∀ j, taps.length ≤ j → r.getD j false = r'.getD j false) : crcDivide taps n r ≠ crcDivide taps n r' := by
  induction n generalizing r r' with
  | zero =>
    obtain ⟨j, -, hj⟩ := hdiffer
    exact ne_of_getD_ne hj
  | succ n ih =>
    obtain ⟨b, t, rfl⟩ := List.exists_of_length_succ (n := n + taps.length) r (by omega)
    obtain ⟨b', t', rfl⟩ := List.exists_of_length_succ (n := n + taps.length) r' (by omega)
    have ht : t.length = n + taps.length := by simp at hr; omega
    have ht' : t'.length = n + taps.length := by simp at hr'; omega
    rw [crcDivide_cons, crcDivide_cons]
    refine ih _ _ ((divideStep_length _ _ _).trans ht) ((divideStep_length _ _ _).trans ht') ?_ fun j hj => ?_
    · by_cases hlead : b = b'
      · obtain ⟨j, hj, hne⟩ := hdiffer
        obtain ⟨j, rfl⟩ : ∃ i, j = i + 1 := by
          refine Nat.exists_eq_succ_of_ne_zero ?_
          rintro rfl
          exact hne hlead
        refine ⟨j, by omega, ?_⟩
        rw [divideStep_getD (by omega), divideStep_getD (by omega), hlead]
        simpa using hne
      · have hnext := hagree taps.length (Nat.le_refl _)
        obtain ⟨l, hl⟩ : ∃ l, taps.length = l + 1 := ⟨taps.length - 1, by omega⟩
        refine ⟨l, by omega, ?_⟩
        rw [hl, Nat.add_sub_cancel] at hconst
        rw [hl, List.getD_cons_succ, List.getD_cons_succ] at hnext
        rw [divideStep_getD (by omega), divideStep_getD (by omega), hconst, hnext]
        simpa using hlead
    · have hlater : t.getD j false = t'.getD j false := hagree (j + 1) (by omega)
      have hpast : taps.getD j false = false := List.getD_eq_default _ _ hj
      rw [divideStep_getD (by omega), divideStep_getD (by omega), hlater, hpast, Bool.and_false, Bool.and_false]

/-- Two words that differ in one bit of the payload leave different remainders: the division reaches that bit with the
words equal before and after it. -/
theorem crcDivide_ne_of_single (hpos : 1 ≤ taps.length) (hconst : taps.getD (taps.length - 1) false = true) (k n : Nat)
    (hk : k < n) (r r' : List Bool) (hr : r.length = n + taps.length) (hr' : r'.length = n + taps.length)
    (hsingle : ∀ j, r.getD j false ≠ r'.getD j false ↔ j = k) : crcDivide taps n r ≠ crcDivide taps n r' := by
  have hsame {j : Nat} (hj : j ≠ k) : r.getD j false = r'.getD j false := not_ne_iff.mp (mt (hsingle j).mp hj)
  induction k generalizing n r r' with
  | zero =>
    exact crcDivide_ne_of_window hpos hconst n r r' hr hr' ⟨0, hpos, (hsingle 0).mpr rfl⟩ fun j hj => hsame (by omega)
  | succ k ih =>
    obtain ⟨n, rfl⟩ : ∃ m, n = m + 1 := ⟨n - 1, by omega⟩
    obtain ⟨b, t, rfl⟩ := List.exists_of_length_succ (n := n + taps.length) r (by omega)
    obtain ⟨b', t', rfl⟩ := List.exists_of_length_succ (n := n + taps.length) r' (by omega)
    have ht : t.length = n + taps.length := by simp at hr; omega
    have ht' : t'.length = n + taps.length := by simp at hr'; omega
    have hlead : b = b' := hsame (j := 0) (by omega)
    have hstep (j : Nat) :
        (divideStep taps b t).getD j false ≠ (divideStep taps b' t').getD j false ↔ j = k := by
      have htail := hsingle (j + 1)
      rw [List.getD_cons_succ, List.getD_cons_succ, Nat.add_right_cancel_iff] at htail
      rw [divideStep_getD (by omega), divideStep_getD (by omega), hlead, ← htail]
      simp
    rw [crcDivide_cons, crcDivide_cons]
    exact ih n (by omega) _ _ ((divideStep_length _ _ _).trans ht) ((divideStep_length _ _ _).trans ht') hstep
      fun hj => not_ne_iff.mp (mt (hstep _).mp hj)

end

/-! The engine. -/

/-- The L parity bits of a payload (R155). -/
def refParity (g : Word) (L : Nat) (a : List Bool) : List Bool :=
  crcDivide (crcTaps g L) a.length (a ++ List.replicate L false)

theorem refAttach_eq (g : Word) (L : Nat) (a : List Bool) : refAttach g L a = a ++ refParity g L a := rfl

theorem refParity_length (g : Word) (L : Nat) (a : List Bool) : (refParity g L a).length = L := by
  simp [refParity, crcDivide_length]

/-- The check recomputes the parity of the payload (R155). -/
theorem refCheck_append (g : Word) {L : Nat} (a : List Bool) {p : List Bool} (hp : p.length = L) :
    refCheck g L (a ++ p) = (refParity g L a == p) := by
  have htake : (a ++ p).take ((a ++ p).length - L) = a := by simp [hp]
  rw [refCheck, htake, refAttach_eq, Bool.eq_iff_iff, beq_iff_eq, beq_iff_eq, List.append_cancel_left_eq]

theorem modify_not_ne {l : List Bool} {k : Nat} (hk : k < l.length) : l ≠ l.modify k not := by
  intro h
  have hget := congrArg (fun l => l[k]?) h
  simp [hk] at hget

theorem getD_modify_not {l : List Bool} {k : Nat} (hk : k < l.length) (j : Nat) :
    l.getD j false ≠ (l.modify k not).getD j false ↔ j = k := by
  simp only [List.getD_eq_getElem?_getD, List.getElem?_modify]
  by_cases hj : k = j
  · subst hj
    simp [hk]
  · simp [hj, Ne.symm hj]

/-- A change of one bit of two joined sequences is a change of one of them. -/
theorem modify_append (l l' : List Bool) (k : Nat) :
    (l ++ l').modify k not = if k < l.length then l.modify k not ++ l' else l ++ l'.modify (k - l.length) not := by
  apply List.ext_getElem?
  intro j
  by_cases hk : k < l.length <;> by_cases hj : j < l.length
  · simp [hk, hj, List.getElem?_append, List.getElem?_modify, List.getElem_modify]
  · have hne : k ≠ j := by omega
    simp [hk, hj, hne, List.getElem?_append]
  · have hne : k ≠ j := by omega
    simp [hk, hj, hne, List.getElem?_append]
  · have hiff : k - l.length = j - l.length ↔ k = j := by omega
    simp [hk, hj, hiff, List.getElem?_append, List.getElem?_modify]

theorem crcTaps_length (g : Word) (L : Nat) : (crcTaps g L).length = L := by simp [crcTaps]

/-- The last of the taps is the constant term. -/
theorem crcTaps_last {g : Word} {L : Nat} (hL : 1 ≤ L) : (crcTaps g L).getD (L - 1) false = g.toNat.testBit 0 := by
  have hlast : L - 1 < L := by omega
  simp [crcTaps, List.getD_eq_getElem?_getD, hlast]

/-- A wrong payload bit changes the parity, for a generator with a constant term. -/
theorem refParity_modify_ne {g : Word} {L : Nat} (hL : 1 ≤ L) (hg : g.toNat.testBit 0 = true) {a : List Bool} {k : Nat}
    (hk : k < a.length) : refParity g L (a.modify k not) ≠ refParity g L a := by
  have hsingle (j : Nat) : (a ++ List.replicate L false).getD j false ≠
      (a.modify k not ++ List.replicate L false).getD j false ↔ j = k := by
    have happend : a.modify k not ++ List.replicate L false = (a ++ List.replicate L false).modify k not :=
      ((modify_append a _ k).trans (if_pos hk)).symm
    rw [happend]
    exact getD_modify_not (by rw [List.length_append]; omega) j
  rw [refParity, refParity, List.length_modify, ne_comm]
  refine crcDivide_ne_of_single ?_ ?_ k a.length hk _ _ ?_ ?_ hsingle
  · rwa [crcTaps_length]
  · rw [crcTaps_length, crcTaps_last hL, hg]
  · rw [crcTaps_length, List.length_append, List.length_replicate]
  · rw [crcTaps_length, List.length_append, List.length_replicate, List.length_modify]

/-- A single wrong bit, in the payload or in the parity, fails the check. -/
theorem refCheck_modify {g : Word} {L : Nat} (hL : 1 ≤ L) (hg : g.toNat.testBit 0 = true) {a : List Bool} {k : Nat}
    (hk : k < a.length + L) : refCheck g L ((refAttach g L a).modify k not) = false := by
  rw [refAttach_eq]
  by_cases hpayload : k < a.length
  · rw [modify_append, if_pos hpayload, refCheck_append g _ (refParity_length g L a)]
    exact beq_false_of_ne (refParity_modify_ne hL hg hpayload)
  · have hparity : k - a.length < (refParity g L a).length := by
      rw [refParity_length]
      omega
    rw [modify_append, if_neg hpayload, refCheck_append g a (by rw [List.length_modify, refParity_length])]
    exact beq_false_of_ne (modify_not_ne hparity)

/-- Settles O38: both generators have a constant term. -/
theorem referenceCrcDetectsSingleBitErrors : Obligations.ReferenceCrcDetectsSingleBitErrors :=
  fun _ _ => ⟨fun _ _ hk => refCheck_modify (by decide) (by decide) hk,
    fun _ hk => refCheck_modify (by decide) (by decide) hk⟩

end Sys2Proof.Machine
end

section
/-! The decision unit's quantities: the correlation is bounded by the magnitude sum, silence has correlation 0, and with the
default tables some candidate correlates non-negatively (spec R177 to R191). -/

namespace Sys2Proof.Machine

/-! The correlation of a codeword. -/

theorem correlate_cons (b : Bool) (e : List Bool) (v : Int) (llr : List Int) :
    correlate (b :: e) (v :: llr) = pm b * v + correlate e llr := rfl

theorem magnitudeSum_cons (v : Int) (llr : List Int) : magnitudeSum (v :: llr) = v.natAbs + magnitudeSum llr := by
  simp [magnitudeSum]

/-- The signs do not raise the magnitude (R181). -/
theorem correlate_natAbs_le (e : List Bool) (llr : List Int) : (correlate e llr).natAbs ≤ magnitudeSum llr := by
  induction e generalizing llr with
  | nil => simp [correlate]
  | cons b e ih =>
    cases llr with
    | nil => simp [correlate]
    | cons v llr =>
      have hrest := ih llr
      rw [correlate_cons, magnitudeSum_cons]
      cases b <;> simp only [pm, if_true, Bool.false_eq_true, if_false] <;> omega

theorem magnitudeSum_le {llr : List Int} {bound : Nat} (h : ∀ v ∈ llr, v.natAbs ≤ bound) :
    magnitudeSum llr ≤ bound * llr.length := by
  induction llr with
  | nil => simp [magnitudeSum]
  | cons v llr ih =>
    obtain ⟨hv, hrest⟩ := List.forall_mem_cons.mp h
    rw [magnitudeSum_cons, List.length_cons, Nat.mul_succ]
    have := ih hrest
    omega

theorem correlate_silence (e : List Bool) (E : Nat) : correlate e (List.replicate E 0) = 0 := by
  have h := correlate_natAbs_le e (List.replicate E 0)
  have hsum : magnitudeSum (List.replicate E 0) = 0 := by simp [magnitudeSum]
  omega

/-- The correlation of a codeword with its own noiseless LLRs is the whole magnitude (R192). -/
theorem correlate_noiseless (e : List Bool) (M : Int) : correlate e (noiseless e M) = M * e.length := by
  induction e with
  | nil => simp [correlate]
  | cons b e ih =>
    have hsign : pm b * (M * pm b) = M := by
      cases b <;> simp [pm]
    have hstep : noiseless (b :: e) M = M * pm b :: noiseless e M := rfl
    rw [hstep, correlate_cons, ih, hsign, List.length_cons, Nat.cast_succ]
    ring

/-- With the noiseless LLRs of another codeword it is less (R192). -/
theorem correlate_noiseless_lt {e e' : List Bool} {M : Int} (hM : 1 ≤ M) (hlen : e'.length = e.length) (hne : e' ≠ e) :
    correlate e' (noiseless e M) < M * e.length := by
  induction e generalizing e' with
  | nil => exact absurd (List.length_eq_zero_iff.mp hlen) hne
  | cons b e ih =>
    obtain ⟨b', t, rfl⟩ := List.exists_of_length_succ e' hlen
    have hstep : noiseless (b :: e) M = M * pm b :: noiseless e M := rfl
    have hcast : M * ((b :: e).length : Int) = M + M * e.length := by
      rw [List.length_cons, Nat.cast_succ]
      ring
    have hlen' : t.length = e.length := Nat.succ.inj hlen
    rw [hstep, correlate_cons, hcast]
    by_cases htail : t = e
    · have hhead : b' ≠ b := fun h => hne (by rw [h, htail])
      have hsign : pm b' * (M * pm b) = -M := by
        cases b <;> cases b' <;> simp [pm] at hhead ⊢
      rw [htail, correlate_noiseless, hsign]
      omega
    · have hsign : pm b' * (M * pm b) ≤ M := by
        cases b <;> cases b' <;> simp only [pm, if_true, Bool.false_eq_true, if_false] <;> omega
      have := ih hlen' htail
      omega

theorem magnitudeSum_noiseless {e : List Bool} {M : Int} (hM : 1 ≤ M) :
    magnitudeSum (noiseless e M) = (M * e.length).toNat := by
  have hle : magnitudeSum (noiseless e M) ≤ M.natAbs * e.length := by
    rw [← noiseless_length e M]
    apply magnitudeSum_le
    intro v hv
    obtain ⟨b, -, rfl⟩ := List.mem_map.mp hv
    cases b <;> simp [pm]
  have hge := correlate_natAbs_le e (noiseless e M)
  rw [correlate_noiseless, Int.natAbs_mul, Int.natAbs_natCast] at hge
  have hnat : (M * e.length).toNat = M.natAbs * e.length := by
    rw [← Int.natAbs_natCast e.length, ← Int.natAbs_mul, Int.natAbs_natCast]
    have : 0 ≤ M * (e.length : Int) := by positivity
    omega
  omega

/-! The two decisions in terms of it. -/

section
variable {c : Config} {A E : Nat} {llr : List Int} {thr1 thrb : Int}

theorem smallDecode_den (c : Config) (A : Nat) (llr : List Int) (E : Nat) (thr1 thrb : Int) :
    (smallDecode c A llr E thr1 thrb).den = magnitudeSum llr := by
  unfold smallDecode
  split <;> rfl

/-- The statistic of either decision is a correlation, so the normalised correlation lies in [-1, 1] (R183). -/
theorem smallDecode_num_natAbs_le (c : Config) (A : Nat) (llr : List Int) (E : Nat) (thr1 thrb : Int) :
    (smallDecode c A llr E thr1 thrb).num.natAbs ≤ magnitudeSum llr := by
  by_cases hA : A = 1
  · rw [hA, smallDecode_one]
    exact correlate_natAbs_le _ _
  · obtain ⟨g, -, -, -, hresult⟩ := smallDecode_block c A llr E thr1 thrb hA
    rw [hresult]
    exact correlate_natAbs_le _ _

/-- A block decision is reliable exactly when the acceptance test passes (R183, R184). -/
theorem smallDecode_rel_iff (hA : A ≠ 1) :
    (smallDecode c A llr E thr1 thrb).rel = true ↔
      (smallDecode c A llr E thr1 thrb).num * 32768 > thrb * (smallDecode c A llr E thr1 thrb).den := by
  obtain ⟨g, -, -, -, hresult⟩ := smallDecode_block c A llr E thr1 thrb hA
  rw [hresult]
  exact accepts_iff _ _ _

end

/-- Settles O43: each magnitude is at most 2^(LLR_W - 1), and the widths and lengths of a legal record keep the product
below 2^31. -/
theorem decisionValuesFitTheirRegisters : Obligations.DecisionValuesFitTheirRegisters := by
  rintro c A llr E thr1 thrb hlegal - - rfl hE hrange r
  have hpow : ((2 ^ (c.llrW - 1) : Nat) : Int) = 2 ^ (c.llrW - 1) := by push_cast; rfl
  have hden : r.den ≤ 2 ^ (c.llrW - 1) * llr.length := by
    rw [smallDecode_den]
    apply magnitudeSum_le
    intro v hv
    obtain ⟨hlow, hhigh⟩ := hrange v hv
    omega
  have hnum : r.num.natAbs ≤ magnitudeSum llr := smallDecode_num_natAbs_le _ _ _ _ _ _
  have hden' : r.den = magnitudeSum llr := smallDecode_den _ _ _ _ _ _
  refine ⟨by omega, hden, ?_⟩
  calc 2 ^ (c.llrW - 1) * llr.length
      ≤ 2 ^ 15 * 65535 :=
        Nat.mul_le_mul (Nat.pow_le_pow_right (by decide) (by have := hlegal.llrW_high; omega)) (hE.trans hlegal.eMax_high)
    _ < 2 ^ 31 := by decide

theorem cand_zero (A : Nat) : cand A 0 = List.replicate A false := by
  simp [cand]

/-- Settles O44: every correlation is 0, so the lowest candidate is the best, and 0 does not pass a strict test. -/
theorem silenceIsDecidedByTheThreshold : Obligations.SilenceIsDecidedByTheThreshold := by
  intro c A E thr1 thrb _ _ hE r
  have hsum : magnitudeSum (List.replicate E 0) = 0 := by simp [magnitudeSum]
  constructor
  · rintro rfl
    have hstat : oneBitStat c (List.replicate E 0) E = 0 := correlate_silence _ _
    have havg : thr1 * E < 0 ↔ thr1 < 0 := by
      constructor
      · intro h
        by_contra hthr
        exact absurd h (not_lt.mpr (mul_nonneg (not_lt.mp hthr) (by positivity)))
      · exact fun h => mul_neg_of_neg_of_pos h (by exact_mod_cast hE)
    show smallDecode c 1 _ E thr1 thrb = _
    rw [smallDecode_one, dec1, hstat, hsum]
    simp only [havg, ite_self]
  · intro hA
    obtain ⟨g, -, -, hlowest, hresult⟩ := smallDecode_block c A (List.replicate E 0) E thr1 thrb (by omega)
    have hcorr (g : Nat) : corr c A (List.replicate E 0) E g = 0 := correlate_silence _ _
    obtain rfl : g = 0 := by
      by_contra hg
      have := hlowest 0 (by omega)
      rw [hcorr, hcorr] at this
      exact lt_irrefl 0 this
    have hreject : accepts 0 0 thrb = false := by simp [accepts]
    show smallDecode c A _ E thr1 thrb = _
    rw [hresult, hcorr, hsum, hreject, cand_zero]
    rfl

/-! A candidate that correlates non-negatively. -/

/-- Where the signs of some candidates cancel at every position, their correlations sum to 0. -/
theorem sum_corr_eq_zero {c : Config} {A : Nat} {llr : List Int} (gs : List Nat)
    (hcancel : ∀ k, k < llr.length →
      (gs.map (fun g => pm ((smallEncode c (cand A g) llr.length).getD k false))).sum = 0) :
    (gs.map (corr c A llr llr.length)).sum = 0 := by
  have hswap (ks : List Nat) (hks : ∀ k ∈ ks,
      (gs.map (fun g => pm ((smallEncode c (cand A g) llr.length).getD k false))).sum = 0) :
      (gs.map (fun g => (ks.map (fun k =>
        pm ((smallEncode c (cand A g) llr.length).getD k false) * llr.getD k 0)).sum)).sum = 0 := by
    induction ks with
    | nil => simp
    | cons k ks ih =>
      obtain ⟨hk, hks⟩ := List.forall_mem_cons.mp hks
      simp only [List.map_cons, List.sum_cons, List.sum_map_add, List.sum_map_mul_right, hk, zero_mul, ih hks, add_zero]
  simp only [funext (corr_eq_sum c A llr)]
  exact hswap _ fun k hk => hcancel k (List.mem_range.mp hk)

theorem sum_nonpos_of_neg {l : List Int} (h : ∀ v ∈ l, v < 0) : l.sum ≤ 0 := by
  induction l with
  | nil => exact le_refl 0
  | cons v l ih =>
    obtain ⟨hv, hl⟩ := List.forall_mem_cons.mp h
    have := ih hl
    rw [List.sum_cons]
    omega

/-- Integers that sum to 0 are not all negative. -/
theorem exists_nonneg_of_sum_eq_zero {l : List Int} (hne : l ≠ []) (hsum : l.sum = 0) : ∃ v ∈ l, 0 ≤ v := by
  by_contra hneg
  push Not at hneg
  obtain ⟨v, l, rfl⟩ := List.exists_cons_of_ne_nil hne
  obtain ⟨hv, hl⟩ := List.forall_mem_cons.mp hneg
  have := sum_nonpos_of_neg hl
  rw [List.sum_cons] at hsum
  omega

/-- The payload of candidate 1 is a one and zeros. -/
theorem cand_one (A : Nat) : cand (A + 1) 1 = true :: List.replicate A false := by
  rw [cand, List.range_succ_eq_map, List.map_cons, List.map_map]
  simp [Function.comp_def, Nat.testBit_succ]

theorem rmBitFrom_replicate_false (c : Config) (i n A : Nat) : rmBitFrom c i n (List.replicate A false) = false := by
  induction A generalizing n with
  | zero => rfl
  | succ A ih => simp [List.replicate_succ, rmBitFrom, ih]

/-- Column 0 of the default basis is all ones (R170). -/
theorem rmBasis_column_zero : ∀ i, i < 32 → config.rmBasis i 0 = true := by
  decide

/-- The codewords of candidates 0 and 1 of the RM code are all zeros and all ones (R171). -/
theorem smallEncode_rm_zero_one {A : Nat} (hA : 3 ≤ A) {E k : Nat} (hk : k < E) :
    (smallEncode config (cand A 0) E).getD k false = false ∧ (smallEncode config (cand A 1) E).getD k false = true := by
  have hrow : k % 32 < 32 := Nat.mod_lt k (by decide)
  obtain ⟨B, rfl⟩ : ∃ B, A = B + 1 := ⟨A - 1, by omega⟩
  have hone : rmBit config (cand (B + 1) 1) (k % 32) = true := by
    simp [cand_one, rmBit, rmBitFrom, rmBitFrom_replicate_false, rmBasis_column_zero _ hrow]
  have hzero : rmBit config (cand (B + 1) 0) (k % 32) = false := by
    rw [cand_zero]
    exact rmBitFrom_replicate_false config (k % 32) 0 (B + 1)
  constructor <;> rw [smallEncode_rm _ _ _ (by rw [cand_length]; omega), List.getD_eq_getElem?_getD, encRM_getElem? _ _ hk]
  · exact hzero
  · exact hone

/-- The four sequences of the 2-bit code take each sign twice at every position (R168, R169). -/
theorem simplexBit_cancel : ∀ i, i < 3 →
    pm (simplexBit config false false i) + (pm (simplexBit config true false i) +
      (pm (simplexBit config false true i) + (pm (simplexBit config true true i) + 0))) = 0 := by
  decide

theorem smallEncode_two_getD (c : Config) (a0 a1 : Bool) {E k : Nat} (hk : k < E) :
    (smallEncode c [a0, a1] E).getD k false = simplexBit c a0 a1 (k % 3) := by
  rw [smallEncode_two, List.getD_eq_getElem?_getD, enc2_getElem? c a0 a1 hk, Option.getD_some]

/-- Some candidate correlates non-negatively: 0 or 1 of the RM code, one of the four of the 2-bit code (R182). -/
theorem exists_corr_nonneg {A : Nat} (hA : 2 ≤ A) (llr : List Int) : ∃ g, g < 2 ^ A ∧ 0 ≤ corr config A llr llr.length g := by
  have key {gs : List Nat} (hne : gs ≠ []) (hlt : ∀ g ∈ gs, g < 2 ^ A)
      (hcancel : ∀ k, k < llr.length →
        (gs.map (fun g => pm ((smallEncode config (cand A g) llr.length).getD k false))).sum = 0) :
      ∃ g, g < 2 ^ A ∧ 0 ≤ corr config A llr llr.length g := by
    obtain ⟨v, hv, hpos⟩ := exists_nonneg_of_sum_eq_zero (by simpa using hne) (sum_corr_eq_zero gs hcancel)
    obtain ⟨g, hg, rfl⟩ := List.mem_map.mp hv
    exact ⟨g, hlt g hg, hpos⟩
  rcases Nat.lt_or_ge A 3 with h2 | h3
  · obtain rfl : A = 2 := by omega
    refine key (gs := [0, 1, 2, 3]) (by decide) (by decide) fun k hk => ?_
    have h0 : cand 2 0 = [false, false] := rfl
    have h1 : cand 2 1 = [true, false] := rfl
    have h2 : cand 2 2 = [false, true] := rfl
    have h3 : cand 2 3 = [true, true] := rfl
    simp only [List.map_cons, List.map_nil, List.sum_cons, List.sum_nil, h0, h1, h2, h3, smallEncode_two_getD _ _ _ hk]
    exact simplexBit_cancel _ (Nat.mod_lt k (by decide))
  · have hpow : 2 ^ 1 < 2 ^ A := Nat.pow_lt_pow_right (by decide) (by omega)
    refine key (gs := [0, 1]) (by decide) (by simp; omega) fun k hk => ?_
    obtain ⟨hzero, hone⟩ := smallEncode_rm_zero_one h3 hk
    simp only [List.map_cons, List.map_nil, List.sum_cons, List.sum_nil, hzero, hone]
    decide

/-- Settles O42: the best candidate correlates at least as well as that one. -/
theorem bestCorrelationIsNotNegative : Obligations.BestCorrelationIsNotNegative := by
  rintro A llr E thr1 thrb hA - rfl
  obtain ⟨g, -, hmax, -, hresult⟩ := smallDecode_block config A llr llr.length thr1 thrb (by omega)
  obtain ⟨g', hg', hpos⟩ := exists_corr_nonneg hA llr
  rw [hresult]
  exact hpos.trans (hmax g' hg')

/-- Settles O45: the strict test against a correlation within the magnitude sum, at its extremes. -/
theorem acceptanceTestAtItsExtremes : Obligations.AcceptanceTestAtItsExtremes := by
  intro c A llr E thr1 thrb hA hA' hlen r rDefault
  have hne : A ≠ 1 := by omega
  have hrel : r.rel = true ↔ r.num * 32768 > thrb * r.den := smallDecode_rel_iff hne
  have hnum : r.num.natAbs ≤ r.den :=
    (smallDecode_num_natAbs_le c A llr E thr1 thrb).trans (smallDecode_den c A llr E thr1 thrb).ge
  refine ⟨hrel, by omega, fun hden => ?_, fun hthr => ?_, fun hthr hden => ?_⟩
  · rw [← Bool.not_eq_true, hrel, hden, Nat.cast_zero, mul_zero]
    omega
  · rw [← Bool.not_eq_true, hrel, not_lt]
    calc r.num * 32768 ≤ r.den * 32768 := by omega
      _ = 32768 * r.den := mul_comm _ _
      _ ≤ thrb * r.den := mul_le_mul_of_nonneg_right hthr (by positivity)
  · have hrelDefault : rDefault.rel = true ↔ rDefault.num * 32768 > thrb * rDefault.den := smallDecode_rel_iff hne
    have hpos : 0 ≤ rDefault.num := bestCorrelationIsNotNegative A llr E thr1 thrb hA hA' hlen
    rw [hrelDefault]
    calc thrb * rDefault.den < 0 := mul_neg_of_neg_of_pos hthr (by exact_mod_cast hden)
      _ ≤ rDefault.num * 32768 := by omega

end Sys2Proof.Machine
end

section
/-! The default codes are one-to-one from the bounds of R193: below a bound two payloads share a codeword, and from it on
each payload bit is the exclusive-or of some of the first codeword bits. So a noiseless codeword decodes to its payload
(spec R192, R193). -/

namespace Sys2Proof.Machine

/-! Candidates and payloads. -/

theorem cand_getD {A g n : Nat} (hn : n < A) : (cand A g).getD n false = g.testBit n := by
  simp [cand, List.getD_eq_getElem?_getD, hn]

/-- Candidates below 2^A are different payloads (R173). -/
theorem cand_injective {A g g' : Nat} (hg : g < 2 ^ A) (hg' : g' < 2 ^ A) (h : cand A g = cand A g') : g = g' := by
  apply Nat.eq_of_testBit_eq
  intro n
  by_cases hn : n < A
  · rw [← cand_getD hn, ← cand_getD hn, h]
  · have hpow : 2 ^ A ≤ 2 ^ n := Nat.pow_le_pow_right (by decide) (Nat.le_of_not_lt hn)
    rw [Nat.testBit_lt_two_pow (hg.trans_le hpow), Nat.testBit_lt_two_pow (hg'.trans_le hpow)]

/-- Every payload is a candidate (R173). -/
theorem exists_cand (a : List Bool) : ∃ g, g < 2 ^ a.length ∧ cand a.length g = a := by
  induction a with
  | nil => exact ⟨0, by decide, rfl⟩
  | cons b a ih =>
    obtain ⟨g, hg, hcand⟩ := ih
    have hb := Bool.toNat_lt b
    refine ⟨2 * g + b.toNat, by rw [List.length_cons, Nat.pow_succ]; omega, ?_⟩
    have hlow : (2 * g + b.toNat).testBit 0 = b := by
      rw [Nat.testBit_zero, Nat.mul_add_mod]
      cases b <;> rfl
    have hhigh (n : Nat) : (2 * g + b.toNat).testBit (n + 1) = g.testBit n := by
      rw [Nat.testBit_succ]
      congr 1
      omega
    rw [cand, List.length_cons, List.range_succ_eq_map, List.map_cons, List.map_map, hlow]
    refine congrArg (b :: ·) (Eq.trans ?_ hcand)
    exact List.map_congr_left fun n _ => hhigh n

/-! The RM code is linear in the rows of its table. -/

/-- The exclusive-or of some bits. -/
def xorAll (bs : List Bool) : Bool := bs.foldr (· ^^ ·) false

theorem xorAll_cons (b : Bool) (bs : List Bool) : xorAll (b :: bs) = (b ^^ xorAll bs) := rfl

/-- The exclusive-or of some rows of a code table, column by column. -/
def rowSum (c : Config) (rows : List Nat) (n : Nat) : Bool := xorAll (rows.map (fun i => c.rmBasis i n))

/-- The payload bits from column n on, each times its column's entry of a row. -/
def rowProduct (w : Nat → Bool) : Nat → List Bool → Bool
  | _, [] => false
  | n, b :: bs => (b && w n) ^^ rowProduct w (n + 1) bs

theorem xorAll_step (b : Bool) (f g : Nat → Bool) (rows : List Nat) :
    xorAll (rows.map (fun i => (b && f i) ^^ g i)) = ((b && xorAll (rows.map f)) ^^ xorAll (rows.map g)) := by
  induction rows with
  | nil => cases b <;> rfl
  | cons i rows ih =>
    simp only [List.map_cons, xorAll_cons, ih]
    cases b <;> cases f i <;> cases g i <;> simp

/-- The exclusive-or of codeword bits is the payload's product with the sum of their rows (R171). -/
theorem xorAll_rmBitFrom (c : Config) (rows : List Nat) (n : Nat) (a : List Bool) :
    xorAll (rows.map (fun i => rmBitFrom c i n a)) = rowProduct (rowSum c rows) n a := by
  induction a generalizing n with
  | nil =>
    induction rows with
    | nil => rfl
    | cons i rows ih => simpa [xorAll_cons, rmBitFrom, rowProduct] using ih
  | cons b bs ih =>
    have hstep : (fun i => rmBitFrom c i n (b :: bs)) =
        fun i => (b && c.rmBasis i n) ^^ rmBitFrom c i (n + 1) bs := rfl
    rw [hstep, xorAll_step, ih (n + 1), rowProduct, rowSum]

theorem rowProduct_zero {w : Nat → Bool} {n : Nat} {a : List Bool} (h : ∀ j, j < a.length → w (n + j) = false) :
    rowProduct w n a = false := by
  induction a generalizing n with
  | nil => rfl
  | cons b bs ih =>
    have hhead : w n = false := h 0 (by simp)
    rw [rowProduct, hhead, Bool.and_false, Bool.false_xor]
    refine ih fun j hj => ?_
    rw [Nat.add_right_comm]
    exact h (j + 1) (by simpa using hj)

/-- The product with the row that has its one at column m alone is payload bit m. -/
theorem rowProduct_unit {w : Nat → Bool} {n m : Nat} {a : List Bool} (hm : m < a.length)
    (h : ∀ j, j < a.length → w (n + j) = decide (j = m)) : rowProduct w n a = a.getD m false := by
  induction a generalizing n m with
  | nil => exact absurd hm (Nat.not_lt_zero m)
  | cons b bs ih =>
    have hhead : w n = decide (0 = m) := h 0 (by simp)
    have htail (j : Nat) (hj : j < bs.length) : w (n + 1 + j) = decide (j + 1 = m) := by
      rw [Nat.add_right_comm]
      exact h (j + 1) (by simpa using hj)
    rw [rowProduct, hhead]
    cases m with
    | zero => rw [rowProduct_zero fun j hj => by simp [htail j hj]]; simp
    | succ m =>
      rw [ih (m := m) (by simpa using hm) fun j hj => by simp [htail j hj]]
      simp

/-! From the bounds on: the payload read off the first codeword bits. -/

/-- For each payload bit of the RM code of A bits, codeword positions whose exclusive-or is that bit. -/
def recoveringRows (A : Nat) : List (List Nat) :=
  match A with
  | 3 => [[2], [0, 2], [0, 1]]
  | 4 => [[1, 2, 4], [0, 1, 2, 4], [0, 1], [1, 4]]
  | 5 => [[1, 2, 4], [0, 1, 2, 4], [0, 1], [1, 4], [0, 5]]
  | 11 => [[2, 4, 6, 10, 16], [0, 2, 5, 8], [0, 2, 3, 4, 6, 7], [1, 3, 7, 8], [0, 1, 4, 8], [1, 2, 3, 5, 6, 10],
      [0, 1, 2, 3], [1, 2, 6, 8], [0, 1, 3, 4, 5, 6], [1, 2, 3, 4, 6, 7], [4, 5, 6, 8, 10, 16]]
  | _ => [[2, 5, 8], [0, 2, 5, 8], [0, 2, 3, 4, 6, 7], [1, 3, 7, 8], [0, 1, 4, 8], [1, 2, 3, 5, 6, 10], [0, 1, 2, 3],
      [1, 2, 6, 8], [0, 1, 3, 4, 5, 6], [1, 2, 3, 4, 6, 7]]

/-- The positions lie below the bound, and their rows of the default table sum to the row of the payload bit alone. -/
theorem recoveringRows_spec {A : Nat} (hlow : 3 ≤ A) (hhigh : A ≤ 11) : ∀ m, m < A →
    (∀ i ∈ (recoveringRows A).getD m [], i < oneToOneBound A) ∧
      ∀ j, j < A → rowSum config ((recoveringRows A).getD m []) j = decide (j = m) := by
  interval_cases A <;> decide

theorem oneToOneBound_le (A : Nat) : oneToOneBound A ≤ 17 := by
  unfold oneToOneBound
  split <;> decide

section
variable {a a' : List Bool} {E : Nat}

/-- Payload bit m of the RM code from the codeword bits (R171, R193). -/
theorem getD_eq_xorAll_rmBit (hlow : 3 ≤ a.length) (hhigh : a.length ≤ 11) {m : Nat} (hm : m < a.length) :
    a.getD m false = xorAll (((recoveringRows a.length).getD m []).map (rmBit config a)) := by
  have hrows := (recoveringRows_spec hlow hhigh m hm).2
  exact ((xorAll_rmBitFrom config _ 0 a).trans (rowProduct_unit hm fun j hj => by rw [Nat.zero_add, hrows j hj])).symm

theorem rmBit_eq_of_codeword (hlow : 3 ≤ a.length) (hlen : a'.length = a.length)
    (h : smallEncode config a E = smallEncode config a' E) {i : Nat} (hi : i < E) (hi' : i < 32) :
    rmBit config a i = rmBit config a' i := by
  rw [smallEncode_rm _ _ _ hlow, smallEncode_rm _ _ _ (hlen.symm ▸ hlow)] at h
  have hget := congrArg (fun l => l[i]?) h
  simp only [encRM_getElem? _ _ hi, Nat.mod_eq_of_lt hi'] at hget
  exact Option.some.inj hget

/-- From the bound on a codeword has one payload (R193). -/
theorem smallEncode_injective (hlen : a'.length = a.length) (hpos : 1 ≤ a.length) (hhigh : a.length ≤ 11)
    (hE : oneToOneBound a.length ≤ E) (h : smallEncode config a E = smallEncode config a' E) : a = a' := by
  have hbound := oneToOneBound_le a.length
  rcases (by omega : a.length = 1 ∨ a.length = 2 ∨ 3 ≤ a.length) with hone | htwo | hlow
  · obtain ⟨x, rfl⟩ := List.length_eq_one_iff.mp hone
    obtain ⟨y, rfl⟩ := List.length_eq_one_iff.mp (hlen.trans hone)
    have hE1 : E ≠ 0 := Nat.one_le_iff_ne_zero.mp hE
    rw [smallEncode_one, smallEncode_one, enc1_default, enc1_default, List.replicate_right_inj hE1] at h
    rw [h]
  · obtain ⟨x0, x1, rfl⟩ := List.length_eq_two.mp htwo
    obtain ⟨y0, y1, rfl⟩ := List.length_eq_two.mp (hlen.trans htwo)
    have hE2 : 2 ≤ E := hE
    have hget (k : Nat) (hk : k < E) : simplexBit config x0 x1 (k % 3) = simplexBit config y0 y1 (k % 3) := by
      rw [← smallEncode_two_getD config x0 x1 hk, ← smallEncode_two_getD config y0 y1 hk, h]
    have hfirst : simplexBit config x0 x1 0 = simplexBit config y0 y1 0 := hget 0 (by omega)
    have hsecond : simplexBit config x0 x1 1 = simplexBit config y0 y1 1 := hget 1 (by omega)
    simp only [simplexBit, config, g2Default, Bool.true_and, Bool.false_and, Bool.xor_false, Bool.false_xor] at hfirst hsecond
    rw [hfirst, hsecond]
  · apply List.ext_getElem hlen.symm
    intro m hm hm'
    have hbit : a.getD m false = a'.getD m false := by
      rw [getD_eq_xorAll_rmBit hlow hhigh hm, getD_eq_xorAll_rmBit (hlen.symm ▸ hlow) (hlen.symm ▸ hhigh) hm', hlen]
      refine congrArg xorAll (List.map_congr_left fun i hi => ?_)
      have hrow := (recoveringRows_spec hlow hhigh m hm).1 i hi
      exact rmBit_eq_of_codeword hlow hlen h (by omega) (by omega)
    simpa [List.getD_eq_getElem?_getD, hm, hm'] using hbit

end

/-! Below the bounds: two payloads with one codeword. -/

/-- A candidate whose codeword starts with zeros up to the bound less one, as candidate 0's does. -/
def collidingCandidate (A : Nat) : Nat :=
  match A with
  | 3 => 3
  | 4 => 11
  | 5 => 16
  | 11 => 1025
  | _ => 32

theorem collidingCandidate_lt {A : Nat} (hlow : 3 ≤ A) (hhigh : A ≤ 11) : collidingCandidate A < 2 ^ A := by
  interval_cases A <;> decide

theorem collidingCandidate_rmBit {A : Nat} (hlow : 3 ≤ A) (hhigh : A ≤ 11) : ∀ i, i < oneToOneBound A - 1 →
    rmBit config (cand A (collidingCandidate A)) i = rmBit config (cand A 0) i := by
  interval_cases A <;> decide

/-- Two candidates with one codeword are the same, so a different pair with one codeword refutes R193's property. -/
theorem not_oneToOne {A E g : Nat} (hg : g < 2 ^ A) (hne : g ≠ 0)
    (h : smallEncode config (cand A g) E = smallEncode config (cand A 0) E) : ¬ OneToOne config A E :=
  fun honeToOne => hne (honeToOne g 0 hg (Nat.two_pow_pos A) h)

theorem not_oneToOne_below_bound {A E : Nat} (hpos : 1 ≤ A) (hhigh : A ≤ 11) (hEpos : 1 ≤ E) (hE : E < oneToOneBound A) :
    ¬ OneToOne config A E := by
  rcases (by omega : A = 1 ∨ A = 2 ∨ 3 ≤ A) with rfl | rfl | hlow
  · exact absurd hE (by simp [oneToOneBound]; omega)
  · have hE2 : E < 2 := hE
    obtain rfl : E = 1 := by omega
    exact not_oneToOne (g := 2) (by decide) (by decide) (by decide)
  · have hbound := oneToOneBound_le A
    have hne : collidingCandidate A ≠ 0 := by
      unfold collidingCandidate
      split <;> decide
    refine not_oneToOne (collidingCandidate_lt hlow hhigh) hne ?_
    rw [smallEncode_rm _ _ _ (by rwa [cand_length]), smallEncode_rm _ _ _ (by rwa [cand_length])]
    apply List.ext_getElem?
    intro i
    by_cases hi : i < E
    · rw [encRM_getElem? _ _ hi, encRM_getElem? _ _ hi, Nat.mod_eq_of_lt (by omega),
        collidingCandidate_rmBit hlow hhigh i (by omega)]
    · rw [List.getElem?_eq_none (by simpa using hi), List.getElem?_eq_none (by simpa using hi)]

/-- Settles O46: below the bound a collision, from it on the payload is read off the codeword. -/
theorem codesAreOneToOneFromTheirBounds : Obligations.CodesAreOneToOneFromTheirBounds := by
  intro A E hpos hhigh hEpos
  constructor
  · intro honeToOne
    by_contra hE
    exact not_oneToOne_below_bound hpos hhigh hEpos (Nat.lt_of_not_le hE) honeToOne
  · intro hE g g' hg hg' h
    refine cand_injective hg hg' (smallEncode_injective ?_ ?_ ?_ ?_ h) <;> simp only [cand_length] <;> assumption

/-! The noiseless round trip. -/

/-- The noiseless LLRs of a codeword are +M for a one and -M for a zero (R175). -/
theorem noiseless_eq (e : List Bool) (M : Int) : noiseless e M = e.map (fun b => if b then M else -M) := by
  refine List.map_congr_left fun b _ => ?_
  cases b <;> simp [pm]

theorem oneToOneBound_pos (A : Nat) : 1 ≤ oneToOneBound A := by
  unfold oneToOneBound
  split <;> decide

/-- A block decode of a noiseless codeword, from the bound on: the payload's own candidate is the only best one (R192). -/
theorem smallDecode_noiseless {a : List Bool} {E : Nat} {M thr1 thrb : Int} (hlow : 2 ≤ a.length) (hhigh : a.length ≤ 11)
    (hM : 1 ≤ M) (hE : oneToOneBound a.length ≤ E) (hthr : thrb < 32768) :
    smallDecode config a.length (noiseless (smallEncode config a E) M) E thr1 thrb =
      { aHat := a, rel := true, err := .ok, num := M * E, den := (M * E).toNat } := by
  obtain ⟨g, hg, hcand⟩ := exists_cand a
  obtain ⟨best, hbest, hmax, -, hresult⟩ := smallDecode_block config a.length (noiseless (smallEncode config a E) M) E
    thr1 thrb (by omega)
  have hcorr : corr config a.length (noiseless (smallEncode config a E) M) E g = M * E := by
    rw [corr, hcand, correlate_noiseless, smallEncode_length]
  have hpayload : cand a.length best = a := by
    by_contra hne
    have hcodeword : smallEncode config (cand a.length best) E ≠ smallEncode config a E := fun h =>
      hne (smallEncode_injective (by rw [cand_length]) (by rw [cand_length]; omega) (by rwa [cand_length])
        (by rwa [cand_length]) h)
    have hless := correlate_noiseless_lt hM (by simp) hcodeword
    have hbestMax := hmax g hg
    rw [hcorr, corr] at hbestMax
    rw [smallEncode_length] at hless
    omega
  have hbestCorr : corr config a.length (noiseless (smallEncode config a E) M) E best = M * E := by
    rw [corr, hpayload, correlate_noiseless, smallEncode_length]
  have hden : magnitudeSum (noiseless (smallEncode config a E) M) = (M * E).toNat := by
    rw [magnitudeSum_noiseless hM, smallEncode_length]
  have hEpos : 1 ≤ E := (oneToOneBound_pos _).trans hE
  have hME : 0 < M * (E : Int) := mul_pos (by omega) (by exact_mod_cast hEpos)
  have haccept : accepts (M * E) (M * E).toNat thrb = true := by
    rw [accepts_iff, Int.toNat_of_nonneg hME.le, mul_comm (M * (E : Int)) 32768]
    exact mul_lt_mul_of_pos_right hthr hME
  rw [hresult, hbestCorr, hden, haccept, hpayload]
  rfl

/-- A 1-bit decode of a noiseless bit: the statistic is M · E with the bit's sign (R177, R192). -/
theorem smallDecode_noiseless_one (a0 : Bool) (E : Nat) (M thr1 thrb : Int) :
    smallDecode config 1 (noiseless (smallEncode config [a0] E) M) E thr1 thrb =
      { aHat := [decide (thr1 < pm a0 * (M * E))], rel := true, err := .ok, num := pm a0 * (M * E)
        den := magnitudeSum (noiseless (smallEncode config [a0] E) M) } := by
  have hstat : oneBitStat config (noiseless (smallEncode config [a0] E) M) E = pm a0 * (M * E) := by
    rw [smallEncode_one, oneBitStat]
    cases a0 with
    | true => rw [correlate_noiseless, enc1_length]; simp [pm]
    | false =>
      have hflip : noiseless (enc1 config false E) M = noiseless (enc1 config true E) (-M) := by
        rw [enc1_default, enc1_default]
        simp [noiseless, pm]
      rw [hflip, correlate_noiseless, enc1_length]
      simp [pm]
  rw [smallDecode_one, dec1, hstat]
  rfl

/-- Settles O47: one bit by its statistic against the threshold, more by the only best candidate. -/
theorem smallBlockNoiselessRoundTrip : Obligations.SmallBlockNoiselessRoundTrip := by
  intro a E M thr1 thrb hpos hhigh hM hE llr r
  have hllr : llr = noiseless (smallEncode config a E) M := (noiseless_eq _ _).symm
  constructor
  · intro hone
    obtain ⟨a0, rfl⟩ := List.length_eq_one_iff.mp hone
    have hE1 : 1 ≤ E := hE
    have hME : 0 < M * (E : Int) := mul_pos (by omega) (by exact_mod_cast hE1)
    have hr : r = _ := (congrArg (smallDecode config 1 · E thr1 thrb) hllr).trans (smallDecode_noiseless_one a0 E M thr1 thrb)
    rw [hr]
    cases a0 <;> simp [pm]
  · intro htwo hthr
    exact (congrArg (smallDecode config a.length · E thr1 thrb) hllr).trans
      (smallDecode_noiseless htwo hhigh hM hE hthr)

end Sys2Proof.Machine
end

section
/-! The codec commands to their ends: for a payload in the commands' domain validation gives its plan, and the encode and
the decode leave whole known states (spec R242 to R252, R213 to R218, R68). -/

namespace Sys2Proof.Machine

variable {c : Config} {cfg : UciCfg} {ch : Chan} {s : State} {E : Nat}

/-! Plans. -/

/-- Validation of a small-block command within the capacities (R245). -/
theorem validate_eq_small (hE : codedLength c cfg ch = .ok E) (hcapE : E ≤ s.capE) (hlow : 1 ≤ payloadLength cfg ch)
    (hhigh : payloadLength cfg ch ≤ 11) (hcapA : payloadLength cfg ch ≤ s.capA) :
    ∃ p, pathCode (some p) = pathNumber (payloadLength cfg ch) ∧
      validate c s cfg ch = .ok ⟨payloadLength cfg ch, E, 0, .small p⟩ := by
  obtain ⟨p, hpath, -, hchosen⟩ := chooseCoding_small c (payloadLength cfg ch) E hlow hhigh
  exact ⟨p, pathCode_eq_pathNumber _ _ hpath,
    (validate_eq_ok _ _ _ _ _).mpr ⟨hE, hcapE, rfl, hlow, hcapA, hchosen, (crcLength_small hhigh).symm⟩⟩

/-- Validation of a Polar-path command within the capacities, for which there is a code (R245, R212). -/
theorem validate_eq_polar {code : PolarCode} (hE : codedLength c cfg ch = .ok E) (hcapE : E ≤ s.capE)
    (hlow : 12 ≤ payloadLength cfg ch) (hcapA : payloadLength cfg ch ≤ s.capA)
    (hcode : c.polar.construct (payloadLength cfg ch + crcLength (payloadLength cfg ch)) E = some code)
    (hN : code.N ≤ c.nMax) :
    validate c s cfg ch = .ok ⟨payloadLength cfg ch, E, crcLength (payloadLength cfg ch), .polar code⟩ := by
  refine (validate_eq_ok _ _ _ _ _).mpr ⟨hE, hcapE, rfl, Nat.le_trans (by decide) hlow, hcapA, ?_, rfl⟩
  rw [chooseCoding_polar _ _ _ hlow, (polarPlan_eq_ok _ _ _ _).mpr ⟨hcode, hN⟩]

/-! The CRC of the Polar path. -/

theorem crcSelect_polar (s : State) {A : Nat} (h : 12 ≤ A) :
    crcSelect s A = some (if A ≤ 19 then s.crc6 else s.crc11, crcLength A) := by
  rw [crcSelect, if_neg (by omega)]
  by_cases h19 : A ≤ 19
  · rw [if_pos h19, if_pos h19, crcLength_mid h h19]
  · rw [if_neg h19, if_neg h19, crcLength_large (by omega)]

theorem crcAttach_polar (c : Config) (s : State) {a : List Bool} (h : 12 ≤ a.length) :
    crcAttach c s a = c.crc.attach (if a.length ≤ 19 then s.crc6 else s.crc11) (crcLength a.length) a := by
  simp only [crcAttach, crcSelect_polar s h]

theorem crcCheckSplit_polar (c : Config) (s : State) {A : Nat} (h : 12 ≤ A) (bits : List Bool) :
    crcCheckSplit c s A bits =
      (bits.take A, c.crc.check (if A ≤ 19 then s.crc6 else s.crc11) (crcLength A) bits) := by
  simp only [crcCheckSplit, crcSelect_polar s h]

/-! The memory a decode leaves: its payload and its valid flag. -/

/-- A decode's last writes: the payload to bit_sequence and to the elements of its context, the valid flag to VAL_MISC[1]
(R244). -/
def storeDecision (c : Config) (cfg : UciCfg) (ch : Chan) (a : List Bool) (valid : Bool) (m : Memory) : Memory :=
  let m' := unpack c cfg ch a { m with bitSequence := m.bitSequence.write 0 a }
  { m' with valMisc := m'.valMisc.write 1 [valid] }

section
variable (c cfg ch) (a : List Bool) (valid : Bool) (m : Memory)

theorem storeDecision_bitSequence : (storeDecision c cfg ch a valid m).bitSequence = m.bitSequence.write 0 a := by
  obtain ⟨-, -, hbits, -⟩ := unpack_frame c cfg ch a { m with bitSequence := m.bitSequence.write 0 a }
  exact hbits

/-- The spaces a decision is not stored in (R68). -/
theorem storeDecision_frame :
    storeDecision c cfg ch a valid m = { m with
      bitSequence := (storeDecision c cfg ch a valid m).bitSequence
      valAck := (storeDecision c cfg ch a valid m).valAck
      valCsi1 := (storeDecision c cfg ch a valid m).valCsi1
      valMisc := (storeDecision c cfg ch a valid m).valMisc } := by
  cases ch <;> rfl

theorem storeDecision_valid : Buf.read (storeDecision c cfg ch a valid m).valMisc 1 = some valid :=
  (Buf.stores_write _ 1 valid).1

variable {a}

theorem storeDecision_holds (hlen : a.length = payloadLength cfg ch) :
    HoldsPayload c.packOrder cfg ch (storeDecision c cfg ch a valid m) a :=
  HoldsPayload.write_valid _ _ _ _ _ valid (unpack_holds c cfg ch a _ hlen)

theorem storeDecision_valFrame (hlen : a.length = payloadLength cfg ch) :
    ValFrame cfg ch m (storeDecision c cfg ch a valid m) := by
  have h := unpack_valFrame c cfg ch a { m with bitSequence := m.bitSequence.write 0 a } valid hlen
  cases ch <;> exact h

end

/-! The whole next states. -/

/-- An encode of 1 to 11 payload bits (R244). -/
theorem execIn_encode_small {a : List Bool} (hready : s.life = .ready) (hE : codedLength c cfg ch = .ok E)
    (hcapE : E ≤ s.capE) (hlow : 1 ≤ a.length) (hhigh : a.length ≤ 11) (hcapA : a.length ≤ s.capA)
    (hpayload : HoldsPayload c.packOrder cfg ch s.mem a) :
    execIn c (encodeInstr cfg ch) s = .next { s with
      resp := respOf s 0 1 (pathNumber a.length) 0 (BitVec.ofNat 32 E) (BitVec.ofNat 32 a.length) 0 0
      mem := { s.mem with
        bitSequence := s.mem.bitSequence.write 0 a, cod := s.mem.cod.write 0 (smallEncode c a E) } } := by
  have hlen := hpayload.1
  rw [hlen] at hlow hhigh hcapA ⊢
  obtain ⟨p, hpath, hvalid⟩ := validate_eq_small hE hcapE hlow hhigh hcapA
  rw [execIn_encodeInstr, codecEncode_run c cfg ch s _ a hready hvalid hpayload, finishEncode_small _ _ _ _ p rfl,
    respond_eq _ _ _ _ _ _ _ _ _ (Nat.zero_lt_succ 15), hpath]
  rfl

/-- A decode of 1 to 11 payload bits (R244). -/
theorem execIn_decode_small {llr : List Int} (hready : s.life = .ready) (hE : codedLength c cfg ch = .ok llr.length)
    (hcapE : llr.length ≤ s.capE) (hlow : 1 ≤ payloadLength cfg ch) (hhigh : payloadLength cfg ch ≤ 11)
    (hcapA : payloadLength cfg ch ≤ s.capA) (hllr : Buf.holds s.mem.llr 0 llr) {r : SmallResult}
    (hr : smallDecode c (payloadLength cfg ch) llr llr.length s.thr1.toInt s.thrb.toInt = r) :
    execIn c (decodeInstr cfg ch) s = .next { s with
      resp := respOf s (if r.rel then 0 else 4) (if r.rel then 1 else 0) (pathNumber (payloadLength cfg ch)) 0
        (BitVec.ofNat 32 llr.length) (BitVec.ofNat 32 (payloadLength cfg ch)) (BitVec.ofInt 32 r.num)
        (BitVec.ofNat 32 r.den)
      mem := storeDecision c cfg ch r.aHat r.rel s.mem } := by
  obtain ⟨p, hpath, hvalid⟩ := validate_eq_small hE hcapE hlow hhigh hcapA
  have hcodes : r.err.code = (if r.rel then 0 else 4) ∧ r.rel.toNat = (if r.rel then 1 else 0) := by
    rw [← hr]
    rcases smallDecode_err c (payloadLength cfg ch) llr llr.length s.thr1.toInt s.thrb.toInt with ⟨hrel, herr⟩ | ⟨hrel, herr⟩ <;>
      rw [hrel, herr] <;> decide
  rw [execIn_decodeInstr, codecDecode_run c cfg ch s _ llr hready hvalid rfl hllr, finishDecode_small _ _ _ _ _ _ p rfl]
  simp only [respond_eq _ _ _ _ _ _ _ _ _ (Nat.zero_lt_succ 15), hpath, hr, hcodes.1, hcodes.2]
  rfl

/-- An encode of 12 or more payload bits (R214, R213, R244). -/
theorem execIn_encode_polar {a : List Bool} {code : PolarCode} (hready : s.life = .ready)
    (hE : codedLength c cfg ch = .ok E) (hcapE : E ≤ s.capE) (hlow : 12 ≤ a.length) (hcapA : a.length ≤ s.capA)
    (hpayload : HoldsPayload c.packOrder cfg ch s.mem a)
    (hcode : c.polar.construct (a.length + crcLength a.length) E = some code) (hN : code.N ≤ c.nMax) {cw : List Bool}
    (hcw : c.crc.attach (if a.length ≤ 19 then s.crc6 else s.crc11) (crcLength a.length) a = cw) :
    execIn c (encodeInstr cfg ch) s = .next { s with
      resp := respOf s 0 1 4 (crcLength a.length) (BitVec.ofNat 32 E) (BitVec.ofNat 32 a.length) 0 0
      polarValid := true, polarK := code.K, polarE := code.E, polarN := code.N
      mem := { s.mem with
        bitSequence := s.mem.bitSequence.write 0 a
        c := s.mem.c.write 0 cw
        allocated := s.mem.allocated.write 0 (c.polar.allocate code cw)
        d := s.mem.d.write 0 ((c.polar.encode code (c.polar.allocate code cw)).map bitInt)
        cod := s.mem.cod.write 0 (c.polar.rateMatch code (c.polar.encode code (c.polar.allocate code cw))) } } := by
  rw [← crcAttach_polar c s hlow] at hcw
  have hlen := hpayload.1
  rw [hlen] at hlow hcapA hcode ⊢
  rw [execIn_encodeInstr,
    codecEncode_run c cfg ch s _ a hready (validate_eq_polar hE hcapE hlow hcapA hcode hN) hpayload,
    finishEncode_polar _ _ _ _ code rfl, respond_eq _ _ _ _ _ _ _ _ _ (crcLength_lt _), hcw]
  rfl

/-- A decode of 12 or more payload bits (R216, R213, R244). -/
theorem execIn_decode_polar {llr : List Int} {code : PolarCode} (hready : s.life = .ready)
    (hE : codedLength c cfg ch = .ok llr.length) (hcapE : llr.length ≤ s.capE) (hlow : 12 ≤ payloadLength cfg ch)
    (hcapA : payloadLength cfg ch ≤ s.capA) (hllr : Buf.holds s.mem.llr 0 llr)
    (hcode : c.polar.construct (payloadLength cfg ch + crcLength (payloadLength cfg ch)) llr.length = some code)
    (hN : code.N ≤ c.nMax) {y : List Int} {cHat : List Bool} {pass : Bool} (hy : c.polar.derate code llr = y)
    (hcHat : c.polar.decode code y = cHat)
    (hpass : c.crc.check (if payloadLength cfg ch ≤ 19 then s.crc6 else s.crc11) (crcLength (payloadLength cfg ch)) cHat =
      pass) :
    execIn c (decodeInstr cfg ch) s = .next { s with
      resp := respOf s (if pass then 0 else 3) (if pass then 1 else 0) 4 (crcLength (payloadLength cfg ch))
        (BitVec.ofNat 32 llr.length) (BitVec.ofNat 32 (payloadLength cfg ch)) 0 0
      polarValid := true, polarK := code.K, polarE := code.E, polarN := code.N
      mem := storeDecision c cfg ch (cHat.take (payloadLength cfg ch)) pass
        { s.mem with d := s.mem.d.write 0 y, c := s.mem.c.write 0 cHat } } := by
  rw [execIn_decodeInstr,
    codecDecode_run c cfg ch s _ llr hready (validate_eq_polar hE hcapE hlow hcapA hcode hN) rfl hllr,
    finishDecode_polar _ _ _ _ _ _ code rfl]
  simp only [respond_eq _ _ _ _ _ _ _ _ _ (crcLength_lt _), crcCheckSplit_polar c s hlow, hy, hcHat, hpass]
  cases pass <;> rfl

/-! The settled statements. -/

/-- Settles O49. -/
theorem smallEncodesComplete : Obligations.SmallEncodesComplete := by
  intro cfg ch s a E hready hE hcapE hlow hhigh hcapA hpayload
  rw [exec_eq_execIn]
  refine ⟨_, execIn_encode_small hready hE hcapE hlow hhigh hcapA hpayload, rfl, Buf.holds_write_zero _ _,
    Buf.holds_write_zero _ _, Buf.agreeFrom_write_zero _ _ _ le_rfl, Buf.agreeFrom_write_zero _ _ _ ?_, rfl⟩
  rw [smallEncode_length]

/-- Settles O50: the decision is stored whatever it is, at the payload's length. -/
theorem smallDecodesComplete : Obligations.SmallDecodesComplete := by
  intro cfg ch s llr hready hE hcapE hlow hhigh hcapA hllr A r
  have hlen : r.aHat.length = payloadLength cfg ch := smallDecode_aHat_length _ _ _ _ _ _
  rw [exec_eq_execIn]
  refine ⟨_, execIn_decode_small hready hE hcapE hlow hhigh hcapA hllr rfl, rfl, ?_,
    storeDecision_holds _ _ _ _ _ hlen, storeDecision_valid _ _ _ _ _ _, ?_, storeDecision_valFrame _ _ _ _ _ hlen, ?_⟩
  · rw [storeDecision_bitSequence]
    exact Buf.holds_write_zero _ _
  · rw [storeDecision_bitSequence]
    exact Buf.agreeFrom_write_zero _ _ _ hlen.le
  · simp only [State.mk.injEq, true_and, and_true]
    exact storeDecision_frame _ _ _ _ _ _

/-- Settles O51: the engine's shape gives the lengths of the written sequences. -/
theorem polarEncodesComplete : Obligations.PolarEncodesComplete := by
  intro c cfg ch s a E code hcrc hshaped hready hE hcapE hlow hcapA hpayload hcode hN L cw u x
  obtain ⟨hK, hcodeE, -⟩ := hshaped.construct_shape _ _ _ hcode
  have hcw : cw.length = a.length + L := hcrc.attach_length _ _ _
  have hu : u.length = code.N := hshaped.allocate_length _ _ _ _ hcode hcw
  have hx : x.length = code.N := hshaped.encode_length _ _ _ _ hcode hu
  have he : (c.polar.rateMatch code x).length = E := hshaped.rateMatch_length _ _ _ _ hcode hx
  exact ⟨_, execIn_encode_polar hready hE hcapE hlow hcapA hpayload hcode hN rfl, rfl, rfl, hK, hcodeE, rfl,
    Buf.holds_write_zero _ _, Buf.holds_write_zero _ _, Buf.holds_write_zero _ _, Buf.holds_write_zero _ _,
    Buf.holds_write_zero _ _, Buf.agreeFrom_write_zero _ _ _ le_rfl, Buf.agreeFrom_write_zero _ _ _ hcw.le,
    Buf.agreeFrom_write_zero _ _ _ hu.le, Buf.agreeFrom_write_zero _ _ _ (by rw [List.length_map]; exact hx.le),
    Buf.agreeFrom_write_zero _ _ _ he.le, rfl⟩

/-- Settles O52: the same of a decode, whose decision is stored whether the check passes or not. -/
theorem polarDecodesComplete : Obligations.PolarDecodesComplete := by
  intro c cfg ch s llr code hshaped hready hE hcapE hlow hcapA hllr hrange hcode hN A L y cHat pass
  obtain ⟨hK, hcodeE, -⟩ := hshaped.construct_shape _ _ _ hcode
  have hy : y.length = code.N := hshaped.derate_length _ _ _ _ hcode rfl hrange
  have hcHat : cHat.length = A + L :=
    hshaped.decode_length _ _ _ _ hcode hy (hshaped.derate_range _ _ _ _ hcode rfl hrange)
  have hlen : (cHat.take A).length = A := by
    rw [List.length_take]
    omega
  refine ⟨_, execIn_decode_polar hready hE hcapE hlow hcapA hllr hcode hN rfl rfl rfl, rfl, rfl, hK, hcodeE, rfl, ?_, ?_,
    ?_, storeDecision_holds _ _ _ _ _ hlen, storeDecision_valid _ _ _ _ _ _, ?_, ?_, ?_, ?_, ?_⟩
  · rw [storeDecision_frame]
    exact Buf.holds_write_zero _ _
  · rw [storeDecision_frame]
    exact Buf.holds_write_zero _ _
  · rw [storeDecision_bitSequence]
    exact Buf.holds_write_zero _ _
  · rw [storeDecision_frame]
    exact Buf.agreeFrom_write_zero _ _ _ hy.le
  · rw [storeDecision_frame]
    exact Buf.agreeFrom_write_zero _ _ _ hcHat.le
  · rw [storeDecision_bitSequence]
    exact Buf.agreeFrom_write_zero _ _ _ hlen.le
  · have h := storeDecision_valFrame c cfg ch pass { s.mem with d := s.mem.d.write 0 y, c := s.mem.c.write 0 cHat } hlen
    cases ch <;> exact h
  · simp only [State.mk.injEq, true_and, and_true]
    rw [storeDecision_frame]

end Sys2Proof.Machine
end

section
/-! The round trips at the level of commands: an encode that completed had a validated plan, and the mirror decode of its
noiseless LLRs, validated alike, stores the payload again (spec R255). -/

namespace Sys2Proof.Machine

section
variable {c : Config} {cfg : UciCfg} {ch : Chan} {s t u : State} {a : List Bool} {E : Nat}

theorem not_completedOk_raise {e : ErrKind} (he : e ≠ .ok) : ¬ completedOk (raise e s).resp := by
  rw [raise_eq, completedOk, errField_rejection, errKind_code_eq_zero_iff]
  exact he

/-- An encode that completed ran in READY on a validated plan (R235, R244, R280). -/
theorem encode_completedOk (hrun : execIn c (encodeInstr cfg ch) s = .next t) (hok : completedOk t.resp) :
    s.life = .ready ∧ ∃ plan, validate c s cfg ch = .ok plan := by
  rw [execIn_encodeInstr] at hrun
  rcases codecEncode_cases c cfg ch s with
    ⟨-, hend⟩ | ⟨-, e, hinvalid, hend⟩ | ⟨-, plan, r, -, -, hend⟩ | ⟨hready, plan, _, hvalid, -, -⟩
  · cases hend.symm.trans hrun
    exact absurd hok (not_completedOk_raise nofun)
  · cases hend.symm.trans hrun
    refine absurd hok (not_completedOk_raise ?_)
    rcases validate_error c s cfg ch e hinvalid with ⟨rfl, -⟩ | rfl <;> nofun
  · cases hend.symm.trans hrun
  · exact ⟨hready, plan, hvalid⟩

/-- The LLRs that HOST wrote are the noiseless ones of the codeword the encode left in COD (R175). -/
theorem holds_noiseless {cod : Buf Bool} {llr : Buf Int} {e : List Bool} {M : Int} (hlen : e.length = E)
    (h : HoldsNoiseless (cod.write 0 e) llr E M) : Buf.holds llr 0 (noiseless e M) := by
  rw [holds_iff _ _ E ((noiseless_length e M).trans hlen)]
  intro k hk
  obtain ⟨b, hcod, hllr⟩ := h k hk
  rw [Buf.read_write_zero _ _ _ (hlen.symm ▸ hk)] at hcod
  rw [hllr, noiseless_eq, List.getElem?_map, hcod]
  rfl

/-- What the two commands of a round trip report alike: OK, path, CRC length, E and A (R28, R29). -/
theorem respOf_same_fields (s u : State) {path L : Nat} (r1 r2 r3 r4 r3' r4' : Word) (hpath : path < 8) (hL : L < 16) :
    completedOk (respOf u 0 1 path L r1 r2 r3 r4) ∧ relField (respOf u 0 1 path L r1 r2 r3 r4).r0 = 1 ∧
    pathField (respOf u 0 1 path L r1 r2 r3 r4).r0 = pathField (respOf s 0 1 path L r1 r2 r3' r4').r0 ∧
    crcLenField (respOf u 0 1 path L r1 r2 r3 r4).r0 = crcLenField (respOf s 0 1 path L r1 r2 r3' r4').r0 := by
  obtain ⟨herr, hrel, hpathU, hcrcU, -⟩ := respOf_fields u 0 1 path L r1 r2 r3 r4 (by decide) (by decide) hpath hL
  obtain ⟨-, -, hpathS, hcrcS, -⟩ := respOf_fields s 0 1 path L r1 r2 r3' r4' (by decide) (by decide) hpath hL
  exact ⟨herr, hrel, hpathU.trans hpathS.symm, hcrcU.trans hcrcS.symm⟩

end

/-- The small-block decision on the noiseless LLRs of a payload, with thresholds that let it through (R192). -/
theorem smallDecode_recovers {a : List Bool} {E : Nat} {M thr1 thrb : Int} (hlow : 1 ≤ a.length) (hhigh : a.length ≤ 11)
    (hM : 1 ≤ M) (hone : a.length = 1 → -(M * E) ≤ thr1 ∧ thr1 < M * E)
    (hblock : 2 ≤ a.length → oneToOneBound a.length ≤ E ∧ thrb < 32768) :
    ∃ num den, smallDecode config a.length (noiseless (smallEncode config a E) M) E thr1 thrb =
      { aHat := a, rel := true, err := .ok, num := num, den := den } := by
  rcases (by omega : a.length = 1 ∨ 2 ≤ a.length) with h1 | h2
  · obtain ⟨a0, rfl⟩ := List.length_eq_one_iff.mp h1
    obtain ⟨hbelow, habove⟩ := hone h1
    have hbit : decide (thr1 < pm a0 * (M * E)) = a0 := by
      cases a0 <;> simp [pm] <;> omega
    have hdecision := smallDecode_noiseless_one a0 E M thr1 thrb
    rw [hbit] at hdecision
    exact ⟨_, _, hdecision⟩
  · obtain ⟨hbound, hthr⟩ := hblock h2
    exact ⟨_, _, smallDecode_noiseless h2 hhigh hM hbound hthr⟩

/-- Settles O55: the decode's decision on the noiseless LLRs is the payload, and it is stored. -/
theorem smallCommandRoundTrip : Obligations.SmallCommandRoundTrip := by
  intro cfg ch s t u a E M hrun hok hpayload hhigh hE huready hcapA hcapE hM _ hheld hone hblock
  rw [exec_eq_execIn] at hrun
  obtain ⟨hready, plan, hvalid⟩ := encode_completedOk hrun hok
  obtain ⟨hEcap, hnonzero, hAcap, -⟩ := validate_ok_excludes hE hvalid
  have hlen := hpayload.1
  have hlow : 1 ≤ a.length := by omega
  cases (execIn_encode_small hready hE hEcap hlow hhigh (by omega) hpayload).symm.trans hrun
  have hllr := holds_noiseless (smallEncode_length config a E) hheld
  have hElen : (noiseless (smallEncode config a E) M).length = E := by simp
  obtain ⟨num, den, hdecision⟩ := smallDecode_recovers hlow hhigh hM hone hblock
  rw [exec_eq_execIn]
  refine ⟨_, execIn_decode_small (r := ⟨a, true, .ok, num, den⟩) huready (by rw [hElen, hE]) (by omega) (by omega)
    (by omega) (by omega) hllr (by rw [hElen, ← hlen, hdecision]), ?_⟩
  rw [hElen, ← hlen]
  obtain ⟨hokU, hrelU, hpathU, hcrcU⟩ := respOf_same_fields s u (BitVec.ofNat 32 E) (BitVec.ofNat 32 a.length)
    (BitVec.ofInt 32 num) (BitVec.ofNat 32 den) 0 0 (Nat.lt_of_le_of_lt (pathNumber_le a.length) (by decide))
    (Nat.zero_lt_succ 15)
  exact ⟨hokU, hrelU, hpathU, hcrcU, rfl, rfl, storeDecision_holds _ _ _ _ _ hlen⟩

/-- Settles O56: the engine gives back the word with its CRC, which checks, and its first bits are the payload. -/
theorem polarCommandRoundTrip : Obligations.PolarCommandRoundTrip := by
  intro c cfg ch s t u a E M hc hrun hok hpayload hlow hE huready hcapA hcapE hcrc6 hcrc11 hM hMmax hheld
  obtain ⟨hready, plan, hvalid⟩ := encode_completedOk hrun hok
  obtain ⟨hEcap, -, hAcap, hplan⟩ := validate_ok_excludes hE hvalid
  have hlen := hpayload.1
  rw [← hlen] at hAcap hplan
  obtain ⟨code, hcode, hN⟩ := hplan hlow
  have hshaped := hc.polar.shaped
  have hcw := hc.crc.attach_length (if a.length ≤ 19 then s.crc6 else s.crc11) (crcLength a.length) a
  have hrunEncode := execIn_encode_polar hready hE hEcap hlow hAcap hpayload hcode hN rfl
  have hprefix := hc.crc.attach_prefix (if a.length ≤ 19 then s.crc6 else s.crc11) (crcLength a.length) a
  have hcheck := hc.crc.check_attach (if a.length ≤ 19 then s.crc6 else s.crc11) (crcLength a.length) a
  generalize c.crc.attach (if a.length ≤ 19 then s.crc6 else s.crc11) (crcLength a.length) a = cw at *
  cases hrunEncode.symm.trans hrun
  have hu := hshaped.allocate_length _ _ _ _ hcode hcw
  have hx := hshaped.encode_length _ _ _ _ hcode hu
  have he := hshaped.rateMatch_length _ _ _ _ hcode hx
  have hllr := holds_noiseless he hheld
  have hElen := (noiseless_length _ M).trans he
  have hdecoded := hc.polar.round_trip _ _ _ _ M hcode hcw hM hMmax
  rw [← hcrc6, ← hcrc11] at hcheck
  rw [hlen] at hlow hAcap hcode hcheck
  refine ⟨_, execIn_decode_polar huready (by rw [hElen, hE]) (by omega) hlow (by omega) hllr (by rw [hElen, hcode]) hN rfl
    hdecoded hcheck, ?_⟩
  rw [hElen, ← hlen, hprefix]
  obtain ⟨hokU, hrelU, hpathU, hcrcU⟩ := respOf_same_fields s u (path := 4) (BitVec.ofNat 32 E)
    (BitVec.ofNat 32 a.length) 0 0 0 0 (by decide) (crcLength_lt a.length)
  exact ⟨hokU, hrelU, hpathU, hcrcU, rfl, rfl, storeDecision_holds _ _ _ _ _ hlen⟩

end Sys2Proof.Machine
end

section
/-! Independence of history: two states that agree on the session, the operands and the elements a command reads end alike,
whatever their scratch contents and Polar contexts are (spec R256). -/

namespace Sys2Proof.Machine

/-- Two states agree on every register of the session and every operand a command reads (R256). -/
structure SameSession (s s' : State) : Prop where
  life : s'.life = s.life
  thr1 : s'.thr1 = s.thr1
  thrb : s'.thrb = s.thrb
  capA : s'.capA = s.capA
  capE : s'.capE = s.capE
  crc6 : s'.crc6 = s.crc6
  crc11 : s'.crc11 = s.crc11
  arg : s'.arg = s.arg
  cmd : s'.cmd = s.cmd

/-- From `s` and `s'` two commands ended in `t` and `t'` with one response, one session and one effect on the buffers. -/
structure EndAlike (s s' t t' : State) : Prop where
  resp : t'.resp = t.resp
  session : SameSession t t'
  effect : SameEffect s.mem s'.mem t.mem t'.mem

/-- When the first run answers, the second answers alike. -/
def AnswerAlike (s s' : State) (r r' : Result) : Prop := ∀ t, r = .next t → ∃ t', r' = .next t' ∧ EndAlike s s' t t'

/-! Effects on the buffers. -/

section
variable {α : Type} {b b' t t' : Buf α}

theorem sameEffect_unwritten (b b' : Buf α) : Buf.sameEffect b b' b b' := fun _ => .inl ⟨rfl, rfl⟩

/-- The same write after the same effect: a written element is the same, another is as it was (R10). -/
theorem Buf.sameEffect.write (h : Buf.sameEffect b b' t t') (i : Nat) (vs : List α) :
    Buf.sameEffect b b' (t.write i vs) (t'.write i vs) := by
  intro k
  rw [Buf.read_write, Buf.read_write]
  by_cases hk : i ≤ k ∧ k < i + vs.length
  · right
    rw [if_pos hk, if_pos hk]
  · rw [if_neg hk, if_neg hk]
    exact h k

theorem sameEffect_write (b b' : Buf α) (i : Nat) (vs : List α) : Buf.sameEffect b b' (b.write i vs) (b'.write i vs) :=
  Buf.sameEffect.write (sameEffect_unwritten b b') i vs

/-- Two buffers that became unspecified throughout. -/
theorem sameEffect_dropped (b b' : Buf α) : Buf.sameEffect b b' [] [] := fun _ => .inr rfl

end

section
variable {m m' n n' : Memory}

theorem sameEffect_memory (m m' : Memory) : SameEffect m m' m m' := by
  constructor <;> exact sameEffect_unwritten _ _

theorem sameEffect_dropScratch (s s' : State) : SameEffect s.mem s'.mem (dropScratch s).mem (dropScratch s').mem :=
  { sameEffect_memory s.mem s'.mem with
    bitSequence := sameEffect_dropped _ _
    crcWord := sameEffect_dropped _ _
    allocated := sameEffect_dropped _ _
    d := sameEffect_dropped _ _ }

theorem SameEffect.unpack (h : SameEffect m m' n n') (c : Config) (cfg : UciCfg) (ch : Chan) (a : List Bool) :
    SameEffect m m' (unpack c cfg ch a n) (unpack c cfg ch a n') := by
  cases ch with
  | pucch res =>
    exact { h with valAck := h.valAck.write 0 _, valCsi1 := h.valCsi1.write 0 _, valMisc := h.valMisc.write 0 _ }
  | puschAck p => exact { h with valAck := h.valAck.write 0 a }
  | puschCsi1 p => exact { h with valCsi1 := h.valCsi1.write 0 a }

theorem SameEffect.storeDecision (h : SameEffect m m' n n') (c : Config) (cfg : UciCfg) (ch : Chan) (a : List Bool)
    (valid : Bool) : SameEffect m m' (storeDecision c cfg ch a valid n) (storeDecision c cfg ch a valid n') := by
  have hbits : SameEffect m m' { n with bitSequence := n.bitSequence.write 0 a }
      { n' with bitSequence := n'.bitSequence.write 0 a } := { h with bitSequence := h.bitSequence.write 0 a }
  have hunpack := hbits.unpack c cfg ch a
  exact { hunpack with valMisc := hunpack.valMisc.write 1 [valid] }

end

/-! Reads. -/

theorem Buf.readRange_congr {α : Type} {b b' : Buf α} (n i : Nat)
    (h : ∀ k, k < n → Buf.read b' (i + k) = Buf.read b (i + k)) : Buf.readRange b' i n = Buf.readRange b i n := by
  induction n generalizing i with
  | zero => rfl
  | succ n ih =>
    have hfirst : Buf.read b' i = Buf.read b i := h 0 (Nat.zero_lt_succ n)
    have hrest : Buf.readRange b' (i + 1) n = Buf.readRange b (i + 1) n := by
      refine ih (i + 1) fun k hk => ?_
      rw [Nat.add_right_comm, Nat.add_assoc]
      exact h (k + 1) (Nat.succ_lt_succ hk)
    simp only [Buf.readRange, hfirst, hrest]

theorem memRead_congr {α : Type} (sp : Space) {b b' : Buf α} {n : Nat}
    (h : ∀ k, k < n → Buf.read b' k = Buf.read b k) : memRead sp b' 0 n = memRead sp b 0 n := by
  have hrange : Buf.readRange b' 0 n = Buf.readRange b 0 n :=
    Buf.readRange_congr n 0 fun k hk => by rw [Nat.zero_add, h k hk]
  simp only [memRead, hrange]

theorem readSr_congr {cfg : UciCfg} {m m' : Memory}
    (h : cfg.sr = true → Buf.read m'.valMisc 0 = Buf.read m.valMisc 0) : readSr cfg m' = readSr cfg m := by
  unfold readSr
  split_ifs with hsr
  · exact memRead_congr _ fun k hk => by rw [Nat.lt_one_iff.mp hk]; exact h hsr
  · rfl

/-- Pack reads the payload's elements and nothing else (R242). -/
theorem pack_congr {c : Config} {cfg : UciCfg} {ch : Chan} {m m' : Memory} (h : EncodeReadsAgree cfg ch m m') :
    pack c cfg ch m' = pack c cfg ch m := by
  obtain ⟨hack, hcsi1, hmisc⟩ := h
  cases ch with
  | puschAck p => exact memRead_congr _ (hack nofun)
  | puschCsi1 p => exact memRead_congr _ (hcsi1 nofun)
  | pucch res =>
    simp only [pack, memRead_congr .valAck (hack nofun), memRead_congr .valCsi1 (hcsi1 nofun),
      readSr_congr (hmisc ⟨res, rfl⟩)]

/-! The ends. -/

section
variable {s s' t t' : State}

/-- The response of two commands that reached one session and one effect (R283). -/
theorem endAlike_respond (hsession : SameSession t t') (heffect : SameEffect s.mem s'.mem t.mem t'.mem) (e : ErrKind)
    (rel : Bool) (path : Option Path) (L : Nat) (r1 r2 r3 r4 : Word) :
    EndAlike s s' (respond e rel path L r1 r2 r3 r4 t) (respond e rel path L r1 r2 r3 r4 t') where
  resp := by rw [respond_resp, respond_resp, hsession.cmd]
  session := { hsession with }
  effect := heffect

theorem answerAlike_next (h : EndAlike s s' t t') : AnswerAlike s s' (.next t) (.next t') := by
  rintro u ⟨⟩
  exact ⟨t', rfl, h⟩

theorem answerAlike_raise (h : SameSession s s') (e : ErrKind) : AnswerAlike s s' (.next (raise e s)) (.next (raise e s')) :=
  answerAlike_next (endAlike_respond h (sameEffect_memory _ _) _ _ _ _ _ _ _ _)

/-- Acceptance is by the lifecycle state, which is the same (R237). -/
theorem answerAlike_whenAccepted (h : SameSession s s') {r r' : Result} (hrun : AnswerAlike s s' r r') (k : CmdClass) :
    AnswerAlike s s' (whenAccepted k s r) (whenAccepted k s' r') := by
  unfold whenAccepted
  rw [h.life]
  split_ifs
  · exact hrun
  · exact answerAlike_raise h .sequence

/-- A query answers from its operands alone (R131 to R135). -/
theorem answerAlike_respondLength (h : SameSession s s') (len : Except ErrKind Nat) (r2 : Nat) :
    AnswerAlike s s' (.next (respondLength len r2 s)) (.next (respondLength len r2 s')) := by
  cases len with
  | error e => exact answerAlike_raise h e
  | ok E => exact answerAlike_next (endAlike_respond h (sameEffect_memory _ _) _ _ _ _ _ _ _ _)

/-! The codec commands. -/

theorem crcAttach_congr (h : SameSession s s') (c : Config) (a : List Bool) : crcAttach c s' a = crcAttach c s a := by
  simp only [crcAttach, crcSelect, h.crc6, h.crc11]

theorem crcCheckSplit_congr (h : SameSession s s') (c : Config) (A : Nat) (bits : List Bool) :
    crcCheckSplit c s' A bits = crcCheckSplit c s A bits := by
  simp only [crcCheckSplit, crcSelect, h.crc6, h.crc11]

theorem endAlike_finishEncode (h : SameSession s s') (c : Config) (plan : Plan) (a : List Bool) :
    EndAlike s s' (finishEncode c plan a s) (finishEncode c plan a s') := by
  have hunwritten := sameEffect_memory s.mem s'.mem
  cases hcoding : plan.coding with
  | small p =>
    rw [finishEncode_small _ _ _ _ p hcoding, finishEncode_small _ _ _ _ p hcoding]
    refine endAlike_respond ?_ ?_ _ _ _ _ _ _ _ _
    · exact { h with }
    · exact { hunwritten with bitSequence := sameEffect_write _ _ _ _, cod := sameEffect_write _ _ _ _ }
  | polar code =>
    rw [finishEncode_polar _ _ _ _ code hcoding, finishEncode_polar _ _ _ _ code hcoding, crcAttach_congr h]
    refine endAlike_respond ?_ ?_ _ _ _ _ _ _ _ _
    · exact { h with }
    · exact { hunwritten with
        bitSequence := sameEffect_write _ _ _ _
        crcWord := sameEffect_write _ _ _ _
        allocated := sameEffect_write _ _ _ _
        d := sameEffect_write _ _ _ _
        cod := sameEffect_write _ _ _ _ }

theorem endAlike_finishDecode (h : SameSession s s') (c : Config) (cfg : UciCfg) (ch : Chan) (plan : Plan)
    (llr : List Int) : EndAlike s s' (finishDecode c cfg ch plan llr s) (finishDecode c cfg ch plan llr s') := by
  have hunwritten := sameEffect_memory s.mem s'.mem
  cases hcoding : plan.coding with
  | small p =>
    have hdecision : smallDecode c plan.A llr plan.E s'.thr1.toInt s'.thrb.toInt =
        smallDecode c plan.A llr plan.E s.thr1.toInt s.thrb.toInt := by rw [h.thr1, h.thrb]
    rw [finishDecode_small _ _ _ _ _ _ p hcoding, finishDecode_small _ _ _ _ _ _ p hcoding, hdecision]
    refine endAlike_respond ?_ ?_ _ _ _ _ _ _ _ _
    · exact { h with }
    · exact hunwritten.storeDecision c cfg ch _ _
  | polar code =>
    rw [finishDecode_polar _ _ _ _ _ _ code hcoding, finishDecode_polar _ _ _ _ _ _ code hcoding]
    simp only [crcCheckSplit_congr h]
    have hscratch (y : List Int) (cHat : List Bool) : SameEffect s.mem s'.mem
        { s.mem with d := s.mem.d.write 0 y, c := s.mem.c.write 0 cHat }
        { s'.mem with d := s'.mem.d.write 0 y, c := s'.mem.c.write 0 cHat } :=
      { hunwritten with d := sameEffect_write _ _ _ _, crcWord := sameEffect_write _ _ _ _ }
    refine endAlike_respond ?_ ?_ _ _ _ _ _ _ _ _
    · exact { h with }
    · exact (hscratch _ _).storeDecision c cfg ch _ _

theorem answerAlike_encode (h : SameSession s s') {c : Config} {cfg : UciCfg} {ch : Chan}
    (hreads : EncodeReadsAgree cfg ch s.mem s'.mem) : AnswerAlike s s' (codecEncode c cfg ch s) (codecEncode c cfg ch s') := by
  refine answerAlike_whenAccepted h ?_ .codec
  simp only [encodeRun, validate_congr c s s' cfg ch h.capA h.capE, pack_congr hreads]
  cases validate c s cfg ch with
  | error e => exact answerAlike_raise h e
  | ok plan =>
    cases pack c cfg ch s.mem with
    | error r => exact nofun
    | ok a => exact answerAlike_next (endAlike_finishEncode h c plan a)

theorem answerAlike_decode (h : SameSession s s') {c : Config} {cfg : UciCfg} {ch : Chan}
    (hreads : DecodeReadsAgree c cfg ch s.mem s'.mem) : AnswerAlike s s' (codecDecode c cfg ch s) (codecDecode c cfg ch s') := by
  refine answerAlike_whenAccepted h ?_ .codec
  simp only [decodeRun, validate_congr c s s' cfg ch h.capA h.capE]
  cases hvalid : validate c s cfg ch with
  | error e => exact answerAlike_raise h e
  | ok plan =>
    obtain ⟨hE, -⟩ := (validate_eq_ok _ _ _ _ _).mp hvalid
    simp only [memRead_congr .llr (hreads plan.E hE)]
    cases memRead .llr s.mem.llr 0 plan.E with
    | error r => exact nofun
    | ok llr => exact answerAlike_next (endAlike_finishDecode h c cfg ch plan llr)

/-! The session commands. -/

/-- A session command that succeeded with its scratch spaces dropped (R238 to R240). -/
theorem answerAlike_respondOk (hsession : SameSession t t') (heffect : SameEffect s.mem s'.mem t.mem t'.mem) :
    AnswerAlike s s' (.next (respondOk t)) (.next (respondOk t')) :=
  answerAlike_next (endAlike_respond hsession heffect _ _ _ _ _ _ _ _)

theorem answerAlike_init (h : SameSession s s') (c : Config) (thr1 thrb : Word) :
    AnswerAlike s s' (initIn c thr1 thrb s) (initIn c thr1 thrb s') := by
  refine answerAlike_whenAccepted h ?_ .init
  refine answerAlike_respondOk ?_ (sameEffect_dropScratch s s')
  exact { h with life := rfl, thr1 := rfl, thrb := rfl, crc6 := rfl, crc11 := rfl }

theorem answerAlike_free (h : SameSession s s') : AnswerAlike s s' (freeIn s) (freeIn s') := by
  refine answerAlike_whenAccepted h ?_ .free
  refine answerAlike_respondOk ?_ (sameEffect_dropScratch s s')
  exact { h with life := rfl, thr1 := rfl, thrb := rfl, capA := rfl, capE := rfl, crc6 := rfl, crc11 := rfl }

theorem answerAlike_setCarrier (h : SameSession s s') (c : Config) (mu nprb : Nat) :
    AnswerAlike s s' (setCarrierIn c mu nprb s) (setCarrierIn c mu nprb s') := by
  refine answerAlike_whenAccepted h ?_ .setCarrier
  unfold setCarrierRun
  cases c.carrierCap mu nprb with
  | none => exact answerAlike_raise h .invalidConfig
  | some caps =>
    refine answerAlike_respondOk ?_ (sameEffect_dropScratch s s')
    exact { h with life := rfl, capA := rfl, capE := rfl }

end

/-- Every command, by its meaning. -/
theorem answerAlike_execIn {s s' : State} (h : SameSession s s') {c : Config} {i : Instr}
    (hreads : ReadsAgree c i s.mem s'.mem) : AnswerAlike s s' (execIn c i s) (execIn c i s') := by
  cases i with
  | init thr1 thrb => exact answerAlike_init h c thr1 thrb
  | free => exact answerAlike_free h
  | setCarrier mu nprb => exact answerAlike_setCarrier h c mu nprb
  | encPucch cfg res => exact answerAlike_encode h hreads
  | encPuschAck cfg p => exact answerAlike_encode h hreads
  | encPuschCsi1 cfg p => exact answerAlike_encode h hreads
  | decPucch cfg res => exact answerAlike_decode h hreads
  | decPuschAck cfg p => exact answerAlike_decode h hreads
  | decPuschCsi1 cfg p => exact answerAlike_decode h hreads
  | qTotal cfg =>
    exact answerAlike_whenAccepted h (answerAlike_respondLength h (.ok (totalUciBits cfg)) 0) .query
  | qCrcLen a =>
    exact answerAlike_whenAccepted h
      (answerAlike_next (endAlike_respond h (sameEffect_memory _ _) _ _ _ _ _ _ _ _)) .query
  | qPucchE res => exact answerAlike_whenAccepted h (answerAlike_respondLength h _ _) .query
  | qPuschAckE cfg p => exact answerAlike_whenAccepted h (answerAlike_respondLength h _ _) .query
  | qPuschCsi1E cfg p => exact answerAlike_whenAccepted h (answerAlike_respondLength h _ _) .query

/-- Settles O57: the premises are the agreement of the two sessions, under which the commands end alike. -/
theorem resultsDoNotDependOnHistory : Obligations.ResultsDoNotDependOnHistory := by
  intro c i s s' t hlife hthr1 hthrb hcapA hcapE hcrc6 hcrc11 harg hcmd hreads hrun
  have hsession : SameSession s s' := ⟨hlife, hthr1, hthrb, hcapA, hcapE, hcrc6, hcrc11, harg, hcmd⟩
  obtain ⟨t', hrun', hresp, h, heffect⟩ := answerAlike_execIn hsession hreads t hrun
  exact ⟨t', hrun', hresp, h.life, h.thr1, h.thrb, h.capA, h.capE, h.crc6, h.crc11, heffect⟩

end Sys2Proof.Machine
end
